-- ==== Sys2Proof/Word.lean ====
section
/-! DEFINITION. The two word types of the machine and the size of its memory (spec/00_scope.md R6). -/

namespace Sys2Proof

/-- A byte: the data width and the byte size are 8 bits (00_scope.md R6). -/
abbrev Byte := BitVec 8

/-- A 16-bit word: `PC`, `SP` and every register pair (00_scope.md R6). -/
abbrev Word := BitVec 16

/-- `CAP`, the number of bytes of memory (00_scope.md R6, the spec's decision D4). -/
abbrev cap : Nat := 65536

end Sys2Proof
end

