-- ==== Sys2Proof/Config.lean ====
section
/-! DEFINITION. What the spec leaves to the platform and the model leaves FREE: constants with no body. Nothing can
evaluate them, so whatever is proved holds for every value of them. -/

namespace Sys2Proof

/-- One less than `PERIOD` in the reset state: `PERIOD` is a positive natural number that the spec leaves open
(00_scope.md R7, 60_exceptions.md R296, 93_implementation_defined.md U13). Log entry 3. -/
opaque Config.periodPred : Nat

/-- The time that passes before poll number `k` when no listed sample says it: `now` never decreases and may advance by
any amount (60_exceptions.md R296). Log entry 5. -/
opaque Config.freeElapsed : Nat → Nat

/-- The input `vector` at poll number `k` when no listed sample says it: any value within 0 to 7
(60_exceptions.md R286, 93_implementation_defined.md U14). Log entry 5. -/
opaque Config.freeVector : Nat → BitVec 3

end Sys2Proof
end

