-- ==== Sys2Proof/Syntax.lean ====
section
/-! DEFINITION. The instructions: one constructor per instruction rule of spec/40_ to 45_ and one for each of the two
kinds of absent row of spec/opcode_table.json. Operand fields are decoded here once and for all: a register code is a
register, code 6 (`M`) is a constructor of its own, an immediate is its value. -/

namespace Sys2Proof

/-- The seven registers a 3-bit register code names (30_encoding.md R83; code 6, `M`, names no register). -/
inductive Reg where
  | b | c | d | e | h | l | a
  deriving DecidableEq, Repr

/-- The three register pairs (10_state.md R22), codes 0 to 2 (30_encoding.md R84). -/
inductive Pair where
  | bc | de | hl
  deriving DecidableEq, Repr

/-- The two pairs LDAX and STAX can name (30_encoding.md R84, bit 4 alone). -/
inductive IndexPair where
  | bc | de
  deriving DecidableEq, Repr

/-- The eight condition predicates (30_encoding.md R85). -/
inductive Cond where
  | nz | z | nc | c | po | pe | p | m
  deriving DecidableEq, Repr

/-- Which part of the spec puts an opcode in the handler table (30_encoding.md R89, 00_scope.md R16). -/
inductive Tier where
  | doc | completion | absent
  deriving DecidableEq, Repr

/-- An instruction with its operands. -/
inductive Instr where
  -- 40_loads_and_moves.md
  | mviR (r : Reg) (v : Byte)        -- R110 MVI r,d8
  | mviM (v : Byte)                  -- R111 MVI M,d8
  | lxi (q : Pair) (v : Word)       -- R112 LXI rp,d16
  | lxiSp (v : Word)                 -- R113 LXI SP,d16
  | movRM (r : Reg)                  -- R114 MOV r,M
  | movMR (r : Reg)                  -- R115 MOV M,r
  | ldax (p : IndexPair)             -- R116 LDAX rp
  | stax (p : IndexPair)             -- R117 STAX rp
  | movRR (r1 r2 : Reg)              -- R118 MOV r1,r2
  | lda (a : Word)                   -- R119 LDA a16
  | sta (a : Word)                   -- R120 STA a16
  | lhld (a : Word)                  -- R121 LHLD a16
  | shld (a : Word)                  -- R122 SHLD a16
  | xchg                             -- R123 XCHG
  | sphl                             -- R124 SPHL
  -- 41_arithmetic.md
  | addR (r : Reg)                   -- R141 ADD r
  | addM                             -- R142 ADD M
  | adcR (r : Reg)                   -- R143 ADC r
  | adcM                             -- R144 ADC M
  | subR (r : Reg)                   -- R145 SUB r
  | subM                             -- R146 SUB M
  | sbbR (r : Reg)                   -- R147 SBB r
  | sbbM                             -- R148 SBB M
  | inrR (r : Reg)                   -- R149 INR r
  | inrM                             -- R150 INR M
  | dcrR (r : Reg)                   -- R151 DCR r
  | dcrM                             -- R152 DCR M
  | dad (q : Pair)                  -- R153 DAD rp
  | dadSp                            -- R154 DAD SP
  | adi (v : Byte)                   -- R155 ADI d8
  | aci (v : Byte)                   -- R156 ACI d8
  | sui (v : Byte)                   -- R157 SUI d8
  | sbi (v : Byte)                   -- R158 SBI d8
  | inx (q : Pair)                  -- R159 INX rp
  | inxSp                            -- R160 INX SP
  | dcx (q : Pair)                  -- R161 DCX rp
  | dcxSp                            -- R162 DCX SP
  | daa                              -- R163 DAA
  -- 42_logical_and_compare.md
  | anaR (r : Reg)                   -- R170 ANA r
  | anaM                             -- R171 ANA M
  | xraR (r : Reg)                   -- R172 XRA r
  | xraM                             -- R173 XRA M
  | oraR (r : Reg)                   -- R174 ORA r
  | oraM                             -- R175 ORA M
  | cmpR (r : Reg)                   -- R176 CMP r
  | cmpM                             -- R177 CMP M
  | cpi (v : Byte)                   -- R178 CPI d8
  | ani (v : Byte)                   -- R179 ANI d8
  | xri (v : Byte)                   -- R180 XRI d8
  | ori (v : Byte)                   -- R181 ORI d8
  | rlc                              -- R182 RLC
  | rrc                              -- R183 RRC
  | ral                              -- R184 RAL
  | rar                              -- R185 RAR
  | cma                              -- R186 CMA
  | stc                              -- R187 STC
  | cmc                              -- R188 CMC
  -- 43_control_transfer.md
  | jmp (a : Word)                   -- R201 JMP a16
  | jnz (a : Word)                   -- R202
  | jz (a : Word)                    -- R203
  | jnc (a : Word)                   -- R204
  | jc (a : Word)                    -- R205
  | jpo (a : Word)                   -- R206
  | jpe (a : Word)                   -- R207
  | jp (a : Word)                    -- R208
  | jm (a : Word)                    -- R209
  | call (a : Word)                  -- R210 CALL a16
  | ret                              -- R211 RET
  | rnz                              -- R212
  | rz                               -- R213
  | rnc                              -- R214
  | rc                               -- R215
  | rpo                              -- R216
  | rpe                              -- R217
  | rp                               -- R218
  | rm                               -- R219
  | cnz (a : Word)                   -- R220
  | cz (a : Word)                    -- R221
  | cnc (a : Word)                   -- R222
  | cc (a : Word)                    -- R223
  | cpo (a : Word)                   -- R224
  | cpe (a : Word)                   -- R225
  | cp (a : Word)                    -- R226
  | cm (a : Word)                    -- R227
  | rst (n : BitVec 3)               -- R228 RST n
  | pchl                             -- R229 PCHL
  -- 44_stack.md
  | push (q : Pair)                 -- R251 PUSH rp
  | pushPsw                          -- R252 PUSH PSW
  | pop (q : Pair)                  -- R253 POP rp
  | popPsw                           -- R254 POP PSW
  | xthl                             -- R256 XTHL
  -- 45_io_and_control.md
  | inp (port : Byte)                -- R265 IN d8
  | out (port : Byte)                -- R266 OUT d8
  | ei                               -- R267 EI
  | di                               -- R268 DI
  | nop                              -- R269 NOP
  -- 30_encoding.md R91: the bytes that are in no handler table
  | absent (op : Byte)               -- the twelve bytes the 8080 leaves undocumented
  | absentHlt                        -- 0x76, HLT in the 8080 map
  deriving DecidableEq, Repr

end Sys2Proof
end

