-- ==== Sys2Proof/WellFormed.lean ====
section
/-! DEFINITION. Which instruction terms spell an instruction word. Every operand field is well formed by its type; the
one check left is the byte of an absent row. -/

namespace Sys2Proof

/-- The twelve bytes at which the Intel 8080 documents no instruction (30_encoding.md R91). -/
def undocumentedBytes : List Byte :=
  [0x08, 0x10, 0x18, 0x20, 0x28, 0x30, 0x38, 0xCB, 0xD9, 0xDD, 0xED, 0xFD]

/-- An `absent` term carries one of the twelve undocumented bytes; every other term is well formed, because every value
of `d8`, `d16`, `a16` and of the opcode fields is legal (30_encoding.md R92). -/
def Instr.wellFormed : Instr → Bool
  | .absent op => undocumentedBytes.contains op
  | .mviR _ _ | .mviM _ | .lxi _ _ | .lxiSp _ | .movRM _ | .movMR _ | .ldax _ | .stax _ | .movRR _ _ | .lda _
  | .sta _ | .lhld _ | .shld _ | .xchg | .sphl | .addR _ | .addM | .adcR _ | .adcM | .subR _ | .subM | .sbbR _
  | .sbbM | .inrR _ | .inrM | .dcrR _ | .dcrM | .dad _ | .dadSp | .adi _ | .aci _ | .sui _ | .sbi _ | .inx _ | .inxSp
  | .dcx _ | .dcxSp | .daa | .anaR _ | .anaM | .xraR _ | .xraM | .oraR _ | .oraM | .cmpR _ | .cmpM | .cpi _ | .ani _
  | .xri _ | .ori _ | .rlc | .rrc | .ral | .rar | .cma | .stc | .cmc | .jmp _ | .jnz _ | .jz _ | .jnc _ | .jc _
  | .jpo _ | .jpe _ | .jp _ | .jm _ | .call _ | .ret | .rnz | .rz | .rnc | .rc | .rpo | .rpe | .rp | .rm | .cnz _
  | .cz _ | .cnc _ | .cc _ | .cpo _ | .cpe _ | .cp _ | .cm _ | .rst _ | .pchl | .push _ | .pushPsw | .pop _ | .popPsw
  | .xthl | .inp _ | .out _ | .ei | .di | .nop | .absentHlt => true

end Sys2Proof
end

