-- ==== Sys2Proof/Decode.lean ====
section
/-! DEFINITION. From bytes to instructions and back (spec/30_encoding.md): the field helpers, the opcode map, the
decoder on a list of bytes, the encoder, and the tiers of the handler table. -/

namespace Sys2Proof

/-! ## Byte order and fields -/

/-- `hi:lo`, the 16-bit value of two bytes (00_scope.md R8). -/
def joinBytes (hi lo : Byte) : Word := hi ++ lo

/-- Bits 7:0 of a word. -/
def loByte (v : Word) : Byte := v.extractLsb' 0 8

/-- Bits 15:8 of a word. -/
def hiByte (v : Word) : Byte := v.extractLsb' 8 8

/-- The opcode field in bits 7:6, which splits the map into quarters (30_encoding.md R82). -/
def quarterOf (op : Byte) : Nat := op.toNat / 64

/-- The field in bits 5:3: `ddd`, `ccc`, `nnn` or `ooo` (30_encoding.md R82). -/
def dddOf (op : Byte) : Nat := op.toNat / 8 % 8

/-- The field in bits 2:0: `sss` (30_encoding.md R82). -/
def sssOf (op : Byte) : Nat := op.toNat % 8

/-- The register a register code names; code 6 is `M` and names none (30_encoding.md R83). -/
def Reg.ofCode : Nat → Option Reg
  | 0 => some .b
  | 1 => some .c
  | 2 => some .d
  | 3 => some .e
  | 4 => some .h
  | 5 => some .l
  | 7 => some .a
  | _ => none

/-- The code of a register (30_encoding.md R83). -/
def Reg.code : Reg → Byte
  | .b => 0
  | .c => 1
  | .d => 2
  | .e => 3
  | .h => 4
  | .l => 5
  | .a => 7

/-- The pair a pair code names; code 3 is `SP` or `PSW` and names none (30_encoding.md R84). -/
def Pair.ofCode : Nat → Option Pair
  | 0 => some .bc
  | 1 => some .de
  | 2 => some .hl
  | _ => none

/-- The code of a pair (30_encoding.md R84). -/
def Pair.code : Pair → Byte
  | .bc => 0
  | .de => 1
  | .hl => 2

/-- Bit 4 of LDAX and STAX (30_encoding.md R84). -/
def IndexPair.code : IndexPair → Byte
  | .bc => 0
  | .de => 1

/-- The pair LDAX and STAX address memory with (40_loads_and_moves.md R116, R117). -/
def IndexPair.toPair : IndexPair → Pair
  | .bc => .bc
  | .de => .de

/-! ## The opcode map -/

/-- What an opcode byte selects: an instruction, or an instruction once its operand bytes are read. The three cases are
the formats F1, F2 and F3 (30_encoding.md R81). -/
inductive Template where
  | plain (i : Instr)
  | imm8 (f : Byte → Instr)
  | imm16 (f : Word → Instr)

/-- Length in bytes of the instruction (30_encoding.md R87). DESIGN CHOICE, log entry 12: 1 for an absent opcode, which has
no length in the spec. -/
def Template.length : Template → Nat
  | .plain _ => 1
  | .imm8 _ => 2
  | .imm16 _ => 3

/-- A form with a register code: the register form, or the `M` form for code 6 (30_encoding.md R83). -/
def regOrM (code : Nat) (onReg : Reg → Instr) (onM : Instr) : Instr :=
  match Reg.ofCode code with
  | some r => onReg r
  | none => onM

/-- A form with a pair code: the pair form, or the `SP` or `PSW` form for code 3 (30_encoding.md R84). -/
def pairOrElse (code : Nat) (onPair : Pair → Instr) (other : Instr) : Instr :=
  match Pair.ofCode code with
  | some rp => onPair rp
  | none => other

/-- Opcodes 0x00 to 0x3F (30_encoding.md R90). -/
def decodeLow (op : Byte) : Template :=
  let ddd := dddOf op
  match sssOf op with
  | 0 => .plain (if ddd = 0 then .nop else .absent op)
  | 1 =>
    if ddd % 2 = 0 then
      match Pair.ofCode (ddd / 2) with
      | some rp => .imm16 (.lxi rp)
      | none => .imm16 .lxiSp
    else .plain (pairOrElse (ddd / 2) .dad .dadSp)
  | 2 =>
    match ddd with
    | 0 => .plain (.stax .bc)
    | 1 => .plain (.ldax .bc)
    | 2 => .plain (.stax .de)
    | 3 => .plain (.ldax .de)
    | 4 => .imm16 .shld
    | 5 => .imm16 .lhld
    | 6 => .imm16 .sta
    | _ => .imm16 .lda
  | 3 =>
    if ddd % 2 = 0 then .plain (pairOrElse (ddd / 2) .inx .inxSp)
    else .plain (pairOrElse (ddd / 2) .dcx .dcxSp)
  | 4 => .plain (regOrM ddd .inrR .inrM)
  | 5 => .plain (regOrM ddd .dcrR .dcrM)
  | 6 =>
    match Reg.ofCode ddd with
    | some r => .imm8 (.mviR r)
    | none => .imm8 .mviM
  | _ =>
    match ddd with
    | 0 => .plain .rlc
    | 1 => .plain .rrc
    | 2 => .plain .ral
    | 3 => .plain .rar
    | 4 => .plain .daa
    | 5 => .plain .cma
    | 6 => .plain .stc
    | _ => .plain .cmc

/-- Opcodes 0x40 to 0x7F: MOV, and the absent 0x76 (30_encoding.md R90, R91). -/
def decodeMov (op : Byte) : Template :=
  match Reg.ofCode (dddOf op), Reg.ofCode (sssOf op) with
  | some r1, some r2 => .plain (.movRR r1 r2)
  | some r1, none => .plain (.movRM r1)
  | none, some r2 => .plain (.movMR r2)
  | none, none => .plain .absentHlt

/-- Opcodes 0x80 to 0xBF: the accumulator operations, selected by `ooo` (30_encoding.md R82, R90). -/
def decodeAlu (op : Byte) : Template :=
  let sss := sssOf op
  match dddOf op with
  | 0 => .plain (regOrM sss .addR .addM)
  | 1 => .plain (regOrM sss .adcR .adcM)
  | 2 => .plain (regOrM sss .subR .subM)
  | 3 => .plain (regOrM sss .sbbR .sbbM)
  | 4 => .plain (regOrM sss .anaR .anaM)
  | 5 => .plain (regOrM sss .xraR .xraM)
  | 6 => .plain (regOrM sss .oraR .oraM)
  | _ => .plain (regOrM sss .cmpR .cmpM)

/-- Opcodes 0xC0 to 0xFF (30_encoding.md R90). -/
def decodeHigh (op : Byte) : Template :=
  let ddd := dddOf op
  match sssOf op with
  | 0 =>
    match ddd with
    | 0 => .plain .rnz
    | 1 => .plain .rz
    | 2 => .plain .rnc
    | 3 => .plain .rc
    | 4 => .plain .rpo
    | 5 => .plain .rpe
    | 6 => .plain .rp
    | _ => .plain .rm
  | 1 =>
    match ddd with
    | 1 => .plain .ret
    | 3 => .plain (.absent op)
    | 5 => .plain .pchl
    | 7 => .plain .sphl
    | _ => .plain (pairOrElse (ddd / 2) .pop .popPsw)
  | 2 =>
    match ddd with
    | 0 => .imm16 .jnz
    | 1 => .imm16 .jz
    | 2 => .imm16 .jnc
    | 3 => .imm16 .jc
    | 4 => .imm16 .jpo
    | 5 => .imm16 .jpe
    | 6 => .imm16 .jp
    | _ => .imm16 .jm
  | 3 =>
    match ddd with
    | 0 => .imm16 .jmp
    | 1 => .plain (.absent op)
    | 2 => .imm8 .out
    | 3 => .imm8 .inp
    | 4 => .plain .xthl
    | 5 => .plain .xchg
    | 6 => .plain .di
    | _ => .plain .ei
  | 4 =>
    match ddd with
    | 0 => .imm16 .cnz
    | 1 => .imm16 .cz
    | 2 => .imm16 .cnc
    | 3 => .imm16 .cc
    | 4 => .imm16 .cpo
    | 5 => .imm16 .cpe
    | 6 => .imm16 .cp
    | _ => .imm16 .cm
  | 5 =>
    if ddd % 2 = 0 then .plain (pairOrElse (ddd / 2) .push .pushPsw)
    else if ddd = 1 then .imm16 .call
    else .plain (.absent op)
  | 6 =>
    match ddd with
    | 0 => .imm8 .adi
    | 1 => .imm8 .aci
    | 2 => .imm8 .sui
    | 3 => .imm8 .sbi
    | 4 => .imm8 .ani
    | 5 => .imm8 .xri
    | 6 => .imm8 .ori
    | _ => .imm8 .cpi
  | _ => .plain (.rst (BitVec.ofNat 3 ddd))

/-- The opcode map (30_encoding.md R90): every byte selects exactly one template. -/
def decodeOpcode (op : Byte) : Template :=
  match quarterOf op with
  | 0 => decodeLow op
  | 1 => decodeMov op
  | 2 => decodeAlu op
  | _ => decodeHigh op

/-- Why a list of bytes holds no whole instruction. -/
inductive DecodeError where
  /-- No byte at all. -/
  | noOpcode
  /-- The list ends inside the operand bytes of the instruction `op` starts. -/
  | missingOperand (op : Byte)
  deriving DecidableEq, Repr

/-- Reads one instruction off the front of a list of bytes and returns it with the rest; the operand bytes stand low byte
first (30_encoding.md R80, R86). Every opcode byte selects something, so the only rejections are lists that are too
short. -/
def decode : List Byte → Except DecodeError (Instr × List Byte)
  | [] => .error .noOpcode
  | op :: rest =>
    match decodeOpcode op, rest with
    | .plain i, rest => .ok (i, rest)
    | .imm8 f, v :: rest => .ok (f v, rest)
    | .imm16 f, lo :: hi :: rest => .ok (f (joinBytes hi lo), rest)
    | _, _ => .error (.missingOperand op)

/-- The three bytes of a word of `spec/opcode_table.json`, the first at the lowest address: bit 0 of `w` is the least
significant bit of the first byte, and every bit from `nbits` up is 0. -/
def tableWordBytes (nbits w : Nat) : List Byte :=
  let v := w % 2 ^ nbits
  [BitVec.ofNat 8 v, BitVec.ofNat 8 (v / 256), BitVec.ofNat 8 (v / 65536)]

/-- The instruction the decoder reads from such a word. -/
def decodeTableWord (nbits w : Nat) : Option Instr :=
  match decode (tableWordBytes nbits w) with
  | .ok (i, _) => some i
  | .error _ => none

/-! ## The encoder -/

/-- `ddd` at bits 5:3 of a base opcode. -/
def withDdd (base code : Byte) : Byte := base ||| (code <<< 3)

/-- `sss` at bits 2:0 of a base opcode. -/
def withSss (base code : Byte) : Byte := base ||| code

/-- `rp` at bits 5:4 of a base opcode. -/
def withRp (base code : Byte) : Byte := base ||| (code <<< 4)

/-- The opcode byte of an instruction, from the "Encoding" line of its rule (the pattern table of 30_encoding.md R90). -/
def Instr.opcode : Instr → Byte
  | .mviR r _ => withDdd 0x06 r.code
  | .mviM _ => 0x36
  | .lxi q _ => withRp 0x01 q.code
  | .lxiSp _ => 0x31
  | .movRM r => withDdd 0x46 r.code
  | .movMR r => withSss 0x70 r.code
  | .ldax p => withRp 0x0A p.code
  | .stax p => withRp 0x02 p.code
  | .movRR r1 r2 => withSss (withDdd 0x40 r1.code) r2.code
  | .lda _ => 0x3A
  | .sta _ => 0x32
  | .lhld _ => 0x2A
  | .shld _ => 0x22
  | .xchg => 0xEB
  | .sphl => 0xF9
  | .addR r => withSss 0x80 r.code
  | .addM => 0x86
  | .adcR r => withSss 0x88 r.code
  | .adcM => 0x8E
  | .subR r => withSss 0x90 r.code
  | .subM => 0x96
  | .sbbR r => withSss 0x98 r.code
  | .sbbM => 0x9E
  | .inrR r => withDdd 0x04 r.code
  | .inrM => 0x34
  | .dcrR r => withDdd 0x05 r.code
  | .dcrM => 0x35
  | .dad q => withRp 0x09 q.code
  | .dadSp => 0x39
  | .adi _ => 0xC6
  | .aci _ => 0xCE
  | .sui _ => 0xD6
  | .sbi _ => 0xDE
  | .inx q => withRp 0x03 q.code
  | .inxSp => 0x33
  | .dcx q => withRp 0x0B q.code
  | .dcxSp => 0x3B
  | .daa => 0x27
  | .anaR r => withSss 0xA0 r.code
  | .anaM => 0xA6
  | .xraR r => withSss 0xA8 r.code
  | .xraM => 0xAE
  | .oraR r => withSss 0xB0 r.code
  | .oraM => 0xB6
  | .cmpR r => withSss 0xB8 r.code
  | .cmpM => 0xBE
  | .cpi _ => 0xFE
  | .ani _ => 0xE6
  | .xri _ => 0xEE
  | .ori _ => 0xF6
  | .rlc => 0x07
  | .rrc => 0x0F
  | .ral => 0x17
  | .rar => 0x1F
  | .cma => 0x2F
  | .stc => 0x37
  | .cmc => 0x3F
  | .jmp _ => 0xC3
  | .jnz _ => 0xC2
  | .jz _ => 0xCA
  | .jnc _ => 0xD2
  | .jc _ => 0xDA
  | .jpo _ => 0xE2
  | .jpe _ => 0xEA
  | .jp _ => 0xF2
  | .jm _ => 0xFA
  | .call _ => 0xCD
  | .ret => 0xC9
  | .rnz => 0xC0
  | .rz => 0xC8
  | .rnc => 0xD0
  | .rc => 0xD8
  | .rpo => 0xE0
  | .rpe => 0xE8
  | .rp => 0xF0
  | .rm => 0xF8
  | .cnz _ => 0xC4
  | .cz _ => 0xCC
  | .cnc _ => 0xD4
  | .cc _ => 0xDC
  | .cpo _ => 0xE4
  | .cpe _ => 0xEC
  | .cp _ => 0xF4
  | .cm _ => 0xFC
  | .rst n => withDdd 0xC7 (n.zeroExtend 8)
  | .pchl => 0xE9
  | .push q => withRp 0xC5 q.code
  | .pushPsw => 0xF5
  | .pop q => withRp 0xC1 q.code
  | .popPsw => 0xF1
  | .xthl => 0xE3
  | .inp _ => 0xDB
  | .out _ => 0xD3
  | .ei => 0xFB
  | .di => 0xF3
  | .nop => 0x00
  | .absent op => op
  | .absentHlt => 0x76

/-- The two operand bytes of a 16-bit immediate, low byte first (20_memory.md R55). -/
def wordBytes (v : Word) : List Byte := [loByte v, hiByte v]

/-- The operand bytes of an instruction, in address order (30_encoding.md R81, R86). -/
def Instr.operands : Instr → List Byte
  | .mviR _ v => [v]
  | .mviM v => [v]
  | .lxi _ v => wordBytes v
  | .lxiSp v => wordBytes v
  | .lda a => wordBytes a
  | .sta a => wordBytes a
  | .lhld a => wordBytes a
  | .shld a => wordBytes a
  | .adi v => [v]
  | .aci v => [v]
  | .sui v => [v]
  | .sbi v => [v]
  | .cpi v => [v]
  | .ani v => [v]
  | .xri v => [v]
  | .ori v => [v]
  | .jmp a => wordBytes a
  | .jnz a => wordBytes a
  | .jz a => wordBytes a
  | .jnc a => wordBytes a
  | .jc a => wordBytes a
  | .jpo a => wordBytes a
  | .jpe a => wordBytes a
  | .jp a => wordBytes a
  | .jm a => wordBytes a
  | .call a => wordBytes a
  | .cnz a => wordBytes a
  | .cz a => wordBytes a
  | .cnc a => wordBytes a
  | .cc a => wordBytes a
  | .cpo a => wordBytes a
  | .cpe a => wordBytes a
  | .cp a => wordBytes a
  | .cm a => wordBytes a
  | .inp port => [port]
  | .out port => [port]
  | .movRM _ | .movMR _ | .ldax _ | .stax _ | .movRR _ _ | .xchg | .sphl | .addR _ | .addM | .adcR _ | .adcM
  | .subR _ | .subM | .sbbR _ | .sbbM | .inrR _ | .inrM | .dcrR _ | .dcrM | .dad _ | .dadSp | .inx _ | .inxSp
  | .dcx _ | .dcxSp | .daa | .anaR _ | .anaM | .xraR _ | .xraM | .oraR _ | .oraM | .cmpR _ | .cmpM | .rlc | .rrc
  | .ral | .rar | .cma | .stc | .cmc | .ret | .rnz | .rz | .rnc | .rc | .rpo | .rpe | .rp | .rm | .rst _ | .pchl
  | .push _ | .pushPsw | .pop _ | .popPsw | .xthl | .ei | .di | .nop | .absent _ | .absentHlt => []

/-- The bytes of a well-formed instruction, opcode first. -/
def encode (i : Instr) : List Byte := i.opcode :: i.operands

/-- The encoded length in bytes: 1, 2 or 3 (30_encoding.md R80, R87). DESIGN CHOICE, log entry 12: 1 for an absent opcode,
which has no length in the spec. -/
def Instr.length (i : Instr) : Nat := 1 + i.operands.length

/-! ## Tiers of the handler table -/

/-- `TABLE_DOC`, the 145 opcodes in every legal handler table (30_encoding.md R89). -/
def tableDoc : List Byte :=
  [0x01, 0x02, 0x04, 0x05, 0x06, 0x09, 0x0A, 0x0C, 0x0D, 0x0E, 0x11, 0x12, 0x14, 0x15, 0x16, 0x19] ++
  [0x1A, 0x1C, 0x1D, 0x1E, 0x21, 0x24, 0x25, 0x26, 0x29, 0x2C, 0x2D, 0x2E, 0x31, 0x34, 0x35, 0x36] ++
  [0x39, 0x3C, 0x3D, 0x3E, 0x46, 0x4E, 0x56, 0x5E, 0x66, 0x6E, 0x70, 0x71, 0x72, 0x73, 0x74, 0x75] ++
  [0x77, 0x7E, 0x80, 0x81, 0x82, 0x83, 0x84, 0x85, 0x86, 0x87, 0x88, 0x89, 0x8A, 0x8B, 0x8C, 0x8D] ++
  [0x8E, 0x8F, 0x90, 0x91, 0x92, 0x93, 0x94, 0x95, 0x96, 0x97, 0x98, 0x99, 0x9A, 0x9B, 0x9C, 0x9D] ++
  [0x9E, 0x9F, 0xA0, 0xA1, 0xA2, 0xA3, 0xA4, 0xA5, 0xA6, 0xA7, 0xA8, 0xA9, 0xAA, 0xAB, 0xAC, 0xAD] ++
  [0xAE, 0xAF, 0xB0, 0xB1, 0xB2, 0xB3, 0xB4, 0xB5, 0xB6, 0xB7, 0xB8, 0xB9, 0xBA, 0xBB, 0xBC, 0xBD] ++
  [0xBE, 0xBF, 0xC0, 0xC1, 0xC2, 0xC3, 0xC5, 0xC8, 0xC9, 0xCA, 0xCD, 0xD0, 0xD1, 0xD2, 0xD3, 0xD5] ++
  [0xD8, 0xDA, 0xDB, 0xE0, 0xE1, 0xE2, 0xE5, 0xE8, 0xEA, 0xF0, 0xF1, 0xF2, 0xF5, 0xF8, 0xFA, 0xFB] ++
  [0xFE]

/-- The 98 tier-completion opcodes: every other documented 8080 opcode but HLT (30_encoding.md R89). -/
def tableCompletion : List Byte :=
  [0x00, 0x03, 0x13, 0x23, 0x33, 0x0B, 0x1B, 0x2B, 0x3B, 0x07, 0x0F, 0x17, 0x1F, 0x27, 0x2F, 0x37, 0x3F] ++
  [0x22, 0x2A, 0x32, 0x3A] ++
  [0x40, 0x41, 0x42, 0x43, 0x44, 0x45, 0x47, 0x48, 0x49, 0x4A, 0x4B, 0x4C, 0x4D, 0x4F] ++
  [0x50, 0x51, 0x52, 0x53, 0x54, 0x55, 0x57, 0x58, 0x59, 0x5A, 0x5B, 0x5C, 0x5D, 0x5F] ++
  [0x60, 0x61, 0x62, 0x63, 0x64, 0x65, 0x67, 0x68, 0x69, 0x6A, 0x6B, 0x6C, 0x6D, 0x6F] ++
  [0x78, 0x79, 0x7A, 0x7B, 0x7C, 0x7D, 0x7F] ++
  [0xC4, 0xCC, 0xD4, 0xDC, 0xE4, 0xEC, 0xF4, 0xFC] ++
  [0xC7, 0xCF, 0xD7, 0xDF, 0xE7, 0xEF, 0xF7, 0xFF] ++
  [0xC6, 0xCE, 0xD6, 0xDE, 0xE6, 0xEE, 0xF6, 0xE3, 0xE9, 0xEB, 0xF9, 0xF3]

/-- The tier the rule of an instruction gives it ("Tier doc", "Tier completion"), and the absent rows. -/
def Instr.tier : Instr → Tier
  -- 40_loads_and_moves.md
  | .mviR _ _ | .mviM _ | .lxi _ _ | .lxiSp _ | .movRM _ | .movMR _ | .ldax _ | .stax _ => .doc
  | .movRR _ _ | .lda _ | .sta _ | .lhld _ | .shld _ | .xchg | .sphl => .completion
  -- 41_arithmetic.md
  | .addR _ | .addM | .adcR _ | .adcM | .subR _ | .subM | .sbbR _ | .sbbM | .inrR _ | .inrM | .dcrR _ | .dcrM
  | .dad _ | .dadSp => .doc
  | .adi _ | .aci _ | .sui _ | .sbi _ | .inx _ | .inxSp | .dcx _ | .dcxSp | .daa => .completion
  -- 42_logical_and_compare.md
  | .anaR _ | .anaM | .xraR _ | .xraM | .oraR _ | .oraM | .cmpR _ | .cmpM | .cpi _ => .doc
  | .ani _ | .xri _ | .ori _ | .rlc | .rrc | .ral | .rar | .cma | .stc | .cmc => .completion
  -- 43_control_transfer.md
  | .jmp _ | .jnz _ | .jz _ | .jnc _ | .jc _ | .jpo _ | .jpe _ | .jp _ | .jm _ | .call _ | .ret | .rnz | .rz | .rnc
  | .rc | .rpo | .rpe | .rp | .rm => .doc
  | .cnz _ | .cz _ | .cnc _ | .cc _ | .cpo _ | .cpe _ | .cp _ | .cm _ | .rst _ | .pchl => .completion
  -- 44_stack.md
  | .push _ | .pushPsw | .pop _ | .popPsw => .doc
  | .xthl => .completion
  -- 45_io_and_control.md
  | .inp _ | .out _ | .ei => .doc
  | .di | .nop => .completion
  -- 30_encoding.md R91
  | .absent _ | .absentHlt => .absent

/-- The tier of what an opcode byte selects; no operand bears on it. -/
def Template.tier : Template → Tier
  | .plain i => i.tier
  | .imm8 f => (f 0).tier
  | .imm16 f => (f 0).tier

/-- The tier of an opcode byte (30_encoding.md R89, R91). -/
def tierOf (op : Byte) : Tier := (decodeOpcode op).tier

end Sys2Proof
end

