-- ==== Sys2Proof/Machine/State.lean ====
section
/-! DEFINITION. The state of the core (spec/10_state.md), the two faults (spec/60_exceptions.md R280), and the state
right after reset (10_state.md R41). -/

namespace Sys2Proof.Machine

/-- The two fault kinds, with their one recorded value (60_exceptions.md R280). The same value is the content of the
fault latch in State and what a step of a FAULTED core answers (log entry 7). -/
inductive Fault where
  /-- Raised by the decode part of a step when the opcode byte `b` has no handler (60_exceptions.md R281). It is the
  spec's own fault, so stopping on it is faithful: safe. -/
  | unimplementedOpcode (b : Byte)
  /-- Raised by a memory access, a new `PC` or a new `SP` outside `[0, CAP)`; `a` is the integer as computed, possibly
  negative (60_exceptions.md R282). It is the spec's own fault, so stopping on it is faithful: safe. -/
  | outOfRangeMemoryAccess (a : Int)
  deriving DecidableEq, Repr

/-- Why the model gives an instruction no meaning. -/
inductive Refusal where
  /-- Raised only by an arm of `exec` whose instruction has no meaning yet; no arm of this model raises it: safe. -/
  | notModelled (mnemonic : String)
  deriving DecidableEq, Repr

/-- The five condition-code bits (10_state.md R26). -/
structure Flags where
  /-- `Z`, zero (R27). -/
  z : Bool
  /-- `S`, sign (R28). -/
  s : Bool
  /-- `P`, parity (R29). -/
  p : Bool
  /-- `CY`, carry (R30). -/
  cy : Bool
  /-- `AC`, auxiliary carry, a stored bit that no arithmetic computes (R31). -/
  ac : Bool
  deriving DecidableEq, Repr

/-- Memory as data: the bytes that are not zero, by strictly rising address. An address that is not listed reads 0x00,
the spec's reset contents (10_state.md R41). -/
abbrev Memory := List Host.Cell

/-- The canonical form: addresses strictly rise, every address exists, and no listed byte is the one an unlisted address
reads as. -/
abbrev Memory.wf (m : Memory) : Prop :=
  m.Pairwise (fun x y => x.1 < y.1) ∧ ∀ x ∈ m, x.1 < cap ∧ x.2 ≠ 0

/-- The open parameters `TABLE`, `ROM` and `PERIOD` (00_scope.md R7), carried by the state as constants no step writes
(log entry 1). -/
structure Params where
  /-- The tier-completion opcodes that have a handler: `TABLE` is `TABLE_DOC` and these (30_encoding.md R89). -/
  extra : List Byte
  /-- `ROM` (70_reset_and_hazards.md R322). -/
  rom : List Byte
  /-- `PERIOD`, in units of `now` (60_exceptions.md R296). -/
  period : Nat
  deriving DecidableEq, Repr

/-- The constraints of 00_scope.md R7: the image fits in memory and the period is positive. `TABLE` needs none: whatever
`extra` lists, the table it stands for lies between the two bounds. -/
abbrev Params.legal (p : Params) : Prop :=
  p.rom.length ≤ cap ∧ 0 < p.period

/-- One input the outside world is still to give (log entries 5 and 6). -/
inductive Input where
  /-- The `reset` input is applied (60_exceptions.md R302). -/
  | reset
  /-- The inputs of one poll: how far `now` has advanced since the poll before, and `vector`
  (60_exceptions.md R286, R296). -/
  | sample (elapsed : Nat) (vector : BitVec 3)
  deriving DecidableEq, Repr

/-- What the model keeps of the outside world (log entry 5). -/
structure Env where
  /-- The value of the input `now` at the latest poll. -/
  now : Nat
  /-- How many polls have sampled their inputs. -/
  polls : Nat
  /-- The inputs still to come, in order; past its end the inputs of a poll are free values. -/
  script : List Input
  deriving DecidableEq, Repr

/-- The complete state of the core (10_state.md R20), and beside it the parameters and inputs the step needs. -/
structure State where
  /-- The accumulator and the other six registers (10_state.md R21). -/
  a : Byte
  b : Byte
  c : Byte
  d : Byte
  e : Byte
  h : Byte
  l : Byte
  /-- Stack pointer (10_state.md R23). -/
  sp : Word
  /-- Program counter (10_state.md R24). -/
  pc : Word
  /-- Condition codes (10_state.md R26). -/
  flags : Flags
  /-- `IE`, interrupt enable (10_state.md R35). -/
  ie : Bool
  /-- `last_fire` (10_state.md R36). -/
  lastFire : Nat
  /-- The fault latch: `none`, or the value of the one fault that stopped the core (10_state.md R37). -/
  fault : Option Fault
  /-- `mem` (10_state.md R38). -/
  mem : Memory
  /-- The parameters `TABLE`, `ROM`, `PERIOD`. -/
  params : Params
  /-- The inputs `now`, `vector`, `reset`. -/
  env : Env
  deriving DecidableEq, Repr

/-- The parameters of `State.reset`: every opcode of `TABLE_FULL` has a handler (log entry 2), the `ROM` is empty (log
entry 4) and `PERIOD` is a free positive number (log entry 3). -/
def Params.standard : Params :=
  { extra := tableCompletion
    rom := []
    period := Config.periodPred + 1 }

/-- Right after reset, with an empty `ROM` (10_state.md R41; 70_reset_and_hazards.md R320, R322). -/
def State.reset : State :=
  { a := 0
    b := 0
    c := 0
    d := 0
    e := 0
    h := 0
    l := 0
    sp := 0
    pc := 0
    flags := { z := false, s := false, p := false, cy := false, ac := false }
    ie := false
    lastFire := 0
    fault := none
    mem := []
    params := Params.standard
    env := { now := 0, polls := 0, script := [] } }

end Sys2Proof.Machine
end

