-- ==== Sys2Proof/Machine/Flags.lean ====
section
/-! DEFINITION. The flag computations (spec/10_state.md section 4) and the PSW flag byte (spec/44_stack.md R255). -/

namespace Sys2Proof.Machine

/-- The number of bits of a byte that are 1 (00_scope.md R9). -/
def popcount (v : Byte) : Nat :=
  ((List.range 8).filter (fun i => v.getLsbD i)).length

/-- 1 when the number of set bits is even (10_state.md R29, 00_scope.md R15). -/
def parityEven (v : Byte) : Bool := popcount v % 2 == 0

/-- `SetZSP(v)`: writes Z, S and P from a byte, neither CY nor AC (10_state.md R27, R28, R29, R33). -/
def Flags.setZSP (f : Flags) (v : Byte) : Flags :=
  { f with z := v == 0, s := v.getLsbD 7, p := parityEven v }

/-- Writes CY alone. -/
def Flags.setCY (f : Flags) (cy : Bool) : Flags := { f with cy := cy }

/-- Writes AC alone. -/
def Flags.setAC (f : Flags) (ac : Bool) : Flags := { f with ac := ac }

/-- The integer a flag bit stands for in a sum (00_scope.md R9). -/
def bit (x : Bool) : Nat := if x then 1 else 0

/-- The 8-bit sum of the accumulator, an operand and the carry in, with its carry: the integer sum exceeds 255
(10_state.md R30). -/
def addByte (x v : Byte) (cin : Bool) : Byte × Bool :=
  let t := x.toNat + v.toNat + bit cin
  (BitVec.ofNat 8 t, decide (t > 255))

/-- The 8-bit difference of the accumulator, an operand and the carry in. The new carry compares the accumulator with
the operand alone; the carry in takes no part (10_state.md R30, the spec's decision D8). -/
def subByte (x v : Byte) (cin : Bool) : Byte × Bool :=
  (BitVec.ofInt 8 ((x.toNat : Int) - v.toNat - bit cin), decide (x.toNat < v.toNat))

/-- The 16-bit sum of DAD with its carry: the integer sum exceeds 65535 (10_state.md R30). -/
def addWord (x v : Word) : Word × Bool :=
  let t := x.toNat + v.toNat
  (BitVec.ofNat 16 t, decide (t > 65535))

/-- DAA's adjusted accumulator and carry, from the accumulator, CY and AC (41_arithmetic.md R163). -/
def daaByte (x : Byte) (cy ac : Bool) : Byte × Bool :=
  let lo := x.toNat % 16
  let hi := x.toNat / 16
  let adjLo := if lo > 9 ∨ ac = true then 0x06 else 0
  let high := decide (hi > 9 ∨ cy = true ∨ (hi ≥ 9 ∧ lo > 9))
  let adjHi := if high then 0x60 else 0
  (BitVec.ofNat 8 (x.toNat + (adjLo + adjHi)), high || cy)

/-- The flag byte PUSH PSW writes: Z, S, P, CY, AC in bits 0 to 4, bits 7:5 zero (44_stack.md R252, R255). -/
def Flags.toByte (f : Flags) : Byte :=
  BitVec.ofNat 8 (bit f.z + 2 * bit f.s + 4 * bit f.p + 8 * bit f.cy + 16 * bit f.ac)

/-- The flags POP PSW loads from a flag byte; bits 7:5 are ignored (44_stack.md R254, R255). -/
def Flags.ofByte (v : Byte) : Flags :=
  { z := v.getLsbD 0, s := v.getLsbD 1, p := v.getLsbD 2, cy := v.getLsbD 3, ac := v.getLsbD 4 }

/-- `Cond(ccc)`, the "taken when" column (30_encoding.md R85). -/
def Flags.holds (f : Flags) : Cond → Bool
  | .nz => !f.z
  | .z => f.z
  | .nc => !f.cy
  | .c => f.cy
  | .po => !f.p
  | .pe => f.p
  | .p => !f.s
  | .m => f.s

end Sys2Proof.Machine
end

