-- ==== Sys2Proof/Machine/Ops.lean ====
section
/-! DEFINITION. The named operations every meaning is made of: memory (spec/20_memory.md), the sequential PC
(spec/00_scope.md R13), the stack (spec/44_stack.md R250), raising a fault and its undoing by reset
(spec/60_exceptions.md R283, R284), and interrupt entry (spec/60_exceptions.md R288). -/

namespace Sys2Proof.Machine

/-! ## The memory array -/

/-- What an address no cell lists reads as: memory is zero outside the ROM image at reset (10_state.md R41). -/
def unlistedByte : Byte := 0

/-- The byte at an address. -/
def Memory.read : Memory → Nat → Byte
  | [], _ => unlistedByte
  | (k, w) :: m, x => if k = x then w else Memory.read m x

/-- Stores a byte and keeps the canonical form: a zero is stored by listing nothing. -/
def Memory.write (x : Nat) (v : Byte) : Memory → Memory
  | [] => if v = unlistedByte then [] else [(x, v)]
  | (k, w) :: m =>
    if x < k then (if v = unlistedByte then (k, w) :: m else (x, v) :: (k, w) :: m)
    else if x = k then (if v = unlistedByte then m else (x, v) :: m)
    else (k, w) :: Memory.write x v m

/-- The bytes of a list at consecutive addresses from `base` up, in canonical form. -/
def Memory.ofBytes (base : Nat) : List Byte → Memory
  | [] => []
  | v :: vs =>
    if v = unlistedByte then Memory.ofBytes (base + 1) vs
    else (base, v) :: Memory.ofBytes (base + 1) vs

/-! ## The two primitives -/

/-- An integer is an address of memory (20_memory.md R52). -/
abbrev inRange (x : Int) : Prop := 0 ≤ x ∧ x < (cap : Int)

/-- `MemRead(addr, 1)` on an integer address that is never reduced (20_memory.md R52, R54). -/
def memRead (s : State) (x : Int) : Except Fault Byte :=
  if inRange x then .ok (s.mem.read x.toNat) else .error (.outOfRangeMemoryAccess x)

/-- `MemWrite(addr, 1, v)` (20_memory.md R53, R54). -/
def memWrite (s : State) (x : Int) (v : Byte) : Except Fault State :=
  if inRange x then .ok { s with mem := s.mem.write x.toNat v } else .error (.outOfRangeMemoryAccess x)

/-- `MemRead(addr, 2)`: the lower address first, little-endian (20_memory.md R55, R56; 00_scope.md R11). -/
def memReadWord (s : State) (x : Int) : Except Fault Word := do
  let lo ← memRead s x
  let hi ← memRead s (x + 1)
  .ok (joinBytes hi lo)

/-- `MemWrite(addr, 2, v)`: the lower address first, little-endian (20_memory.md R55, R56; 00_scope.md R11). -/
def memWriteWord (s : State) (x : Int) (v : Word) : Except Fault State := do
  let s ← memWrite s x (loByte v)
  memWrite s (x + 1) (hiByte v)

/-- The integer a 16-bit register, pair or immediate is as an address (20_memory.md R50). -/
def addr (v : Word) : Int := (v.toNat : Int)

/-! ## Sequencing and the stack -/

/-- `NextPC(n)`: `PC + n` over the integers, a fault when it leaves memory (00_scope.md R13, 10_state.md R25). -/
def nextPC (s : State) (n : Nat) : Except Fault Word :=
  if s.pc.toNat + n < cap then .ok (BitVec.ofNat 16 (s.pc.toNat + n))
  else .error (.outOfRangeMemoryAccess ((s.pc.toNat + n : Nat) : Int))

/-- `Push16(v)` (44_stack.md R250): the low byte at `SP - 2`, the high byte at `SP - 1`, then `SP <- SP - 2`. -/
def push16 (s : State) (v : Word) : Except Fault State := do
  let t ← memWriteWord s (addr s.sp - 2) v
  .ok { t with sp := BitVec.ofInt 16 (addr s.sp - 2) }

/-- `Pop16()` (44_stack.md R250): the low byte at `SP`, the high byte at `SP + 1`, then the range test of the new `SP`. -/
def pop16 (s : State) : Except Fault (Word × State) := do
  let v ← memReadWord s (addr s.sp)
  if s.sp.toNat + 2 < cap then
    .ok (v, { s with sp := BitVec.ofNat 16 (s.sp.toNat + 2) })
  else .error (.outOfRangeMemoryAccess (addr s.sp + 2))

/-! ## Taking a fault, and the one way back -/

/-- Taking a fault: the latch takes the value and nothing else changes (60_exceptions.md R283, R284). No register is
saved, no handler is entered. -/
def State.raise (s : State) (f : Fault) : State := { s with fault := some f }

/-- The end of an instruction, computed on a copy (60_exceptions.md R284): its result if no `raise` was reached, else the
state before it with the fault taken. -/
def settle (s : State) (r : Except Fault State) : Host.Outcome State Fault Refusal :=
  .next (match r with
    | .ok t => t
    | .error f => s.raise f)

/-- The reset input (70_reset_and_hazards.md R320): every state element takes its reset value and memory is the ROM image
again. It is the one event that clears the fault latch (60_exceptions.md R283). The parameters stay, and so does the
outside world, of which `rest` is the script that is left (log entry 6). -/
def State.applyReset (s : State) (rest : List Input) : State :=
  { State.reset with
    mem := Memory.ofBytes 0 s.params.rom
    params := s.params
    env := { s.env with script := rest } }

/-- The machine a choice of parameters gives, right after its reset; a `ROM` longer than memory and a `PERIOD` of 0 give no
machine (00_scope.md R7, 70_reset_and_hazards.md R322, 60_exceptions.md R296, 93_implementation_defined.md U10, U12). -/
def State.boot (p : Params) (script : List Input) : Option State :=
  if p.legal then
    some { State.reset with
      mem := Memory.ofBytes 0 p.rom
      params := p
      env := { now := 0, polls := 0, script := script } }
  else none

/-! ## Interrupt entry and the return from it -/

/-- The entry address of a vector, and the target of RST: `8 * n` (60_exceptions.md R288, 43_control_transfer.md R228). -/
def entryAddress (n : BitVec 3) : Word := BitVec.ofNat 16 (8 * n.toNat)

/-- Interrupt entry (60_exceptions.md R288): `PC` is pushed as it stands, control goes to `8 * vector`, `IE` is cleared
and `last_fire` is the time of this poll. -/
def enterInterrupt (s : State) (vector : BitVec 3) (now : Nat) : Except Fault State := do
  let t ← push16 s s.pc
  .ok { t with pc := entryAddress vector, ie := false, lastFire := now }

/-- The return from an interrupt handler, and from any call: there is no return-from-interrupt instruction, a RET pops
the pushed address and restores nothing else (60_exceptions.md R292, 43_control_transfer.md R211). -/
def returnFromStack (s : State) : Except Fault State := do
  let (v, t) ← pop16 s
  .ok { t with pc := v }

/-! ## The shapes the families share -/

/-- An instruction of length `n` that only computes on registers: `NextPC(n)`, the effect, `PC <- n`. -/
def thenNext (s : State) (n : Nat) (effect : State → State) : Except Fault State := do
  let pc ← nextPC s n
  .ok { effect s with pc := pc }

/-- An instruction of length 1 with operand `M`: `NextPC(1)`, the read at `HL`, the effect, `PC <- n`. -/
def withM (s : State) (effect : State → Byte → State) : Except Fault State := do
  let pc ← nextPC s 1
  let v ← memRead s (addr s.hl)
  .ok { effect s v with pc := pc }

/-- An instruction of length `n` that stores one byte: `NextPC(n)`, the write, `PC <- n`. -/
def storeNext (s : State) (n : Nat) (x : Word) (v : Byte) : Except Fault State := do
  let pc ← nextPC s n
  let t ← memWrite s (addr x) v
  .ok { t with pc := pc }

end Sys2Proof.Machine
end

