-- ==== Sys2Proof/Machine/Control.lean ====
section
/-! DEFINITION. Control transfer instructions (spec/43_control_transfer.md). The operand bytes are fetched before a
meaning runs, whether or not its condition holds (30_encoding.md R86). -/

namespace Sys2Proof.Machine

/-- A conditional jump: `NextPC(3)` is computed only when it is not taken (43_control_transfer.md R202). -/
def jumpIf (cond : Cond) (a : Word) (s : State) : Except Fault State :=
  if s.flags.holds cond then .ok { s with pc := a } else thenNext s 3 id

/-- A call: the return address is `NextPC(3)` (43_control_transfer.md R210). -/
def callTo (a : Word) (s : State) : Except Fault State := do
  let n ← nextPC s 3
  let t ← push16 s n
  .ok { t with pc := a }

/-- A conditional call: `NextPC(3)` is computed before the condition is looked at (43_control_transfer.md R220). -/
def callIf (cond : Cond) (a : Word) (s : State) : Except Fault State := do
  let n ← nextPC s 3
  if s.flags.holds cond then do
    let t ← push16 s n
    .ok { t with pc := a }
  else .ok { s with pc := n }

/-- A conditional return: `NextPC(1)` only when it is not taken (43_control_transfer.md R212). -/
def returnIf (cond : Cond) (s : State) : Except Fault State :=
  if s.flags.holds cond then returnFromStack s else thenNext s 1 id

/-- R201 JMP a16. -/
def execJmp (a : Word) (s : State) : Host.Outcome State Fault Refusal :=
  settle s (.ok { s with pc := a })

/-- R202 JNZ a16. -/
def execJnz (a : Word) (s : State) : Host.Outcome State Fault Refusal :=
  settle s (jumpIf .nz a s)

/-- R203 JZ a16. -/
def execJz (a : Word) (s : State) : Host.Outcome State Fault Refusal :=
  settle s (jumpIf .z a s)

/-- R204 JNC a16. -/
def execJnc (a : Word) (s : State) : Host.Outcome State Fault Refusal :=
  settle s (jumpIf .nc a s)

/-- R205 JC a16. -/
def execJc (a : Word) (s : State) : Host.Outcome State Fault Refusal :=
  settle s (jumpIf .c a s)

/-- R206 JPO a16. -/
def execJpo (a : Word) (s : State) : Host.Outcome State Fault Refusal :=
  settle s (jumpIf .po a s)

/-- R207 JPE a16. -/
def execJpe (a : Word) (s : State) : Host.Outcome State Fault Refusal :=
  settle s (jumpIf .pe a s)

/-- R208 JP a16. -/
def execJp (a : Word) (s : State) : Host.Outcome State Fault Refusal :=
  settle s (jumpIf .p a s)

/-- R209 JM a16. -/
def execJm (a : Word) (s : State) : Host.Outcome State Fault Refusal :=
  settle s (jumpIf .m a s)

/-- R210 CALL a16. -/
def execCall (a : Word) (s : State) : Host.Outcome State Fault Refusal :=
  settle s (callTo a s)

/-- R211 RET. -/
def execRet (s : State) : Host.Outcome State Fault Refusal :=
  settle s (returnFromStack s)

/-- R212 RNZ. -/
def execRnz (s : State) : Host.Outcome State Fault Refusal :=
  settle s (returnIf .nz s)

/-- R213 RZ. -/
def execRz (s : State) : Host.Outcome State Fault Refusal :=
  settle s (returnIf .z s)

/-- R214 RNC. -/
def execRnc (s : State) : Host.Outcome State Fault Refusal :=
  settle s (returnIf .nc s)

/-- R215 RC. -/
def execRc (s : State) : Host.Outcome State Fault Refusal :=
  settle s (returnIf .c s)

/-- R216 RPO. -/
def execRpo (s : State) : Host.Outcome State Fault Refusal :=
  settle s (returnIf .po s)

/-- R217 RPE. -/
def execRpe (s : State) : Host.Outcome State Fault Refusal :=
  settle s (returnIf .pe s)

/-- R218 RP. -/
def execRp (s : State) : Host.Outcome State Fault Refusal :=
  settle s (returnIf .p s)

/-- R219 RM. -/
def execRm (s : State) : Host.Outcome State Fault Refusal :=
  settle s (returnIf .m s)

/-- R220 CNZ a16. -/
def execCnz (a : Word) (s : State) : Host.Outcome State Fault Refusal :=
  settle s (callIf .nz a s)

/-- R221 CZ a16. -/
def execCz (a : Word) (s : State) : Host.Outcome State Fault Refusal :=
  settle s (callIf .z a s)

/-- R222 CNC a16. -/
def execCnc (a : Word) (s : State) : Host.Outcome State Fault Refusal :=
  settle s (callIf .nc a s)

/-- R223 CC a16. -/
def execCc (a : Word) (s : State) : Host.Outcome State Fault Refusal :=
  settle s (callIf .c a s)

/-- R224 CPO a16. -/
def execCpo (a : Word) (s : State) : Host.Outcome State Fault Refusal :=
  settle s (callIf .po a s)

/-- R225 CPE a16. -/
def execCpe (a : Word) (s : State) : Host.Outcome State Fault Refusal :=
  settle s (callIf .pe a s)

/-- R226 CP a16. -/
def execCp (a : Word) (s : State) : Host.Outcome State Fault Refusal :=
  settle s (callIf .p a s)

/-- R227 CM a16. -/
def execCm (a : Word) (s : State) : Host.Outcome State Fault Refusal :=
  settle s (callIf .m a s)

/-- R228 RST n: pushes `NextPC(1)`; `IE` stays. -/
def execRst (n : BitVec 3) (s : State) : Host.Outcome State Fault Refusal :=
  settle s (do
    let ret ← nextPC s 1
    let t ← push16 s ret
    .ok { t with pc := entryAddress n })

/-- R229 PCHL: no fault of its own. -/
def execPchl (s : State) : Host.Outcome State Fault Refusal :=
  settle s (.ok { s with pc := s.hl })

end Sys2Proof.Machine
end

