-- ==== Sys2Proof/Machine/Io.lean ====
section
/-! DEFINITION. Port I/O, interrupt enable and disable, NOP (spec/45_io_and_control.md), and the absent opcodes
(spec/30_encoding.md R91). -/

namespace Sys2Proof.Machine

/-- R265 IN d8: every port is modelled and reads 0. -/
def execInp (_port : Byte) (s : State) : Host.Outcome State Fault Refusal :=
  settle s (thenNext s 2 (fun s => { s with a := 0 }))

/-- R266 OUT d8: consumes its operand byte, no effect but `PC`. -/
def execOut (_port : Byte) (s : State) : Host.Outcome State Fault Refusal :=
  settle s (thenNext s 2 id)

/-- R267 EI: `IE` is 1 as soon as the step ends. -/
def execEi (s : State) : Host.Outcome State Fault Refusal :=
  settle s (thenNext s 1 (fun s => { s with ie := true }))

/-- R268 DI. -/
def execDi (s : State) : Host.Outcome State Fault Refusal :=
  settle s (thenNext s 1 (fun s => { s with ie := false }))

/-- R269 NOP. -/
def execNop (s : State) : Host.Outcome State Fault Refusal :=
  settle s (thenNext s 1 id)

/-- 30_encoding.md R91: the step raises `UnimplementedOpcode` with the byte; `PC` keeps its address. -/
def execAbsent (op : Byte) (s : State) : Host.Outcome State Fault Refusal :=
  settle s (.error (.unimplementedOpcode op))

/-- 30_encoding.md R91, 45_io_and_control.md section 3: there is no halt instruction. -/
def execAbsentHlt (s : State) : Host.Outcome State Fault Refusal :=
  settle s (.error (.unimplementedOpcode 0x76))

end Sys2Proof.Machine
end

