-- ==== Sys2Proof/Machine/Loads.lean ====
section
/-! DEFINITION. Immediate loads and register, memory moves (spec/40_loads_and_moves.md). -/

namespace Sys2Proof.Machine

/-- R110 MVI r,d8. -/
def execMviR (r : Reg) (v : Byte) (s : State) : Host.Outcome State Fault Refusal :=
  settle s (thenNext s 2 (fun s => s.setReg r v))

/-- R111 MVI M,d8. -/
def execMviM (v : Byte) (s : State) : Host.Outcome State Fault Refusal :=
  settle s (storeNext s 2 s.hl v)

/-- R112 LXI rp,d16. -/
def execLxi (q : Pair) (v : Word) (s : State) : Host.Outcome State Fault Refusal :=
  settle s (thenNext s 3 (fun s => s.setPair q v))

/-- R113 LXI SP,d16. -/
def execLxiSp (v : Word) (s : State) : Host.Outcome State Fault Refusal :=
  settle s (thenNext s 3 (fun s => { s with sp := v }))

/-- R114 MOV r,M: the address is formed before the register is written. -/
def execMovRM (r : Reg) (s : State) : Host.Outcome State Fault Refusal :=
  settle s (withM s (fun s v => s.setReg r v))

/-- R115 MOV M,r. -/
def execMovMR (r : Reg) (s : State) : Host.Outcome State Fault Refusal :=
  settle s (storeNext s 1 s.hl (s.reg r))

/-- R116 LDAX rp. -/
def execLdax (p : IndexPair) (s : State) : Host.Outcome State Fault Refusal :=
  settle s (do
    let pc ← nextPC s 1
    let v ← memRead s (addr (s.pair p.toPair))
    .ok { s with a := v, pc := pc })

/-- R117 STAX rp. -/
def execStax (p : IndexPair) (s : State) : Host.Outcome State Fault Refusal :=
  settle s (storeNext s 1 (s.pair p.toPair) s.a)

/-- R118 MOV r1,r2. -/
def execMovRR (r1 r2 : Reg) (s : State) : Host.Outcome State Fault Refusal :=
  settle s (thenNext s 1 (fun s => s.setReg r1 (s.reg r2)))

/-- R119 LDA a16. -/
def execLda (a : Word) (s : State) : Host.Outcome State Fault Refusal :=
  settle s (do
    let pc ← nextPC s 3
    let v ← memRead s (addr a)
    .ok { s with a := v, pc := pc })

/-- R120 STA a16. -/
def execSta (a : Word) (s : State) : Host.Outcome State Fault Refusal :=
  settle s (storeNext s 3 a s.a)

/-- R121 LHLD a16: `L` from `a16`, `H` from `a16 + 1`. -/
def execLhld (a : Word) (s : State) : Host.Outcome State Fault Refusal :=
  settle s (do
    let pc ← nextPC s 3
    let v ← memReadWord s (addr a)
    .ok { s.setPair .hl v with pc := pc })

/-- R122 SHLD a16: `L` to `a16`, `H` to `a16 + 1`. -/
def execShld (a : Word) (s : State) : Host.Outcome State Fault Refusal :=
  settle s (do
    let pc ← nextPC s 3
    let t ← memWriteWord s (addr a) s.hl
    .ok { t with pc := pc })

/-- R123 XCHG. -/
def execXchg (s : State) : Host.Outcome State Fault Refusal :=
  settle s (thenNext s 1 (fun s => (s.setPair .hl (s.pair .de)).setPair .de s.hl))

/-- R124 SPHL. -/
def execSphl (s : State) : Host.Outcome State Fault Refusal :=
  settle s (thenNext s 1 (fun s => { s with sp := s.hl }))

end Sys2Proof.Machine
end

