-- ==== Sys2Proof/Machine/Arith.lean ====
section
/-! DEFINITION. Arithmetic instructions (spec/41_arithmetic.md). -/

namespace Sys2Proof.Machine

/-- `A <- A + v + cin`, with Z, S, P from the result and CY from the sum; AC stays (41_arithmetic.md R141 to R144,
10_state.md R34). -/
def State.addA (s : State) (v : Byte) (cin : Bool) : State :=
  let r := addByte s.a v cin
  { s with a := r.1, flags := (s.flags.setZSP r.1).setCY r.2 }

/-- `A <- A - v - cin`, with Z, S, P from the result and CY from the comparison of `A` with `v`; AC stays
(41_arithmetic.md R145 to R148, 10_state.md R34). -/
def State.subA (s : State) (v : Byte) (cin : Bool) : State :=
  let r := subByte s.a v cin
  { s with a := r.1, flags := (s.flags.setZSP r.1).setCY r.2 }

/-- `HL <- HL + v` and CY; no other flag (41_arithmetic.md R153, R154). -/
def State.dadHL (s : State) (v : Word) : State :=
  let r := addWord s.hl v
  { s.setPair .hl r.1 with flags := s.flags.setCY r.2 }

/-- INR M and DCR M: `NextPC(1)`, the read at `HL`, the write of the changed byte there, Z, S, P from it
(41_arithmetic.md R150, R152). -/
def updateM (s : State) (change : Byte → Byte) : Except Fault State := do
  let pc ← nextPC s 1
  let v ← memRead s (addr s.hl)
  let t ← memWrite s (addr s.hl) (change v)
  .ok { t with flags := s.flags.setZSP (change v), pc := pc }

/-- INR r and DCR r: the register changes and Z, S, P come from the result; CY and AC stay
(41_arithmetic.md R149, R151). -/
def State.updateReg (s : State) (r : Reg) (change : Byte → Byte) : State :=
  { s.setReg r (change (s.reg r)) with flags := s.flags.setZSP (change (s.reg r)) }

/-- R141 ADD r. -/
def execAddR (r : Reg) (s : State) : Host.Outcome State Fault Refusal :=
  settle s (thenNext s 1 (fun s => s.addA (s.reg r) false))

/-- R142 ADD M. -/
def execAddM (s : State) : Host.Outcome State Fault Refusal :=
  settle s (withM s (fun s v => s.addA v false))

/-- R143 ADC r. -/
def execAdcR (r : Reg) (s : State) : Host.Outcome State Fault Refusal :=
  settle s (thenNext s 1 (fun s => s.addA (s.reg r) s.flags.cy))

/-- R144 ADC M. -/
def execAdcM (s : State) : Host.Outcome State Fault Refusal :=
  settle s (withM s (fun s v => s.addA v s.flags.cy))

/-- R145 SUB r. -/
def execSubR (r : Reg) (s : State) : Host.Outcome State Fault Refusal :=
  settle s (thenNext s 1 (fun s => s.subA (s.reg r) false))

/-- R146 SUB M. -/
def execSubM (s : State) : Host.Outcome State Fault Refusal :=
  settle s (withM s (fun s v => s.subA v false))

/-- R147 SBB r. -/
def execSbbR (r : Reg) (s : State) : Host.Outcome State Fault Refusal :=
  settle s (thenNext s 1 (fun s => s.subA (s.reg r) s.flags.cy))

/-- R148 SBB M. -/
def execSbbM (s : State) : Host.Outcome State Fault Refusal :=
  settle s (withM s (fun s v => s.subA v s.flags.cy))

/-- R149 INR r. -/
def execInrR (r : Reg) (s : State) : Host.Outcome State Fault Refusal :=
  settle s (thenNext s 1 (fun s => s.updateReg r (fun v => v + 1)))

/-- R150 INR M. -/
def execInrM (s : State) : Host.Outcome State Fault Refusal :=
  settle s (updateM s (fun v => v + 1))

/-- R151 DCR r. -/
def execDcrR (r : Reg) (s : State) : Host.Outcome State Fault Refusal :=
  settle s (thenNext s 1 (fun s => s.updateReg r (fun v => v - 1)))

/-- R152 DCR M. -/
def execDcrM (s : State) : Host.Outcome State Fault Refusal :=
  settle s (updateM s (fun v => v - 1))

/-- R153 DAD rp. -/
def execDad (q : Pair) (s : State) : Host.Outcome State Fault Refusal :=
  settle s (thenNext s 1 (fun s => s.dadHL (s.pair q)))

/-- R154 DAD SP. -/
def execDadSp (s : State) : Host.Outcome State Fault Refusal :=
  settle s (thenNext s 1 (fun s => s.dadHL s.sp))

/-- R155 ADI d8. -/
def execAdi (v : Byte) (s : State) : Host.Outcome State Fault Refusal :=
  settle s (thenNext s 2 (fun s => s.addA v false))

/-- R156 ACI d8. -/
def execAci (v : Byte) (s : State) : Host.Outcome State Fault Refusal :=
  settle s (thenNext s 2 (fun s => s.addA v s.flags.cy))

/-- R157 SUI d8. -/
def execSui (v : Byte) (s : State) : Host.Outcome State Fault Refusal :=
  settle s (thenNext s 2 (fun s => s.subA v false))

/-- R158 SBI d8. -/
def execSbi (v : Byte) (s : State) : Host.Outcome State Fault Refusal :=
  settle s (thenNext s 2 (fun s => s.subA v s.flags.cy))

/-- R159 INX rp: register arithmetic, modulo 65536. -/
def execInx (q : Pair) (s : State) : Host.Outcome State Fault Refusal :=
  settle s (thenNext s 1 (fun s => s.setPair q (s.pair q + 1)))

/-- R160 INX SP: data arithmetic, no stack address. -/
def execInxSp (s : State) : Host.Outcome State Fault Refusal :=
  settle s (thenNext s 1 (fun s => { s with sp := s.sp + 1 }))

/-- R161 DCX rp: register arithmetic, modulo 65536. -/
def execDcx (q : Pair) (s : State) : Host.Outcome State Fault Refusal :=
  settle s (thenNext s 1 (fun s => s.setPair q (s.pair q - 1)))

/-- R162 DCX SP: data arithmetic, no stack address. -/
def execDcxSp (s : State) : Host.Outcome State Fault Refusal :=
  settle s (thenNext s 1 (fun s => { s with sp := s.sp - 1 }))

/-- R163 DAA: reads AC and CY, writes Z, S, P, CY. -/
def execDaa (s : State) : Host.Outcome State Fault Refusal :=
  settle s (thenNext s 1 (fun s =>
    let r := daaByte s.a s.flags.cy s.flags.ac
    { s with a := r.1, flags := (s.flags.setZSP r.1).setCY r.2 }))

end Sys2Proof.Machine
end

