-- ==== Sys2Proof/Machine/Logic.lean ====
section
/-! DEFINITION. Logical, compare, rotate and flag instructions (spec/42_logical_and_compare.md). -/

namespace Sys2Proof.Machine

/-- A logical result: `A <- r`, CY and AC cleared, Z, S, P from the result (42_logical_and_compare.md R170 to R175). -/
def State.logicA (s : State) (r : Byte) : State :=
  { s with a := r, flags := ((s.flags.setCY false).setAC false).setZSP r }

/-- A compare: the flags of `A - v`, which is stored nowhere (42_logical_and_compare.md R176 to R178). -/
def State.cmpA (s : State) (v : Byte) : State :=
  { s with flags := (s.subA v false).flags }

/-- A rotate: `A` and CY alone (42_logical_and_compare.md R182 to R185). -/
def State.rotateA (s : State) (r : Byte) (cy : Bool) : State :=
  { s with a := r, flags := s.flags.setCY cy }

/-- R170 ANA r. -/
def execAnaR (r : Reg) (s : State) : Host.Outcome State Fault Refusal :=
  settle s (thenNext s 1 (fun s => s.logicA (s.a &&& s.reg r)))

/-- R171 ANA M. -/
def execAnaM (s : State) : Host.Outcome State Fault Refusal :=
  settle s (withM s (fun s v => s.logicA (s.a &&& v)))

/-- R172 XRA r. -/
def execXraR (r : Reg) (s : State) : Host.Outcome State Fault Refusal :=
  settle s (thenNext s 1 (fun s => s.logicA (s.a ^^^ s.reg r)))

/-- R173 XRA M. -/
def execXraM (s : State) : Host.Outcome State Fault Refusal :=
  settle s (withM s (fun s v => s.logicA (s.a ^^^ v)))

/-- R174 ORA r. -/
def execOraR (r : Reg) (s : State) : Host.Outcome State Fault Refusal :=
  settle s (thenNext s 1 (fun s => s.logicA (s.a ||| s.reg r)))

/-- R175 ORA M. -/
def execOraM (s : State) : Host.Outcome State Fault Refusal :=
  settle s (withM s (fun s v => s.logicA (s.a ||| v)))

/-- R176 CMP r. -/
def execCmpR (r : Reg) (s : State) : Host.Outcome State Fault Refusal :=
  settle s (thenNext s 1 (fun s => s.cmpA (s.reg r)))

/-- R177 CMP M. -/
def execCmpM (s : State) : Host.Outcome State Fault Refusal :=
  settle s (withM s (fun s v => s.cmpA v))

/-- R178 CPI d8. -/
def execCpi (v : Byte) (s : State) : Host.Outcome State Fault Refusal :=
  settle s (thenNext s 2 (fun s => s.cmpA v))

/-- R179 ANI d8. -/
def execAni (v : Byte) (s : State) : Host.Outcome State Fault Refusal :=
  settle s (thenNext s 2 (fun s => s.logicA (s.a &&& v)))

/-- R180 XRI d8. -/
def execXri (v : Byte) (s : State) : Host.Outcome State Fault Refusal :=
  settle s (thenNext s 2 (fun s => s.logicA (s.a ^^^ v)))

/-- R181 ORI d8. -/
def execOri (v : Byte) (s : State) : Host.Outcome State Fault Refusal :=
  settle s (thenNext s 2 (fun s => s.logicA (s.a ||| v)))

/-- R182 RLC: bit 7 goes to bit 0 and to CY. -/
def execRlc (s : State) : Host.Outcome State Fault Refusal :=
  settle s (thenNext s 1 (fun s => s.rotateA (BitVec.ofNat 8 (s.a.toNat * 2 % 256 + s.a.toNat / 128)) (s.a.getLsbD 7)))

/-- R183 RRC: bit 0 goes to bit 7 and to CY. -/
def execRrc (s : State) : Host.Outcome State Fault Refusal :=
  settle s (thenNext s 1 (fun s => s.rotateA (BitVec.ofNat 8 (s.a.toNat / 2 + s.a.toNat % 2 * 128)) (s.a.getLsbD 0)))

/-- R184 RAL: CY goes to bit 0, bit 7 to CY. -/
def execRal (s : State) : Host.Outcome State Fault Refusal :=
  settle s (thenNext s 1 (fun s => s.rotateA (BitVec.ofNat 8 (s.a.toNat * 2 % 256 + bit s.flags.cy)) (s.a.getLsbD 7)))

/-- R185 RAR: CY goes to bit 7, bit 0 to CY. -/
def execRar (s : State) : Host.Outcome State Fault Refusal :=
  settle s (thenNext s 1 (fun s => s.rotateA (BitVec.ofNat 8 (s.a.toNat / 2 + bit s.flags.cy * 128)) (s.a.getLsbD 0)))

/-- R186 CMA: no flag. -/
def execCma (s : State) : Host.Outcome State Fault Refusal :=
  settle s (thenNext s 1 (fun s => { s with a := ~~~s.a }))

/-- R187 STC. -/
def execStc (s : State) : Host.Outcome State Fault Refusal :=
  settle s (thenNext s 1 (fun s => { s with flags := s.flags.setCY true }))

/-- R188 CMC. -/
def execCmc (s : State) : Host.Outcome State Fault Refusal :=
  settle s (thenNext s 1 (fun s => { s with flags := s.flags.setCY (!s.flags.cy) }))

end Sys2Proof.Machine
end

