-- ==== Sys2Proof/Machine/Stack.lean ====
section
/-! DEFINITION. PUSH, POP and XTHL (spec/44_stack.md). -/

namespace Sys2Proof.Machine

/-- PUSH of a word: `NextPC(1)`, `Push16`, `PC <- n` (44_stack.md R251, R252). -/
def pushNext (v : Word) (s : State) : Except Fault State := do
  let pc ← nextPC s 1
  let t ← push16 s v
  .ok { t with pc := pc }

/-- POP of a word: `NextPC(1)`, `Pop16`, the word to its registers, `PC <- n` (44_stack.md R253, R254). -/
def popNext (s : State) (put : State → Word → State) : Except Fault State := do
  let pc ← nextPC s 1
  let (v, t) ← pop16 s
  .ok { put t v with pc := pc }

/-- R251 PUSH rp. -/
def execPush (q : Pair) (s : State) : Host.Outcome State Fault Refusal :=
  settle s (pushNext (s.pair q) s)

/-- R252 PUSH PSW: `A` is the high byte, the flag byte the low one. -/
def execPushPsw (s : State) : Host.Outcome State Fault Refusal :=
  settle s (pushNext (joinBytes s.a s.flags.toByte) s)

/-- R253 POP rp. -/
def execPop (q : Pair) (s : State) : Host.Outcome State Fault Refusal :=
  settle s (popNext s (fun t v => t.setPair q v))

/-- R254 POP PSW: all five flags come from the popped byte. -/
def execPopPsw (s : State) : Host.Outcome State Fault Refusal :=
  settle s (popNext s (fun t v => { t with a := hiByte v, flags := Flags.ofByte (loByte v) }))

/-- R256 XTHL: exchanges `HL` with the word at `SP`; `SP` stays, so its range test does not apply. -/
def execXthl (s : State) : Host.Outcome State Fault Refusal :=
  settle s (do
    let pc ← nextPC s 1
    let v ← memReadWord s (addr s.sp)
    let t ← memWriteWord s (addr s.sp) s.hl
    .ok { t.setPair .hl v with pc := pc })

end Sys2Proof.Machine
end

