-- ==== Sys2Proof/Machine/Dispatch.lean ====
section
/-! DEFINITION. One arm per constructor of Instr, each one direct call of its meaning. -/

namespace Sys2Proof.Machine

def exec (i : Instr) (s : State) : Host.Outcome State Fault Refusal :=
  match i with
  | .mviR r v => Sys2Proof.Machine.execMviR r v s
  | .mviM v => Sys2Proof.Machine.execMviM v s
  | .lxi q v => Sys2Proof.Machine.execLxi q v s
  | .lxiSp v => Sys2Proof.Machine.execLxiSp v s
  | .movRM r => Sys2Proof.Machine.execMovRM r s
  | .movMR r => Sys2Proof.Machine.execMovMR r s
  | .ldax p => Sys2Proof.Machine.execLdax p s
  | .stax p => Sys2Proof.Machine.execStax p s
  | .movRR r1 r2 => Sys2Proof.Machine.execMovRR r1 r2 s
  | .lda a => Sys2Proof.Machine.execLda a s
  | .sta a => Sys2Proof.Machine.execSta a s
  | .lhld a => Sys2Proof.Machine.execLhld a s
  | .shld a => Sys2Proof.Machine.execShld a s
  | .xchg => Sys2Proof.Machine.execXchg s
  | .sphl => Sys2Proof.Machine.execSphl s
  | .addR r => Sys2Proof.Machine.execAddR r s
  | .addM => Sys2Proof.Machine.execAddM s
  | .adcR r => Sys2Proof.Machine.execAdcR r s
  | .adcM => Sys2Proof.Machine.execAdcM s
  | .subR r => Sys2Proof.Machine.execSubR r s
  | .subM => Sys2Proof.Machine.execSubM s
  | .sbbR r => Sys2Proof.Machine.execSbbR r s
  | .sbbM => Sys2Proof.Machine.execSbbM s
  | .inrR r => Sys2Proof.Machine.execInrR r s
  | .inrM => Sys2Proof.Machine.execInrM s
  | .dcrR r => Sys2Proof.Machine.execDcrR r s
  | .dcrM => Sys2Proof.Machine.execDcrM s
  | .dad q => Sys2Proof.Machine.execDad q s
  | .dadSp => Sys2Proof.Machine.execDadSp s
  | .adi v => Sys2Proof.Machine.execAdi v s
  | .aci v => Sys2Proof.Machine.execAci v s
  | .sui v => Sys2Proof.Machine.execSui v s
  | .sbi v => Sys2Proof.Machine.execSbi v s
  | .inx q => Sys2Proof.Machine.execInx q s
  | .inxSp => Sys2Proof.Machine.execInxSp s
  | .dcx q => Sys2Proof.Machine.execDcx q s
  | .dcxSp => Sys2Proof.Machine.execDcxSp s
  | .daa => Sys2Proof.Machine.execDaa s
  | .anaR r => Sys2Proof.Machine.execAnaR r s
  | .anaM => Sys2Proof.Machine.execAnaM s
  | .xraR r => Sys2Proof.Machine.execXraR r s
  | .xraM => Sys2Proof.Machine.execXraM s
  | .oraR r => Sys2Proof.Machine.execOraR r s
  | .oraM => Sys2Proof.Machine.execOraM s
  | .cmpR r => Sys2Proof.Machine.execCmpR r s
  | .cmpM => Sys2Proof.Machine.execCmpM s
  | .cpi v => Sys2Proof.Machine.execCpi v s
  | .ani v => Sys2Proof.Machine.execAni v s
  | .xri v => Sys2Proof.Machine.execXri v s
  | .ori v => Sys2Proof.Machine.execOri v s
  | .rlc => Sys2Proof.Machine.execRlc s
  | .rrc => Sys2Proof.Machine.execRrc s
  | .ral => Sys2Proof.Machine.execRal s
  | .rar => Sys2Proof.Machine.execRar s
  | .cma => Sys2Proof.Machine.execCma s
  | .stc => Sys2Proof.Machine.execStc s
  | .cmc => Sys2Proof.Machine.execCmc s
  | .jmp a => Sys2Proof.Machine.execJmp a s
  | .jnz a => Sys2Proof.Machine.execJnz a s
  | .jz a => Sys2Proof.Machine.execJz a s
  | .jnc a => Sys2Proof.Machine.execJnc a s
  | .jc a => Sys2Proof.Machine.execJc a s
  | .jpo a => Sys2Proof.Machine.execJpo a s
  | .jpe a => Sys2Proof.Machine.execJpe a s
  | .jp a => Sys2Proof.Machine.execJp a s
  | .jm a => Sys2Proof.Machine.execJm a s
  | .call a => Sys2Proof.Machine.execCall a s
  | .ret => Sys2Proof.Machine.execRet s
  | .rnz => Sys2Proof.Machine.execRnz s
  | .rz => Sys2Proof.Machine.execRz s
  | .rnc => Sys2Proof.Machine.execRnc s
  | .rc => Sys2Proof.Machine.execRc s
  | .rpo => Sys2Proof.Machine.execRpo s
  | .rpe => Sys2Proof.Machine.execRpe s
  | .rp => Sys2Proof.Machine.execRp s
  | .rm => Sys2Proof.Machine.execRm s
  | .cnz a => Sys2Proof.Machine.execCnz a s
  | .cz a => Sys2Proof.Machine.execCz a s
  | .cnc a => Sys2Proof.Machine.execCnc a s
  | .cc a => Sys2Proof.Machine.execCc a s
  | .cpo a => Sys2Proof.Machine.execCpo a s
  | .cpe a => Sys2Proof.Machine.execCpe a s
  | .cp a => Sys2Proof.Machine.execCp a s
  | .cm a => Sys2Proof.Machine.execCm a s
  | .rst n => Sys2Proof.Machine.execRst n s
  | .pchl => Sys2Proof.Machine.execPchl s
  | .push q => Sys2Proof.Machine.execPush q s
  | .pushPsw => Sys2Proof.Machine.execPushPsw s
  | .pop q => Sys2Proof.Machine.execPop q s
  | .popPsw => Sys2Proof.Machine.execPopPsw s
  | .xthl => Sys2Proof.Machine.execXthl s
  | .inp port => Sys2Proof.Machine.execInp port s
  | .out port => Sys2Proof.Machine.execOut port s
  | .ei => Sys2Proof.Machine.execEi s
  | .di => Sys2Proof.Machine.execDi s
  | .nop => Sys2Proof.Machine.execNop s
  | .absent op => Sys2Proof.Machine.execAbsent op s
  | .absentHlt => Sys2Proof.Machine.execAbsentHlt s

end Sys2Proof.Machine
end

