-- ==== Sys2Proof/Machine/Iterate.lean ====
section
/-! DEFINITION. The parts of one iteration (spec/60_exceptions.md R290): the fetch, the inputs of a poll, the poll, and
the reset input. -/

namespace Sys2Proof.Machine

/-! ## Part 1: fetch and decode -/

/-- `op ∈ TABLE` for the handler table these parameters stand for (30_encoding.md R88, R89): every `TABLE_DOC` byte, a
completion byte when it is listed, none of the thirteen absent bytes. -/
def Params.inTable (p : Params) (op : Byte) : Bool :=
  match tierOf op with
  | .doc => true
  | .completion => p.extra.contains op
  | .absent => false

/-- The opcode byte of the next instruction (30_encoding.md R88). -/
def opcodeAt (s : State) : Byte := s.mem.read s.pc.toNat

/-- Reads the operand bytes a template calls for, lower address first (30_encoding.md R86, 00_scope.md R14). -/
def fetchOperands (s : State) : Template → Except Fault Instr
  | .plain i => .ok i
  | .imm8 f => do
    let v ← memRead s (addr s.pc + 1)
    .ok (f v)
  | .imm16 f => do
    let v ← memReadWord s (addr s.pc + 1)
    .ok (f v)

/-- Decode, the first part of every step (30_encoding.md R88): an opcode with no handler raises before any operand byte
is read. -/
def fetch (s : State) : Except Fault Instr :=
  if s.params.inTable (opcodeAt s) then fetchOperands s (decodeOpcode (opcodeAt s))
  else .error (.unimplementedOpcode (opcodeAt s))

/-! ## Part 2: the poll -/

/-- The inputs of one poll. -/
structure PollInputs where
  now : Nat
  vector : BitVec 3
  deriving DecidableEq, Repr

/-- The inputs the next poll samples: the listed sample if there is one, else free values (60_exceptions.md R286, R296).
Time is listed as what has elapsed since the poll before, so `now` never decreases. -/
def Env.inputs (e : Env) : PollInputs :=
  match e.script with
  | .sample elapsed vector :: _ => { now := e.now + elapsed, vector := vector }
  | _ => { now := e.now + Config.freeElapsed e.polls, vector := Config.freeVector e.polls }

/-- The outside world after that poll has sampled its inputs. -/
def Env.advance (e : Env) : Env :=
  { now := e.inputs.now
    polls := e.polls + 1
    script :=
      match e.script with
      | .sample _ _ :: rest => rest
      | script => script }

/-- The poll condition: `IE` is set and `PERIOD` has elapsed since the last fire (60_exceptions.md R287). -/
def fires (s : State) (now : Nat) : Bool :=
  s.ie && decide (s.params.period ≤ now - s.lastFire)

/-- A poll (60_exceptions.md R287, R288, R291): nothing at all, or the interrupt entry; an entry that raises has no
effect but the fault. -/
def poll (s : State) (i : PollInputs) : State :=
  if fires s i.now then
    match enterInterrupt s i.vector i.now with
    | .ok t => t
    | .error f => s.raise f
  else s

/-- What follows an instruction (60_exceptions.md R290): a step that faulted is polled no more, any other is followed by
exactly one poll. -/
def afterStep (s : State) : State :=
  match s.fault with
  | some _ => s
  | none => poll { s with env := s.env.advance } s.env.inputs

/-- One iteration of a core that is neither FAULTED nor reset (60_exceptions.md R290): the instruction at `PC` runs, a
fault it raises is latched, and a step that did not fault is followed by one poll. -/
def iterate (s : State) : Host.Outcome State Fault Refusal :=
  match fetch s with
  | .error f => .next (s.raise f)
  | .ok i =>
    match exec i s with
    | .next t => .next (afterStep t)
    | .fault f => .fault f
    | .refused r => .refused r

/-! ## The reset input -/

/-- The script behind the first reset it lists. -/
def scriptAfterReset : List Input → Option (List Input)
  | [] => none
  | .reset :: rest => some rest
  | .sample _ _ :: rest => scriptAfterReset rest

/-- The script left when this step is a reset, `none` when it is not. A running core takes a reset when it is the next
input; a FAULTED core samples no inputs, so it takes the next reset the script lists (60_exceptions.md R283). -/
def resetDue (s : State) : Option (List Input) :=
  match s.fault with
  | some _ => scriptAfterReset s.env.script
  | none =>
    match s.env.script with
    | .reset :: rest => some rest
    | _ => none

/-! ## Placing a program -/

/-- Stores a byte at a natural address when memory has it. -/
def placeByte (m : Memory) (x : Nat) (v : Byte) : Memory :=
  if x < cap then m.write x v else m

/-- Stores a list of bytes at consecutive addresses, as the loader does (20_memory.md R68). -/
def placeBytes (m : Memory) (x : Nat) : List Byte → Memory
  | [] => m
  | v :: vs => placeBytes (placeByte m x v) (x + 1) vs

end Sys2Proof.Machine
end

