-- ==== Sys2Proof/Machine/Step.lean ====
section
/-! DEFINITION. One step of the machine: one iteration of spec/60_exceptions.md R290, or a reset. -/

namespace Sys2Proof.Machine

/-- One step: a due reset is applied (70_reset_and_hazards.md R320); a FAULTED core has no next state and answers its
fault (60_exceptions.md R283); any other core iterates once (R290). -/
def step (s : State) : Host.Outcome State Fault Refusal :=
  match resetDue s with
  | some rest => .next (s.applyReset rest)
  | none =>
    match s.fault with
    | some f => .fault f
    | none => iterate s

/-- The state with the instruction of a table word stored at `PC`, three bytes with every bit above `nbits` zero. A byte
that would lie outside memory is not stored. -/
def State.withFetchWord (s : State) (nbits w : Nat) : State :=
  { s with mem := placeBytes s.mem s.pc.toNat (tableWordBytes nbits w) }

end Sys2Proof.Machine
end

