-- ==== Sys2Proof/Machine/Asm.lean ====
section
/-! DEFINITION. Assembly text of an instruction (spec/30_encoding.md R93): the mnemonic padded to column 8, then the
operands. No rule of execution depends on it. The disassembler program that prints it is outside the block
(spec/00_scope.md R5). -/

namespace Sys2Proof

/-- One lowercase hexadecimal digit. -/
def hexDigit (n : Nat) : Char :=
  Char.ofNat (if n < 10 then 48 + n else 87 + n)

/-- A byte as two digits, `$` before them (the spec's decision D19). -/
def hexByte (v : Byte) : List Char :=
  ['$', hexDigit (v.toNat / 16), hexDigit (v.toNat % 16)]

/-- A 16-bit immediate, high-byte digits first, `$` before them (30_encoding.md R93). -/
def hexWord (v : Word) : List Char :=
  ['$', hexDigit (v.toNat / 4096), hexDigit (v.toNat / 256 % 16), hexDigit (v.toNat / 16 % 16),
    hexDigit (v.toNat % 16)]

/-- A register by its letter. -/
def Reg.text : Reg → List Char
  | .b => ['B']
  | .c => ['C']
  | .d => ['D']
  | .e => ['E']
  | .h => ['H']
  | .l => ['L']
  | .a => ['A']

/-- A pair by its high register (30_encoding.md R84). -/
def Pair.text : Pair → List Char
  | .bc => ['B']
  | .de => ['D']
  | .hl => ['H']

/-- The mnemonic and the operands in the order they are written. An absent opcode has the literal line `unknown`. -/
def Instr.textParts : Instr → List Char × List (List Char)
  | .mviR r v => (['M', 'V', 'I'], [r.text, hexByte v])
  | .mviM v => (['M', 'V', 'I'], [['M'], hexByte v])
  | .lxi q v => (['L', 'X', 'I'], [q.text, hexWord v])
  | .lxiSp v => (['L', 'X', 'I'], [['S', 'P'], hexWord v])
  | .movRM r => (['M', 'O', 'V'], [r.text, ['M']])
  | .movMR r => (['M', 'O', 'V'], [['M'], r.text])
  | .ldax p => (['L', 'D', 'A', 'X'], [p.toPair.text])
  | .stax p => (['S', 'T', 'A', 'X'], [p.toPair.text])
  | .movRR r1 r2 => (['M', 'O', 'V'], [r1.text, r2.text])
  | .lda a => (['L', 'D', 'A'], [hexWord a])
  | .sta a => (['S', 'T', 'A'], [hexWord a])
  | .lhld a => (['L', 'H', 'L', 'D'], [hexWord a])
  | .shld a => (['S', 'H', 'L', 'D'], [hexWord a])
  | .xchg => (['X', 'C', 'H', 'G'], [])
  | .sphl => (['S', 'P', 'H', 'L'], [])
  | .addR r => (['A', 'D', 'D'], [r.text])
  | .addM => (['A', 'D', 'D'], [['M']])
  | .adcR r => (['A', 'D', 'C'], [r.text])
  | .adcM => (['A', 'D', 'C'], [['M']])
  | .subR r => (['S', 'U', 'B'], [r.text])
  | .subM => (['S', 'U', 'B'], [['M']])
  | .sbbR r => (['S', 'B', 'B'], [r.text])
  | .sbbM => (['S', 'B', 'B'], [['M']])
  | .inrR r => (['I', 'N', 'R'], [r.text])
  | .inrM => (['I', 'N', 'R'], [['M']])
  | .dcrR r => (['D', 'C', 'R'], [r.text])
  | .dcrM => (['D', 'C', 'R'], [['M']])
  | .dad q => (['D', 'A', 'D'], [q.text])
  | .dadSp => (['D', 'A', 'D'], [['S', 'P']])
  | .adi v => (['A', 'D', 'I'], [hexByte v])
  | .aci v => (['A', 'C', 'I'], [hexByte v])
  | .sui v => (['S', 'U', 'I'], [hexByte v])
  | .sbi v => (['S', 'B', 'I'], [hexByte v])
  | .inx q => (['I', 'N', 'X'], [q.text])
  | .inxSp => (['I', 'N', 'X'], [['S', 'P']])
  | .dcx q => (['D', 'C', 'X'], [q.text])
  | .dcxSp => (['D', 'C', 'X'], [['S', 'P']])
  | .daa => (['D', 'A', 'A'], [])
  | .anaR r => (['A', 'N', 'A'], [r.text])
  | .anaM => (['A', 'N', 'A'], [['M']])
  | .xraR r => (['X', 'R', 'A'], [r.text])
  | .xraM => (['X', 'R', 'A'], [['M']])
  | .oraR r => (['O', 'R', 'A'], [r.text])
  | .oraM => (['O', 'R', 'A'], [['M']])
  | .cmpR r => (['C', 'M', 'P'], [r.text])
  | .cmpM => (['C', 'M', 'P'], [['M']])
  | .cpi v => (['C', 'P', 'I'], [hexByte v])
  | .ani v => (['A', 'N', 'I'], [hexByte v])
  | .xri v => (['X', 'R', 'I'], [hexByte v])
  | .ori v => (['O', 'R', 'I'], [hexByte v])
  | .rlc => (['R', 'L', 'C'], [])
  | .rrc => (['R', 'R', 'C'], [])
  | .ral => (['R', 'A', 'L'], [])
  | .rar => (['R', 'A', 'R'], [])
  | .cma => (['C', 'M', 'A'], [])
  | .stc => (['S', 'T', 'C'], [])
  | .cmc => (['C', 'M', 'C'], [])
  | .jmp a => (['J', 'M', 'P'], [hexWord a])
  | .jnz a => (['J', 'N', 'Z'], [hexWord a])
  | .jz a => (['J', 'Z'], [hexWord a])
  | .jnc a => (['J', 'N', 'C'], [hexWord a])
  | .jc a => (['J', 'C'], [hexWord a])
  | .jpo a => (['J', 'P', 'O'], [hexWord a])
  | .jpe a => (['J', 'P', 'E'], [hexWord a])
  | .jp a => (['J', 'P'], [hexWord a])
  | .jm a => (['J', 'M'], [hexWord a])
  | .call a => (['C', 'A', 'L', 'L'], [hexWord a])
  | .ret => (['R', 'E', 'T'], [])
  | .rnz => (['R', 'N', 'Z'], [])
  | .rz => (['R', 'Z'], [])
  | .rnc => (['R', 'N', 'C'], [])
  | .rc => (['R', 'C'], [])
  | .rpo => (['R', 'P', 'O'], [])
  | .rpe => (['R', 'P', 'E'], [])
  | .rp => (['R', 'P'], [])
  | .rm => (['R', 'M'], [])
  | .cnz a => (['C', 'N', 'Z'], [hexWord a])
  | .cz a => (['C', 'Z'], [hexWord a])
  | .cnc a => (['C', 'N', 'C'], [hexWord a])
  | .cc a => (['C', 'C'], [hexWord a])
  | .cpo a => (['C', 'P', 'O'], [hexWord a])
  | .cpe a => (['C', 'P', 'E'], [hexWord a])
  | .cp a => (['C', 'P'], [hexWord a])
  | .cm a => (['C', 'M'], [hexWord a])
  | .rst n => (['R', 'S', 'T'], [[hexDigit n.toNat]])
  | .pchl => (['P', 'C', 'H', 'L'], [])
  | .push q => (['P', 'U', 'S', 'H'], [q.text])
  | .pushPsw => (['P', 'U', 'S', 'H'], [['P', 'S', 'W']])
  | .pop q => (['P', 'O', 'P'], [q.text])
  | .popPsw => (['P', 'O', 'P'], [['P', 'S', 'W']])
  | .xthl => (['X', 'T', 'H', 'L'], [])
  | .inp port => (['I', 'N'], [hexByte port])
  | .out port => (['O', 'U', 'T'], [hexByte port])
  | .ei => (['E', 'I'], [])
  | .di => (['D', 'I'], [])
  | .nop => (['N', 'O', 'P'], [])
  | .absent _ => (['u', 'n', 'k', 'n', 'o', 'w', 'n'], [])
  | .absentHlt => (['u', 'n', 'k', 'n', 'o', 'w', 'n'], [])

/-- The operands, separated by a comma with no space. -/
def joinOperands : List (List Char) → List Char
  | [] => []
  | [x] => x
  | x :: y :: zs => x ++ (',' :: joinOperands (y :: zs))

/-- The line of an instruction: the mnemonic, padded with spaces to column 8 when operands follow (30_encoding.md
R93, R94). -/
def Instr.text (i : Instr) : List Char :=
  match i.textParts with
  | (m, []) => m
  | (m, ops) => m ++ List.replicate (8 - m.length) ' ' ++ joinOperands ops

end Sys2Proof
end

