-- ==== Sys2Proof/Machine/Observe.lean ====
section
/-! DEFINITION. The outputs of the block (spec/60_exceptions.md R302): pure reads of the state that no instruction
observes. -/

namespace Sys2Proof.Machine

/-- The read-only view of the state offered after each iteration (10_state.md R43): a set of named values, without
`last_fire`, `fault` and `mem`, and in no stated order. -/
structure Snapshot where
  a : Byte
  b : Byte
  c : Byte
  d : Byte
  e : Byte
  h : Byte
  l : Byte
  pc : Word
  sp : Word
  ie : Bool
  flags : Flags
  deriving DecidableEq, Repr

/-- The snapshot output (10_state.md R43). -/
def State.snapshot (s : State) : Snapshot :=
  { a := s.a, b := s.b, c := s.c, d := s.d, e := s.e, h := s.h, l := s.l, pc := s.pc, sp := s.sp, ie := s.ie,
    flags := s.flags }

/-- The fault output: the latched value for as long as the core is FAULTED (60_exceptions.md R283, R302). -/
def State.faultOutput (s : State) : Option Fault := s.fault

/-- The memory read port, the frame-buffer export: the bytes of a range of `mem`, verbatim (20_memory.md R68,
60_exceptions.md R302). DESIGN CHOICE, log entry 11: the spec speaks of ranges of `mem` only; a place of the request at or
above `CAP`, where `mem` has no byte, is answered 0x00, what an unlisted address reads as. -/
def State.exportRange (s : State) (base n : Nat) : List Byte :=
  (List.range n).map (fun i => s.mem.read (base + i))

end Sys2Proof.Machine
end

