-- ==== Sys2Proof/Safety.lean ====
section
/-! DEFINITION. The terms claims are stated in: the invariant of the machine, the results the rules give written out
from the rules, and which parts of the state an instruction may change (the flag table of spec/10_state.md R34 and the
access table of spec/20_memory.md R51). -/

namespace Sys2Proof.Machine

/-! ## Safe states -/

/-- What the fault latch may hold (60_exceptions.md R281, R282): an opcode byte that stands at `PC` and has no handler,
the address just past memory, or the negative address of a push with `SP < 2`. -/
def State.faultExplained (s : State) : Prop :=
  match s.fault with
  | none => True
  | some (.unimplementedOpcode b) => b = opcodeAt s ∧ s.params.inTable b = false
  | some (.outOfRangeMemoryAccess x) => x = 65536 ∨ (s.sp.toNat < 2 ∧ x = (s.sp.toNat : Int) - 2)

/-- The invariant of every run: memory is in canonical form, the parameters are legal, the last fire is not in the
future, and a latched fault is one the spec explains. `PC` and `SP` lie in `[0, CAP)` by their type. -/
structure State.Inv (s : State) : Prop where
  memCanonical : s.mem.wf
  paramsLegal : s.params.legal
  lastFireNotLater : s.lastFire ≤ s.env.now
  faultExplained : s.faultExplained

/-- A core that is about to run an instruction: it is not FAULTED and no reset comes next. -/
def State.running (s : State) : Prop :=
  s.fault = none ∧ ∀ rest, s.env.script ≠ .reset :: rest

/-! ## Faults of an instruction -/

/-- The instruction raises `OutOfRangeMemoryAccess(x)`: the latch takes the value and nothing else changes. -/
def RaisesOutOfRange (i : Instr) (s : State) (x : Int) : Prop :=
  exec i s = .next { s with fault := some (.outOfRangeMemoryAccess x) }

/-- The `NextPC(len)` of the instruction raises `0x10000` where its last byte is the last byte of memory. Above that an
operand byte is missing and the operand fetch raises before the meaning runs (`OperandFetchRaises`). -/
def NextPCRaises (i : Instr) : Prop :=
  ∀ s : State, s.pc.toNat + i.length = 65536 → RaisesOutOfRange i s 65536

/-- The operand fetch of the instruction raises wherever an operand byte lies past the top of memory. -/
def OperandFetchRaises (i : Instr) : Prop :=
  ∀ s : State, opcodeAt s = i.opcode → s.params.inTable i.opcode = true → 65536 < s.pc.toNat + i.length →
    fetch s = .error (.outOfRangeMemoryAccess 65536)

/-! ## Results, as the rules write them -/

/-- Z, S and P of a result byte (10_state.md R27, R28, R29), beside a carry and an auxiliary carry. -/
def flagsOf (r : Byte) (cy ac : Bool) : Flags :=
  { z := decide (r.toNat = 0), s := decide (128 ≤ r.toNat), p := decide (popcount r % 2 = 0), cy := cy, ac := ac }

/-- A carry as a byte to add or subtract. -/
def carryByte (cy : Bool) : Byte := if cy then 1 else 0

/-- ADD, ADC and their immediate forms: `A + v + cin`, carry when the integer sum exceeds 255, AC as it was. -/
def afterAdd (s : State) (v : Byte) (cin : Bool) (len : Word) : State :=
  { s with
    a := s.a + v + carryByte cin
    flags := flagsOf (s.a + v + carryByte cin) (decide (255 < s.a.toNat + v.toNat + (carryByte cin).toNat)) s.flags.ac
    pc := s.pc + len }

/-- SUB, SBB and their immediate forms: `A - v - cin`, carry when `A < v`, AC as it was. -/
def afterSub (s : State) (v : Byte) (cin : Bool) (len : Word) : State :=
  { s with
    a := s.a - v - carryByte cin
    flags := flagsOf (s.a - v - carryByte cin) (decide (s.a.toNat < v.toNat)) s.flags.ac
    pc := s.pc + len }

/-- CMP and CPI: the flags of `A - v`; `A` stays. -/
def afterCompare (s : State) (v : Byte) (len : Word) : State :=
  { s with flags := flagsOf (s.a - v) (decide (s.a.toNat < v.toNat)) s.flags.ac, pc := s.pc + len }

/-- ANA, XRA, ORA and their immediate forms: the result to `A`, CY and AC cleared. -/
def afterLogic (s : State) (r : Byte) (len : Word) : State :=
  { s with a := r, flags := flagsOf r false false, pc := s.pc + len }

/-- INR r and DCR r: the result to the register, Z, S and P from it, CY and AC as they were. -/
def afterCount (s : State) (r : Reg) (v : Byte) : State :=
  { s.setReg r v with flags := flagsOf v s.flags.cy s.flags.ac, pc := s.pc + 1 }

/-- INR M and DCR M: the result to the byte at `HL`. -/
def afterCountM (s : State) (v : Byte) : State :=
  { s with mem := s.mem.write s.hl.toNat v, flags := flagsOf v s.flags.cy s.flags.ac, pc := s.pc + 1 }

/-- A byte stored, then the next instruction. -/
def afterStore (s : State) (x : Word) (v : Byte) (len : Word) : State :=
  { s with mem := s.mem.write x.toNat v, pc := s.pc + len }

/-- The byte operand `M` reads. -/
def State.byteAtHL (s : State) : Byte := s.mem.read s.hl.toNat

/-- The word on top of the stack: low byte at `SP`, high byte at `SP + 1` (44_stack.md R250). -/
def State.stackTop (s : State) : Word :=
  joinBytes (s.mem.read (s.sp.toNat + 1)) (s.mem.read s.sp.toNat)

/-- A word pushed and control at `target` (44_stack.md R250): the low byte at `SP - 2`, the high byte at `SP - 1`. -/
def afterPush (s : State) (v target : Word) : State :=
  { s with
    mem := (s.mem.write (s.sp.toNat - 2) (loByte v)).write (s.sp.toNat - 1) (hiByte v)
    sp := s.sp - 2
    pc := target }

/-- A conditional jump, taken or not. -/
def afterJump (s : State) (taken : Bool) (target : Word) : State :=
  { s with pc := if taken then target else s.pc + 3 }

/-- A conditional call, taken or not. -/
def afterCall (s : State) (taken : Bool) (target : Word) : State :=
  if taken then afterPush s (s.pc + 3) target else { s with pc := s.pc + 3 }

/-- A conditional return, taken or not. -/
def afterReturn (s : State) (taken : Bool) : State :=
  if taken then { s with sp := s.sp + 2, pc := s.stackTop } else { s with pc := s.pc + 1 }

/-! ## The shape of an instruction rule

Each of these says what the rules of one shape say: the encoding and the tier, the result wherever no fault holds, and
every fault of the rule with its recorded value. -/

/-- An instruction of format F1 that uses `NextPC(1)` and accesses memory, if at all, through `HL` or a pair. -/
def RunsPlain (i : Instr) (op : Byte) (tier : Tier) (after : State → State) : Prop :=
  (∀ s : State, s.pc.toNat + 1 < 65536 → exec i s = .next (after s)) ∧
  encode i = [op] ∧ tierOf op = tier ∧ NextPCRaises i

/-- An instruction of format F2 or F3 that uses `NextPC(len)` and stores at most to a 16-bit address. -/
def RunsWithOperands (i : Instr) (bytes : List Byte) (tier : Tier) (after : State → State) : Prop :=
  (∀ s : State, s.pc.toNat + bytes.length < 65536 → exec i s = .next (after s)) ∧
  encode i = bytes ∧ tierOf i.opcode = tier ∧ NextPCRaises i ∧ OperandFetchRaises i

/-- A jump whose three bytes lie in memory: taken it goes to `a16` whatever follows it, not taken it uses `NextPC(3)`.
Where an operand byte is missing the operand fetch raises. -/
def RunsAsJump (mk : Word → Instr) (op : Byte) (tier : Tier) (taken : State → Bool) : Prop :=
  ∀ a : Word,
    (∀ s : State, s.pc.toNat + 3 ≤ 65536 → taken s = true ∨ s.pc.toNat + 3 < 65536 →
      exec (mk a) s = .next (afterJump s (taken s) a)) ∧
    (∀ s : State, taken s = false → s.pc.toNat + 3 = 65536 → RaisesOutOfRange (mk a) s 65536) ∧
    encode (mk a) = [op, loByte a, hiByte a] ∧ tierOf op = tier ∧ OperandFetchRaises (mk a)

/-- A call, conditional or not: `NextPC(3)` first, then the push when it is taken. -/
def RunsAsCall (mk : Word → Instr) (op : Byte) (tier : Tier) (taken : State → Bool) : Prop :=
  ∀ a : Word,
    (∀ s : State, s.pc.toNat + 3 < 65536 → (taken s = true → 2 ≤ s.sp.toNat) →
      exec (mk a) s = .next (afterCall s (taken s) a)) ∧
    (∀ s : State, s.pc.toNat + 3 < 65536 → taken s = true → s.sp.toNat < 2 →
      RaisesOutOfRange (mk a) s ((s.sp.toNat : Int) - 2)) ∧
    encode (mk a) = [op, loByte a, hiByte a] ∧ tierOf op = tier ∧ NextPCRaises (mk a) ∧
    OperandFetchRaises (mk a)

/-- A return, conditional or not: taken it pops `PC`, not taken it uses `NextPC(1)` and leaves the stack alone. -/
def RunsAsReturn (i : Instr) (op : Byte) (tier : Tier) (taken : State → Bool) : Prop :=
  (∀ s : State, (if taken s then s.sp.toNat + 2 < 65536 else s.pc.toNat + 1 < 65536) →
    exec i s = .next (afterReturn s (taken s))) ∧
  (∀ s : State, taken s = true → 65536 ≤ s.sp.toNat + 2 → RaisesOutOfRange i s 65536) ∧
  (∀ s : State, taken s = false → 65536 ≤ s.pc.toNat + 1 → RaisesOutOfRange i s 65536) ∧
  encode i = [op] ∧ tierOf op = tier

end Sys2Proof.Machine

namespace Sys2Proof

open Machine

/-! ## What an instruction may change -/

/-- The parts of the register file and of the flags an instruction may write. -/
structure Writes where
  /-- The registers it may write (10_state.md R21, R22). -/
  regs : List Reg := []
  /-- It may write `SP` (10_state.md R23). -/
  sp : Bool := false
  /-- It writes Z, S and P (10_state.md R34). -/
  zsp : Bool := false
  /-- It writes CY (10_state.md R34). -/
  cy : Bool := false
  /-- It writes AC (10_state.md R31, R34). -/
  ac : Bool := false
  deriving DecidableEq, Repr

/-- The two registers of a pair (10_state.md R22). -/
def Pair.regs : Pair → List Reg
  | .bc => [.b, .c]
  | .de => [.d, .e]
  | .hl => [.h, .l]

/-- The flag table of 10_state.md R34, with the destinations of each rule beside it. -/
def Instr.writes : Instr → Writes
  | .mviR r _ => { regs := [r] }
  | .mviM _ => {}
  | .lxi q _ => { regs := q.regs }
  | .lxiSp _ => { sp := true }
  | .movRM r => { regs := [r] }
  | .movMR _ => {}
  | .ldax _ => { regs := [.a] }
  | .stax _ => {}
  | .movRR r _ => { regs := [r] }
  | .lda _ => { regs := [.a] }
  | .sta _ => {}
  | .lhld _ => { regs := [.h, .l] }
  | .shld _ => {}
  | .xchg => { regs := [.d, .e, .h, .l] }
  | .sphl => { sp := true }
  | .addR _ => { regs := [.a], zsp := true, cy := true }
  | .addM => { regs := [.a], zsp := true, cy := true }
  | .adcR _ => { regs := [.a], zsp := true, cy := true }
  | .adcM => { regs := [.a], zsp := true, cy := true }
  | .subR _ => { regs := [.a], zsp := true, cy := true }
  | .subM => { regs := [.a], zsp := true, cy := true }
  | .sbbR _ => { regs := [.a], zsp := true, cy := true }
  | .sbbM => { regs := [.a], zsp := true, cy := true }
  | .inrR r => { regs := [r], zsp := true }
  | .inrM => { zsp := true }
  | .dcrR r => { regs := [r], zsp := true }
  | .dcrM => { zsp := true }
  | .dad _ => { regs := [.h, .l], cy := true }
  | .dadSp => { regs := [.h, .l], cy := true }
  | .adi _ => { regs := [.a], zsp := true, cy := true }
  | .aci _ => { regs := [.a], zsp := true, cy := true }
  | .sui _ => { regs := [.a], zsp := true, cy := true }
  | .sbi _ => { regs := [.a], zsp := true, cy := true }
  | .inx q => { regs := q.regs }
  | .inxSp => { sp := true }
  | .dcx q => { regs := q.regs }
  | .dcxSp => { sp := true }
  | .daa => { regs := [.a], zsp := true, cy := true }
  | .anaR _ => { regs := [.a], zsp := true, cy := true, ac := true }
  | .anaM => { regs := [.a], zsp := true, cy := true, ac := true }
  | .xraR _ => { regs := [.a], zsp := true, cy := true, ac := true }
  | .xraM => { regs := [.a], zsp := true, cy := true, ac := true }
  | .oraR _ => { regs := [.a], zsp := true, cy := true, ac := true }
  | .oraM => { regs := [.a], zsp := true, cy := true, ac := true }
  | .cmpR _ => { zsp := true, cy := true }
  | .cmpM => { zsp := true, cy := true }
  | .cpi _ => { zsp := true, cy := true }
  | .ani _ => { regs := [.a], zsp := true, cy := true, ac := true }
  | .xri _ => { regs := [.a], zsp := true, cy := true, ac := true }
  | .ori _ => { regs := [.a], zsp := true, cy := true, ac := true }
  | .rlc => { regs := [.a], cy := true }
  | .rrc => { regs := [.a], cy := true }
  | .ral => { regs := [.a], cy := true }
  | .rar => { regs := [.a], cy := true }
  | .cma => { regs := [.a] }
  | .stc => { cy := true }
  | .cmc => { cy := true }
  | .jmp _ => {}
  | .jnz _ => {}
  | .jz _ => {}
  | .jnc _ => {}
  | .jc _ => {}
  | .jpo _ => {}
  | .jpe _ => {}
  | .jp _ => {}
  | .jm _ => {}
  | .call _ => { sp := true }
  | .ret => { sp := true }
  | .rnz => { sp := true }
  | .rz => { sp := true }
  | .rnc => { sp := true }
  | .rc => { sp := true }
  | .rpo => { sp := true }
  | .rpe => { sp := true }
  | .rp => { sp := true }
  | .rm => { sp := true }
  | .cnz _ => { sp := true }
  | .cz _ => { sp := true }
  | .cnc _ => { sp := true }
  | .cc _ => { sp := true }
  | .cpo _ => { sp := true }
  | .cpe _ => { sp := true }
  | .cp _ => { sp := true }
  | .cm _ => { sp := true }
  | .rst _ => { sp := true }
  | .pchl => {}
  | .push _ => { sp := true }
  | .pushPsw => { sp := true }
  | .pop q => { regs := q.regs, sp := true }
  | .popPsw => { regs := [.a], sp := true, zsp := true, cy := true, ac := true }
  | .xthl => { regs := [.h, .l] }
  | .inp _ => { regs := [.a] }
  | .out _ => {}
  | .ei => {}
  | .di => {}
  | .nop => {}
  | .absent _ => {}
  | .absentHlt => {}

/-- The logical instructions, which write 0 to CY and AC (10_state.md R34). -/
def Instr.logical : Instr → Bool
  | .anaR _ | .anaM | .xraR _ | .xraM | .oraR _ | .oraM | .ani _ | .xri _ | .ori _ => true
  | .mviR _ _ | .mviM _ | .lxi _ _ | .lxiSp _ | .movRM _ | .movMR _ | .ldax _ | .stax _ | .movRR _ _ | .lda _
  | .sta _ | .lhld _ | .shld _ | .xchg | .sphl | .addR _ | .addM | .adcR _ | .adcM | .subR _ | .subM | .sbbR _
  | .sbbM | .inrR _ | .inrM | .dcrR _ | .dcrM | .dad _ | .dadSp | .adi _ | .aci _ | .sui _ | .sbi _ | .inx _ | .inxSp
  | .dcx _ | .dcxSp | .daa | .cmpR _ | .cmpM | .cpi _ | .rlc | .rrc | .ral | .rar | .cma | .stc | .cmc | .jmp _
  | .jnz _ | .jz _ | .jnc _ | .jc _ | .jpo _ | .jpe _ | .jp _ | .jm _ | .call _ | .ret | .rnz | .rz | .rnc | .rc
  | .rpo | .rpe | .rp | .rm | .cnz _ | .cz _ | .cnc _ | .cc _ | .cpo _ | .cpe _ | .cp _ | .cm _ | .rst _ | .pchl
  | .push _ | .pushPsw | .pop _ | .popPsw | .xthl | .inp _ | .out _ | .ei | .di | .nop | .absent _ | .absentHlt => false

/-- The control transfers (43_control_transfer.md R200). -/
def Instr.isTransfer : Instr → Bool
  | .jmp _ | .jnz _ | .jz _ | .jnc _ | .jc _ | .jpo _ | .jpe _ | .jp _ | .jm _ | .call _ | .cnz _ | .cz _ | .cnc _
  | .cc _ | .cpo _ | .cpe _ | .cp _ | .cm _ | .ret | .rnz | .rz | .rnc | .rc | .rpo | .rpe | .rp | .rm | .rst _
  | .pchl => true
  | .mviR _ _ | .mviM _ | .lxi _ _ | .lxiSp _ | .movRM _ | .movMR _ | .ldax _ | .stax _ | .movRR _ _ | .lda _
  | .sta _ | .lhld _ | .shld _ | .xchg | .sphl | .addR _ | .addM | .adcR _ | .adcM | .subR _ | .subM | .sbbR _
  | .sbbM | .inrR _ | .inrM | .dcrR _ | .dcrM | .dad _ | .dadSp | .adi _ | .aci _ | .sui _ | .sbi _ | .inx _ | .inxSp
  | .dcx _ | .dcxSp | .daa | .anaR _ | .anaM | .xraR _ | .xraM | .oraR _ | .oraM | .cmpR _ | .cmpM | .cpi _ | .ani _
  | .xri _ | .ori _ | .rlc | .rrc | .ral | .rar | .cma | .stc | .cmc | .push _ | .pushPsw | .pop _ | .popPsw | .xthl
  | .inp _ | .out _ | .ei | .di | .nop | .absent _ | .absentHlt => false

/-- The two cells a push of `v` stores: the low byte at `SP - 2`, the high byte at `SP - 1` (44_stack.md R250). -/
def Machine.State.pushCells (s : State) (v : Word) : List (Int × Byte) :=
  [(addr s.sp - 2, loByte v), (addr s.sp - 1, hiByte v)]

/-- What a conditional call stores: its return address when its condition holds, else nothing
(43_control_transfer.md R220). -/
def Machine.State.callCellsIf (s : State) (cond : Cond) : List (Int × Byte) :=
  if s.flags.holds cond then s.pushCells (s.pc + 3) else []

/-- The bytes an instruction stores when it completes, each with its integer address, from the state before it
(20_memory.md R51): at `HL`, at a pair or an immediate address, in the two stack slots of a push, in the two bytes XTHL
exchanges. -/
def Instr.stores (i : Instr) (s : State) : List (Int × Byte) :=
  match i with
  | .mviM v => [(addr s.hl, v)]
  | .movMR r => [(addr s.hl, s.reg r)]
  | .inrM => [(addr s.hl, s.byteAtHL + 1)]
  | .dcrM => [(addr s.hl, s.byteAtHL - 1)]
  | .stax p => [(addr (s.pair p.toPair), s.a)]
  | .sta a => [(addr a, s.a)]
  | .shld a => [(addr a, s.l), (addr a + 1, s.h)]
  | .push q => s.pushCells (s.pair q)
  | .pushPsw => s.pushCells (joinBytes s.a s.flags.toByte)
  | .call _ => s.pushCells (s.pc + 3)
  | .rst _ => s.pushCells (s.pc + 1)
  | .cnz _ => s.callCellsIf .nz
  | .cz _ => s.callCellsIf .z
  | .cnc _ => s.callCellsIf .nc
  | .cc _ => s.callCellsIf .c
  | .cpo _ => s.callCellsIf .po
  | .cpe _ => s.callCellsIf .pe
  | .cp _ => s.callCellsIf .p
  | .cm _ => s.callCellsIf .m
  | .xthl => [(addr s.sp, s.l), (addr s.sp + 1, s.h)]
  | .mviR _ _ | .lxi _ _ | .lxiSp _ | .movRM _ | .ldax _ | .movRR _ _ | .lda _ | .lhld _ | .xchg | .sphl | .addR _
  | .addM | .adcR _ | .adcM | .subR _ | .subM | .sbbR _ | .sbbM | .inrR _ | .dcrR _ | .dad _ | .dadSp | .adi _
  | .aci _ | .sui _ | .sbi _ | .inx _ | .inxSp | .dcx _ | .dcxSp | .daa | .anaR _ | .anaM | .xraR _ | .xraM | .oraR _
  | .oraM | .cmpR _ | .cmpM | .cpi _ | .ani _ | .xri _ | .ori _ | .rlc | .rrc | .ral | .rar | .cma | .stc | .cmc
  | .jmp _ | .jnz _ | .jz _ | .jnc _ | .jc _ | .jpo _ | .jpe _ | .jp _ | .jm _ | .ret | .rnz | .rz | .rnc | .rc
  | .rpo | .rpe | .rp | .rm | .pchl | .pop _ | .popPsw | .inp _ | .out _ | .ei | .di | .nop | .absent _ | .absentHlt => []

/-- The integer addresses of those bytes. -/
def Instr.storesTo (i : Instr) (s : State) : List Int := (i.stores s).map Prod.fst

end Sys2Proof
end

