-- ==== Sys2Proof/Certificates/Slice0/Obligations.lean ====
section
/-! DEFINITION. The statements for the provers. Each docstring names the rules of spec/ it formalises; where a clause rests
on a choice of the model or on an inference the spec marks as its own, the docstring says so. -/

open Sys2Proof Sys2Proof.Machine

/-! ## Encoding -/

/-- 30_encoding.md sections 1 to 4: no bit of an encoding is dropped. Every well-formed instruction, with every operand at
every value, is read back from its bytes whatever follows them. (The opcode map itself is the spec's decision D1; that an
absent opcode is written and read as one byte is the model's choice, log entry 12.) -/
def Obligations.DecodeEncodeRoundTrip : Prop :=
  ∀ (i : Instr) (rest : List Byte), i.wellFormed = true → decode (encode i ++ rest) = .ok (i, rest)

/-- 30_encoding.md R92: whatever the decoder reads is a well-formed instruction and the bytes it read are that
instruction's encoding, so every encoding has one meaning and no two instructions share one. (That an absent opcode is read
as one byte is the model's choice, log entry 12.) -/
def Obligations.DecodedBytesAreTheEncoding : Prop :=
  ∀ (bytes rest : List Byte) (i : Instr), decode bytes = .ok (i, rest) →
    i.wellFormed = true ∧ bytes = encode i ++ rest

/-- Words written out from the "Encoding" lines of the rules, one or more of each family, read as the instruction they
stand for; 0x3E 0x05 and 0x01 0x34 0x12 are the source's own (95_test_vectors.md S8, S9). (That the absent 0x76 is read as
one byte is the model's choice, log entry 12.) -/
def Obligations.SpecWordsDecode : Prop :=
  decode [0x3E, 0x05] = .ok (.mviR .a 0x05, []) ∧
  decode [0x01, 0x34, 0x12] = .ok (.lxi .bc 0x1234, []) ∧
  decode [0b01011110] = .ok (.movRM .e, []) ∧
  decode [0b10011101] = .ok (.sbbR .l, []) ∧
  decode [0b10101111] = .ok (.xraR .a, []) ∧
  decode [0b11101010, 0xFE, 0xFF] = .ok (.jpe 0xFFFE, []) ∧
  decode [0b11010101] = .ok (.push .de, []) ∧
  decode [0b11011111] = .ok (.rst 3, []) ∧
  decode [0b11011011, 0x7F] = .ok (.inp 0x7F, []) ∧
  decode [0b01110110] = .ok (.absentHlt, [])

/-- 30_encoding.md R87: the length is a function of the opcode byte alone, 2 for the 18 listed bytes, 3 for the 26 listed
bytes, 1 for every other that is not absent; the absent ones, which have no length, are the thirteen bytes of R91. (The
byte lists are the spec's general knowledge, G1; which bytes are absent is its decision D3.) -/
def Obligations.LengthIsAFunctionOfTheOpcode : Prop :=
  (∀ i j : Instr, i.wellFormed = true → j.wellFormed = true → i.tier ≠ .absent → i.opcode = j.opcode →
    j.tier ≠ .absent ∧ i.length = j.length) ∧
  (∀ i : Instr, i.wellFormed = true →
    (i.tier = .absent ↔ i.opcode ∈ ([0x08, 0x10, 0x18, 0x20, 0x28, 0x30, 0x38, 0x76, 0xCB, 0xD9, 0xDD, 0xED, 0xFD] :
      List Byte)) ∧
    (i.tier ≠ .absent →
      (encode i).length = i.length ∧
      (i.length = 2 ↔ i.opcode ∈ ([0x06, 0x0E, 0x16, 0x1E, 0x26, 0x2E, 0x36, 0x3E, 0xC6, 0xCE, 0xD6, 0xDE, 0xE6, 0xEE,
        0xF6, 0xFE, 0xD3, 0xDB] : List Byte)) ∧
      (i.length = 3 ↔ i.opcode ∈ ([0x01, 0x11, 0x21, 0x31, 0x22, 0x2A, 0x32, 0x3A, 0xC3, 0xC2, 0xCA, 0xD2, 0xDA, 0xE2,
        0xEA, 0xF2, 0xFA, 0xCD, 0xC4, 0xCC, 0xD4, 0xDC, 0xE4, 0xEC, 0xF4, 0xFC] : List Byte)) ∧
      (i.length = 1 ∨ i.length = 2 ∨ i.length = 3)))

/-- 30_encoding.md R89 (the spec's decision D2): the handler tables the model's parameter can stand for are exactly the
legal ones, those between the 145 bytes of `TABLE_DOC` and the 243 bytes of `TABLE_FULL`. -/
def Obligations.HandlerTablesAreTheLegalOnes : Prop :=
  tableDoc.Nodup ∧ tableDoc.length = 145 ∧ (tableDoc ++ tableCompletion).Nodup ∧
  (tableDoc ++ tableCompletion).length = 243 ∧
  (∀ (p : Params) (b : Byte), b ∈ tableDoc → p.inTable b = true) ∧
  (∀ (p : Params) (b : Byte), p.inTable b = true → b ∈ tableDoc ++ tableCompletion) ∧
  (∀ table : List Byte, (∀ b ∈ tableDoc, b ∈ table) → (∀ b ∈ table, b ∈ tableDoc ++ tableCompletion) →
    ∃ p : Params, ∀ b : Byte, p.inTable b = true ↔ b ∈ table)

/-! ## The step -/

/-- 60_exceptions.md R290 with 30_encoding.md R88: when the bytes at `PC` decode to a well-formed instruction that has a
handler, a step is the instruction and then, unless it faulted, one poll on the inputs of that poll. (That the inputs
stand in the state is the model's choice, log entry 5.) -/
def Obligations.StepRunsTheDecodedInstruction : Prop :=
  ∀ (s t : State) (i : Instr) (n : Nat) (rest : List Byte), s.running → s.pc.toNat + n ≤ 65536 →
    decode (s.exportRange s.pc.toNat n) = .ok (i, rest) → i.wellFormed = true →
    s.params.inTable i.opcode = true → exec i s = .next t →
    step s = .next (if t.fault = none then poll { t with env := t.env.advance } t.env.inputs else t)

/-- 60_exceptions.md R281: an opcode byte that is not in the handler table raises `UnimplementedOpcode` with that byte,
and nothing else changes; the thirteen absent bytes do so under every table, the completion bytes exactly when the table
leaves them out, the bytes of `TABLE_DOC` never. No operand is read: this holds at every `PC`. -/
def Obligations.OpcodeWithoutHandlerRaises : Prop :=
  (∀ s : State, s.running → s.params.inTable (opcodeAt s) = false →
    step s = .next { s with fault := some (.unimplementedOpcode (opcodeAt s)) }) ∧
  (∀ (p : Params) (b : Byte), b ∈ undocumentedBytes ∨ b = 0x76 → p.inTable b = false) ∧
  (∀ (p : Params) (b : Byte), b ∈ tableCompletion → (p.inTable b = false ↔ b ∉ p.extra)) ∧
  (∀ (p : Params) (b : Byte), b ∈ tableDoc → p.inTable b = true) ∧
  (∀ (s t : State) (b : Byte), s.running → s.params.inTable (opcodeAt s) = true → step s = .next t →
    t.fault ≠ some (.unimplementedOpcode b))

/-- 30_encoding.md R86, 60_exceptions.md R282 (the values not reduced modulo 65536 are the spec's decision D5): a step
whose instruction has an operand byte past the top of memory raises `OutOfRangeMemoryAccess(0x10000)` whatever the
instruction and the flags, and changes nothing else. -/
def Obligations.OperandPastTheTopOfMemoryRaises : Prop :=
  ∀ (s : State) (i : Instr), s.running → i.wellFormed = true → opcodeAt s = i.opcode →
    s.params.inTable i.opcode = true → 65536 < s.pc.toNat + i.length →
    step s = .next { s with fault := some (.outOfRangeMemoryAccess 65536) }

/-- 60_exceptions.md R283 (the latch is the spec's decision D14; that a FAULTED core answers its fault instead of a next
state, and how a reset is listed, are the model's log entries 7 and 6): a FAULTED core has no next state unless a reset
comes, and the reset clears the latch. -/
def Obligations.FaultedCoreWaitsForReset : Prop :=
  ∀ (s : State) (f : Fault), s.fault = some f →
    ((Input.reset ∉ s.env.script → step s = .fault f) ∧
    (∀ (before rest : List Input), Input.reset ∉ before → s.env.script = before ++ .reset :: rest →
      step s = .next (s.applyReset rest) ∧ (s.applyReset rest).fault = none))

/-- 70_reset_and_hazards.md R320 and R322, 60_exceptions.md R283, at any moment: a reset gives every element its reset
value and memory the ROM image, zero above it, and the parameters stay. A core that is not FAULTED takes the reset that
comes next, a FAULTED one the reset behind any samples (how a reset is listed is the model's choice, log entry 6). -/
def Obligations.ResetInputGivesTheResetState : Prop :=
  ∀ (s : State) (before rest : List Input), s.env.script = before ++ .reset :: rest →
    (s.fault = none ∧ before = []) ∨ (s.fault ≠ none ∧ Input.reset ∉ before) →
    ∃ t : State, step s = .next t ∧
      (∀ r : Reg, t.reg r = 0) ∧ t.sp = 0 ∧ t.pc = 0 ∧
      t.flags = { z := false, s := false, p := false, cy := false, ac := false } ∧
      t.ie = false ∧ t.lastFire = 0 ∧ t.fault = none ∧
      (∀ x : Nat, t.mem.read x = s.params.rom.getD x 0) ∧ t.params = s.params ∧ t.env.script = rest

/-- 10_state.md R41 (with the spec's decisions D12 and D14 for `last_fire` and `fault`), 70_reset_and_hazards.md R322,
00_scope.md R7, 60_exceptions.md R296: a legal choice of parameters gives a machine whose elements have the reset values;
an image that does not fit, and a `PERIOD` of 0, give none. `State.reset` is that machine for the empty `ROM` (log entries
2 to 5 name its other parameters). -/
def Obligations.BootGivesTheResetState : Prop :=
  (∀ (p : Params) (script : List Input), 65536 < p.rom.length ∨ p.period = 0 → State.boot p script = none) ∧
  (∀ (p : Params) (script : List Input), p.rom.length ≤ 65536 → 0 < p.period →
    ∃ t : State, State.boot p script = some t ∧
      (∀ r : Reg, t.reg r = 0) ∧ t.sp = 0 ∧ t.pc = 0 ∧
      t.flags = { z := false, s := false, p := false, cy := false, ac := false } ∧
      t.ie = false ∧ t.lastFire = 0 ∧ t.fault = none ∧
      (∀ x : Nat, t.mem.read x = p.rom.getD x 0) ∧ t.params = p) ∧
  State.boot Params.standard [] = some State.reset

/-- The invariant holds right after reset. -/
def Obligations.ResetMeetsTheInvariant : Prop := State.reset.Inv

/-- The invariant is kept by every step, from every state that has it: memory stays canonical (10_state.md R38), the
parameters stay legal and constant (00_scope.md R7), the last fire is never in the future (60_exceptions.md R287), and a
latched fault is one the spec explains (60_exceptions.md R281, R282). -/
def Obligations.StepKeepsTheInvariant : Prop :=
  ∀ s t : State, s.Inv → step s = .next t → t.Inv ∧ t.params = s.params

/-- 60_exceptions.md R284 and R291 (the spec's decision D16): an instruction always answers a next state (that the state
which takes a fault is one is log entry 7), an instruction that takes a fault leaves everything but the latch exactly as
it was, and so does an interrupt entry that raises. -/
def Obligations.FaultsArePrecise : Prop :=
  (∀ (i : Instr) (s : State), ∃ t : State, exec i s = .next t ∧
    (t.fault ≠ s.fault → t = { s with fault := t.fault })) ∧
  (∀ (s : State) (i : PollInputs), (poll s i).fault ≠ s.fault →
    poll s i = { s with fault := (poll s i).fault })

/-! ## Memory -/

/-- 20_memory.md R52 (and the write of R53): an access in `[0, CAP)` reads or stores that one byte, an access outside it
raises the address as it is. -/
def Obligations.MemoryAccessesReadAndStoreOneByte : Prop :=
  ∀ (s : State) (x : Int) (v : Byte),
    (0 ≤ x ∧ x < 65536 → memRead s x = .ok (s.mem.read x.toNat)) ∧
    (x < 0 ∨ 65536 ≤ x → memRead s x = .error (.outOfRangeMemoryAccess x)) ∧
    (x < 0 ∨ 65536 ≤ x → memWrite s x v = .error (.outOfRangeMemoryAccess x)) ∧
    (0 ≤ x ∧ x < 65536 → ∃ t : State, memWrite s x v = .ok t ∧ t = { s with mem := t.mem } ∧
      (s.mem.wf → memRead t x = .ok v ∧ t.mem.wf) ∧
      (∀ y : Int, y ≠ x → memRead t y = memRead s y))

/-- 20_memory.md R55 and R56 (the order of the two accesses is the spec's decision D23): a 16-bit store puts the low byte
at the lower address, and a 16-bit read gives the value back. -/
def Obligations.WordAccessesAreLittleEndian : Prop :=
  ∀ (s : State) (x : Int) (v : Word), s.mem.wf → 0 ≤ x → x + 1 < 65536 →
    ∃ t : State, memWriteWord s x v = .ok t ∧ t = { s with mem := t.mem } ∧
      memRead t x = .ok (BitVec.ofNat 8 (v.toNat % 256)) ∧
      memRead t (x + 1) = .ok (BitVec.ofNat 8 (v.toNat / 256)) ∧
      memReadWord t x = .ok v ∧
      (∀ y : Int, y ≠ x → y ≠ x + 1 → memRead t y = memRead s y)

/-- The canonical form means what it is for: two canonical memories that read alike are the same data. -/
def Obligations.CanonicalMemoriesThatReadAlikeAreEqual : Prop :=
  ∀ m m' : Memory, m.wf → m'.wf → (∀ x : Nat, x < 65536 → m.read x = m'.read x) → m = m'

/-- 20_memory.md R66: every byte an instruction stores reads back in the state after it, and where it is the opcode byte
or an operand byte of the instruction at `PC` there, a fetch in that state reads it. This is said of every instruction
that stores, the pushes, the calls, RST and XTHL among them. -/
def Obligations.StoreIsSeenByTheNextFetch : Prop :=
  ∀ (i : Instr) (s t : State), s.mem.wf → s.fault = none → exec i s = .next t → t.fault = none →
    ∀ (x : Int) (v : Byte), (x, v) ∈ i.stores s →
      memRead t x = .ok v ∧
      (x = addr t.pc → opcodeAt t = v) ∧
      (t.params.inTable (opcodeAt t) = true →
        (∀ f : Byte → Instr, decodeOpcode (opcodeAt t) = .imm8 f → x = addr t.pc + 1 → fetch t = .ok (f v)) ∧
        (∀ f : Word → Instr, decodeOpcode (opcodeAt t) = .imm16 f → t.pc.toNat + 2 < 65536 →
          (x = addr t.pc + 1 → fetch t = .ok (f (joinBytes (t.mem.read (t.pc.toNat + 2)) v))) ∧
          (x = addr t.pc + 2 → fetch t = .ok (f (joinBytes v (t.mem.read (t.pc.toNat + 1)))))))

/-! ## Flags -/

/-- 10_state.md R27, R28, R29, R33: `SetZSP` writes Z when the byte is zero, S from bit 7, P when the number of 1 bits is
even (the exclusive or of all eight bits is 0), and neither CY nor AC. -/
def Obligations.SetZSPIsZeroSignAndEvenParity : Prop :=
  ∀ (f : Flags) (v : Byte),
    ((f.setZSP v).z = true ↔ v = 0) ∧
    ((f.setZSP v).s = true ↔ 128 ≤ v.toNat) ∧
    ((f.setZSP v).p = true ↔
      (v.getLsbD 0 ^^ v.getLsbD 1 ^^ v.getLsbD 2 ^^ v.getLsbD 3 ^^ v.getLsbD 4 ^^ v.getLsbD 5 ^^ v.getLsbD 6 ^^
        v.getLsbD 7) = false) ∧
    (f.setZSP v).cy = f.cy ∧ (f.setZSP v).ac = f.ac

/-! ## Loads and moves (40_loads_and_moves.md) -/

/-- R110, R112, R113: MVI r, LXI rp, LXI SP load their immediate, the low byte of a pair from the first operand byte. -/
def Obligations.ImmediateLoads : Prop :=
  (∀ (r : Reg) (v : Byte), RunsWithOperands (.mviR r v) [0x06 ||| r.code <<< 3, v] .doc
    (fun s => { s.setReg r v with pc := s.pc + 2 })) ∧
  (∀ v : Word, RunsWithOperands (.lxi .bc v) [0x01, loByte v, hiByte v] .doc
    (fun s => { s with b := hiByte v, c := loByte v, pc := s.pc + 3 })) ∧
  (∀ v : Word, RunsWithOperands (.lxi .de v) [0x11, loByte v, hiByte v] .doc
    (fun s => { s with d := hiByte v, e := loByte v, pc := s.pc + 3 })) ∧
  (∀ v : Word, RunsWithOperands (.lxi .hl v) [0x21, loByte v, hiByte v] .doc
    (fun s => { s with h := hiByte v, l := loByte v, pc := s.pc + 3 })) ∧
  (∀ v : Word, RunsWithOperands (.lxiSp v) [0x31, loByte v, hiByte v] .doc
    (fun s => { s with sp := v, pc := s.pc + 3 }))

/-- R111, R115, R117: MVI M, MOV M,r and STAX store one byte at the address the pair held before. -/
def Obligations.StoresThroughAPair : Prop :=
  (∀ v : Byte, RunsWithOperands (.mviM v) [0x36, v] .doc (fun s => afterStore s s.hl v 2)) ∧
  (∀ r : Reg, RunsPlain (.movMR r) (0x70 ||| r.code) .doc (fun s => afterStore s s.hl (s.reg r) 1)) ∧
  RunsPlain (.stax .bc) 0x02 .doc (fun s => afterStore s (s.pair .bc) s.a 1) ∧
  RunsPlain (.stax .de) 0x12 .doc (fun s => afterStore s (s.pair .de) s.a 1)

/-- R114, R116: MOV r,M and LDAX load the byte at the address the pair held before. -/
def Obligations.LoadsThroughAPair : Prop :=
  (∀ r : Reg, RunsPlain (.movRM r) (0x46 ||| r.code <<< 3) .doc
    (fun s => { s.setReg r s.byteAtHL with pc := s.pc + 1 })) ∧
  RunsPlain (.ldax .bc) 0x0A .doc (fun s => { s with a := s.mem.read (s.pair .bc).toNat, pc := s.pc + 1 }) ∧
  RunsPlain (.ldax .de) 0x1A .doc (fun s => { s with a := s.mem.read (s.pair .de).toNat, pc := s.pc + 1 })

/-- R118, R123, R124, tier completion (the spec's general knowledge, G10): MOV r1,r2, XCHG, SPHL. -/
def Obligations.RegisterMoves : Prop :=
  (∀ r1 r2 : Reg, RunsPlain (.movRR r1 r2) (0x40 ||| r1.code <<< 3 ||| r2.code) .completion
    (fun s => { s.setReg r1 (s.reg r2) with pc := s.pc + 1 })) ∧
  RunsPlain .xchg 0xEB .completion (fun s => { s with d := s.h, e := s.l, h := s.d, l := s.e, pc := s.pc + 1 }) ∧
  RunsPlain .sphl 0xF9 .completion (fun s => { s with sp := s.hl, pc := s.pc + 1 })

/-- R119 to R122, tier completion (the spec's general knowledge, G10; the faults of the second byte at `a16 = 0xFFFF` are
decision D5): LDA, STA, LHLD, SHLD, the low byte of a word at `a16`. -/
def Obligations.DirectLoadsAndStores : Prop :=
  (∀ a : Word, RunsWithOperands (.lda a) [0x3A, loByte a, hiByte a] .completion
    (fun s => { s with a := s.mem.read a.toNat, pc := s.pc + 3 })) ∧
  (∀ a : Word, RunsWithOperands (.sta a) [0x32, loByte a, hiByte a] .completion (fun s => afterStore s a s.a 3)) ∧
  (∀ a : Word, a.toNat < 65535 → RunsWithOperands (.lhld a) [0x2A, loByte a, hiByte a] .completion
    (fun s => { s with l := s.mem.read a.toNat, h := s.mem.read (a.toNat + 1), pc := s.pc + 3 })) ∧
  (∀ a : Word, a.toNat < 65535 → RunsWithOperands (.shld a) [0x22, loByte a, hiByte a] .completion
    (fun s => { s with mem := (s.mem.write a.toNat s.l).write (a.toNat + 1) s.h, pc := s.pc + 3 })) ∧
  (∀ s : State, s.pc.toNat + 3 < 65536 →
    RaisesOutOfRange (.lhld 0xFFFF) s 65536 ∧ RaisesOutOfRange (.shld 0xFFFF) s 65536)

/-! ## Arithmetic (41_arithmetic.md) -/

/-- R141 to R144: ADD and ADC with a register and with M. -/
def Obligations.Additions : Prop :=
  (∀ r : Reg, RunsPlain (.addR r) (0x80 ||| r.code) .doc (fun s => afterAdd s (s.reg r) false 1)) ∧
  RunsPlain .addM 0x86 .doc (fun s => afterAdd s s.byteAtHL false 1) ∧
  (∀ r : Reg, RunsPlain (.adcR r) (0x88 ||| r.code) .doc (fun s => afterAdd s (s.reg r) s.flags.cy 1)) ∧
  RunsPlain .adcM 0x8E .doc (fun s => afterAdd s s.byteAtHL s.flags.cy 1)

/-- R145 to R148: SUB and SBB with a register and with M; the carry of SBB compares `A` with the operand alone (R30, the
spec's decision D8). -/
def Obligations.Subtractions : Prop :=
  (∀ r : Reg, RunsPlain (.subR r) (0x90 ||| r.code) .doc (fun s => afterSub s (s.reg r) false 1)) ∧
  RunsPlain .subM 0x96 .doc (fun s => afterSub s s.byteAtHL false 1) ∧
  (∀ r : Reg, RunsPlain (.sbbR r) (0x98 ||| r.code) .doc (fun s => afterSub s (s.reg r) s.flags.cy 1)) ∧
  RunsPlain .sbbM 0x9E .doc (fun s => afterSub s s.byteAtHL s.flags.cy 1)

/-- R149 to R152: INR and DCR of a register and of M; CY and AC stay (90_conflicts.md C1, the spec's decision D6). -/
def Obligations.IncrementsAndDecrements : Prop :=
  (∀ r : Reg, RunsPlain (.inrR r) (0x04 ||| r.code <<< 3) .doc (fun s => afterCount s r (s.reg r + 1))) ∧
  RunsPlain .inrM 0x34 .doc (fun s => afterCountM s (s.byteAtHL + 1)) ∧
  (∀ r : Reg, RunsPlain (.dcrR r) (0x05 ||| r.code <<< 3) .doc (fun s => afterCount s r (s.reg r - 1))) ∧
  RunsPlain .dcrM 0x35 .doc (fun s => afterCountM s (s.byteAtHL - 1))

/-- R153, R154: DAD adds a pair or `SP` to `HL` modulo 65536 and writes CY alone. -/
def Obligations.DoubleAdditions : Prop :=
  (∀ q : Pair, RunsPlain (.dad q) (0x09 ||| q.code <<< 4) .doc (fun s =>
    { s with h := hiByte (s.hl + s.pair q), l := loByte (s.hl + s.pair q), pc := s.pc + 1,
             flags := { s.flags with cy := decide (65535 < s.hl.toNat + (s.pair q).toNat) } })) ∧
  RunsPlain .dadSp 0x39 .doc (fun s =>
    { s with h := hiByte (s.hl + s.sp), l := loByte (s.hl + s.sp), pc := s.pc + 1,
             flags := { s.flags with cy := decide (65535 < s.hl.toNat + s.sp.toNat) } })

/-- R155 to R158, tier completion (the spec's general knowledge, G10): ADI, ACI, SUI, SBI. -/
def Obligations.ImmediateArithmetic : Prop :=
  ∀ v : Byte,
    RunsWithOperands (.adi v) [0xC6, v] .completion (fun s => afterAdd s v false 2) ∧
    RunsWithOperands (.aci v) [0xCE, v] .completion (fun s => afterAdd s v s.flags.cy 2) ∧
    RunsWithOperands (.sui v) [0xD6, v] .completion (fun s => afterSub s v false 2) ∧
    RunsWithOperands (.sbi v) [0xDE, v] .completion (fun s => afterSub s v s.flags.cy 2)

/-- R159 to R162, tier completion (the spec's general knowledge, G10): INX and DCX wrap modulo 65536 and write no flag,
`SP` included. -/
def Obligations.PairIncrementsAndDecrements : Prop :=
  (∀ q : Pair, RunsPlain (.inx q) (0x03 ||| q.code <<< 4) .completion
    (fun s => { s.setPair q (s.pair q + 1) with pc := s.pc + 1 })) ∧
  RunsPlain .inxSp 0x33 .completion (fun s => { s with sp := s.sp + 1, pc := s.pc + 1 }) ∧
  (∀ q : Pair, RunsPlain (.dcx q) (0x0B ||| q.code <<< 4) .completion
    (fun s => { s.setPair q (s.pair q - 1) with pc := s.pc + 1 })) ∧
  RunsPlain .dcxSp 0x3B .completion (fun s => { s with sp := s.sp - 1, pc := s.pc + 1 })

/-- R163, tier completion (the spec's general knowledge and its decision D18): DAA adds 0x06 for the low digit and 0x60
for the high one, and leaves AC as it was. -/
def Obligations.DecimalAdjust : Prop :=
  RunsPlain .daa 0x27 .completion (fun s =>
    let lowDigit := decide (9 < s.a.toNat % 16) || s.flags.ac
    let highDigit := decide (9 < s.a.toNat / 16) || s.flags.cy ||
      (decide (9 ≤ s.a.toNat / 16) && decide (9 < s.a.toNat % 16))
    let r : Byte := s.a + (if lowDigit then 0x06 else 0) + (if highDigit then 0x60 else 0)
    { s with a := r, flags := flagsOf r (highDigit || s.flags.cy) s.flags.ac, pc := s.pc + 1 })

/-! ## Logic (42_logical_and_compare.md) -/

/-- R170 to R175: ANA, XRA, ORA with a register and with M clear CY and AC and set Z, S, P from the result. -/
def Obligations.LogicalOperations : Prop :=
  (∀ r : Reg, RunsPlain (.anaR r) (0xA0 ||| r.code) .doc (fun s => afterLogic s (s.a &&& s.reg r) 1)) ∧
  RunsPlain .anaM 0xA6 .doc (fun s => afterLogic s (s.a &&& s.byteAtHL) 1) ∧
  (∀ r : Reg, RunsPlain (.xraR r) (0xA8 ||| r.code) .doc (fun s => afterLogic s (s.a ^^^ s.reg r) 1)) ∧
  RunsPlain .xraM 0xAE .doc (fun s => afterLogic s (s.a ^^^ s.byteAtHL) 1) ∧
  (∀ r : Reg, RunsPlain (.oraR r) (0xB0 ||| r.code) .doc (fun s => afterLogic s (s.a ||| s.reg r) 1)) ∧
  RunsPlain .oraM 0xB6 .doc (fun s => afterLogic s (s.a ||| s.byteAtHL) 1)

/-- R176 to R178: CMP and CPI write the flags of the difference and leave `A`, the operand and AC alone. -/
def Obligations.Compares : Prop :=
  (∀ r : Reg, RunsPlain (.cmpR r) (0xB8 ||| r.code) .doc (fun s => afterCompare s (s.reg r) 1)) ∧
  RunsPlain .cmpM 0xBE .doc (fun s => afterCompare s s.byteAtHL 1) ∧
  (∀ v : Byte, RunsWithOperands (.cpi v) [0xFE, v] .doc (fun s => afterCompare s v 2))

/-- R179 to R181, tier completion (the spec's general knowledge, G10): ANI, XRI, ORI. -/
def Obligations.ImmediateLogic : Prop :=
  ∀ v : Byte,
    RunsWithOperands (.ani v) [0xE6, v] .completion (fun s => afterLogic s (s.a &&& v) 2) ∧
    RunsWithOperands (.xri v) [0xEE, v] .completion (fun s => afterLogic s (s.a ^^^ v) 2) ∧
    RunsWithOperands (.ori v) [0xF6, v] .completion (fun s => afterLogic s (s.a ||| v) 2)

/-- R182 to R185, tier completion (the spec's general knowledge, G10): the four rotates of `A`, bit by bit; they write CY
and no other flag. -/
def Obligations.Rotates : Prop :=
  RunsPlain .rlc 0x07 .completion (fun s =>
    { s with a := s.a.rotateLeft 1, pc := s.pc + 1, flags := { s.flags with cy := s.a.getLsbD 7 } }) ∧
  RunsPlain .rrc 0x0F .completion (fun s =>
    { s with a := s.a.rotateRight 1, pc := s.pc + 1, flags := { s.flags with cy := s.a.getLsbD 0 } }) ∧
  RunsPlain .ral 0x17 .completion (fun s =>
    { s with a := s.a <<< 1 ||| carryByte s.flags.cy, pc := s.pc + 1, flags := { s.flags with cy := s.a.getLsbD 7 } }) ∧
  RunsPlain .rar 0x1F .completion (fun s =>
    { s with a := s.a >>> 1 ||| carryByte s.flags.cy <<< 7, pc := s.pc + 1,
             flags := { s.flags with cy := s.a.getLsbD 0 } })

/-- R186 to R188, tier completion (the spec's general knowledge, G10): CMA writes no flag, STC and CMC write CY alone. -/
def Obligations.ComplementAndCarryOperations : Prop :=
  RunsPlain .cma 0x2F .completion (fun s => { s with a := 255 - s.a, pc := s.pc + 1 }) ∧
  RunsPlain .stc 0x37 .completion (fun s => { s with flags := { s.flags with cy := true }, pc := s.pc + 1 }) ∧
  RunsPlain .cmc 0x3F .completion (fun s => { s with flags := { s.flags with cy := !s.flags.cy }, pc := s.pc + 1 })

/-! ## Control transfer (43_control_transfer.md) -/

/-- R201 to R209: JMP and the eight conditional jumps, taken and not taken, wherever their three bytes lie in memory, and
the operand fetch where they do not. -/
def Obligations.Jumps : Prop :=
  RunsAsJump .jmp 0xC3 .doc (fun _ => true) ∧
  RunsAsJump .jnz 0xC2 .doc (fun s => !s.flags.z) ∧
  RunsAsJump .jz 0xCA .doc (fun s => s.flags.z) ∧
  RunsAsJump .jnc 0xD2 .doc (fun s => !s.flags.cy) ∧
  RunsAsJump .jc 0xDA .doc (fun s => s.flags.cy) ∧
  RunsAsJump .jpo 0xE2 .doc (fun s => !s.flags.p) ∧
  RunsAsJump .jpe 0xEA .doc (fun s => s.flags.p) ∧
  RunsAsJump .jp 0xF2 .doc (fun s => !s.flags.s) ∧
  RunsAsJump .jm 0xFA .doc (fun s => s.flags.s)

/-- R210: CALL pushes the address after itself, low byte at `SP - 2`, and goes to its target. -/
def Obligations.CallPushesTheReturnAddress : Prop := RunsAsCall .call 0xCD .doc (fun _ => true)

/-- R211 to R219: RET and the eight conditional returns, taken and not taken. -/
def Obligations.Returns : Prop :=
  RunsAsReturn .ret 0xC9 .doc (fun _ => true) ∧
  RunsAsReturn .rnz 0xC0 .doc (fun s => !s.flags.z) ∧
  RunsAsReturn .rz 0xC8 .doc (fun s => s.flags.z) ∧
  RunsAsReturn .rnc 0xD0 .doc (fun s => !s.flags.cy) ∧
  RunsAsReturn .rc 0xD8 .doc (fun s => s.flags.cy) ∧
  RunsAsReturn .rpo 0xE0 .doc (fun s => !s.flags.p) ∧
  RunsAsReturn .rpe 0xE8 .doc (fun s => s.flags.p) ∧
  RunsAsReturn .rp 0xF0 .doc (fun s => !s.flags.s) ∧
  RunsAsReturn .rm 0xF8 .doc (fun s => s.flags.s)

/-- R220 to R227, tier completion (the spec's general knowledge, G10): the eight conditional calls; not taken they push
nothing, whatever `SP` is. -/
def Obligations.ConditionalCalls : Prop :=
  RunsAsCall .cnz 0xC4 .completion (fun s => !s.flags.z) ∧
  RunsAsCall .cz 0xCC .completion (fun s => s.flags.z) ∧
  RunsAsCall .cnc 0xD4 .completion (fun s => !s.flags.cy) ∧
  RunsAsCall .cc 0xDC .completion (fun s => s.flags.cy) ∧
  RunsAsCall .cpo 0xE4 .completion (fun s => !s.flags.p) ∧
  RunsAsCall .cpe 0xEC .completion (fun s => s.flags.p) ∧
  RunsAsCall .cp 0xF4 .completion (fun s => !s.flags.s) ∧
  RunsAsCall .cm 0xFC .completion (fun s => s.flags.s)

/-- R228, R229, tier completion (the spec's general knowledge, G10): RST n pushes the address after itself and goes to
`8 * n`, `IE` as it was; PCHL goes to `HL` from every `PC`. -/
def Obligations.RestartAndIndirectJump : Prop :=
  (∀ (n : BitVec 3) (s : State), s.pc.toNat + 1 < 65536 → 2 ≤ s.sp.toNat →
    exec (.rst n) s = .next (afterPush s (s.pc + 1) (BitVec.ofNat 16 (8 * n.toNat)))) ∧
  (∀ (n : BitVec 3) (s : State), s.pc.toNat + 1 < 65536 → s.sp.toNat < 2 →
    RaisesOutOfRange (.rst n) s ((s.sp.toNat : Int) - 2)) ∧
  (∀ n : BitVec 3, encode (.rst n) = [BitVec.ofNat 8 (0xC7 + 8 * n.toNat)] ∧
    tierOf (.ofNat 8 (0xC7 + 8 * n.toNat)) = .completion ∧ NextPCRaises (.rst n)) ∧
  (∀ s : State, exec .pchl s = .next { s with pc := s.hl }) ∧ encode .pchl = [0xE9] ∧
  tierOf 0xE9 = .completion

/-! ## Stack (44_stack.md) -/

/-- R251, R252 (bits 7:5 of the flag byte, and which byte it is, are the spec's decision D9): PUSH of a pair and of PSW;
the flag byte is Z, S, P, CY, AC in bits 0 to 4. -/
def Obligations.Pushes : Prop :=
  (∀ (q : Pair) (s : State), s.pc.toNat + 1 < 65536 → 2 ≤ s.sp.toNat →
    exec (.push q) s = .next (afterPush s (s.pair q) (s.pc + 1))) ∧
  (∀ s : State, s.pc.toNat + 1 < 65536 → 2 ≤ s.sp.toNat → ∃ f : Byte,
    exec .pushPsw s = .next (afterPush s (joinBytes s.a f) (s.pc + 1)) ∧
    f.getLsbD 0 = s.flags.z ∧ f.getLsbD 1 = s.flags.s ∧ f.getLsbD 2 = s.flags.p ∧ f.getLsbD 3 = s.flags.cy ∧
    f.getLsbD 4 = s.flags.ac ∧ f.getLsbD 5 = false ∧ f.getLsbD 6 = false ∧ f.getLsbD 7 = false) ∧
  (∀ (q : Pair) (s : State), s.pc.toNat + 1 < 65536 → s.sp.toNat < 2 →
    RaisesOutOfRange (.push q) s ((s.sp.toNat : Int) - 2) ∧ RaisesOutOfRange .pushPsw s ((s.sp.toNat : Int) - 2)) ∧
  (∀ q : Pair, encode (.push q) = [0xC5 ||| q.code <<< 4] ∧ tierOf (0xC5 ||| q.code <<< 4) = .doc ∧
    NextPCRaises (.push q)) ∧
  encode .pushPsw = [0xF5] ∧ tierOf 0xF5 = .doc ∧ NextPCRaises .pushPsw

/-- R253, R254: POP of a pair and of PSW; all five flags come from the popped byte and bits 7:5 are ignored. -/
def Obligations.Pops : Prop :=
  (∀ (q : Pair) (s : State), s.pc.toNat + 1 < 65536 → s.sp.toNat + 2 < 65536 →
    exec (.pop q) s = .next { s.setPair q s.stackTop with sp := s.sp + 2, pc := s.pc + 1 }) ∧
  (∀ s : State, s.pc.toNat + 1 < 65536 → s.sp.toNat + 2 < 65536 →
    exec .popPsw s = .next { s with
      a := s.mem.read (s.sp.toNat + 1)
      flags :=
        { z := (s.mem.read s.sp.toNat).getLsbD 0, s := (s.mem.read s.sp.toNat).getLsbD 1,
          p := (s.mem.read s.sp.toNat).getLsbD 2, cy := (s.mem.read s.sp.toNat).getLsbD 3,
          ac := (s.mem.read s.sp.toNat).getLsbD 4 }
      sp := s.sp + 2
      pc := s.pc + 1 }) ∧
  (∀ (q : Pair) (s : State), s.pc.toNat + 1 < 65536 → 65536 ≤ s.sp.toNat + 2 →
    RaisesOutOfRange (.pop q) s 65536 ∧ RaisesOutOfRange .popPsw s 65536) ∧
  (∀ q : Pair, encode (.pop q) = [0xC1 ||| q.code <<< 4] ∧ tierOf (0xC1 ||| q.code <<< 4) = .doc ∧
    NextPCRaises (.pop q)) ∧
  encode .popPsw = [0xF1] ∧ tierOf 0xF1 = .doc ∧ NextPCRaises .popPsw

/-- R256, tier completion (the spec's general knowledge, G10): XTHL exchanges `HL` with the word on top of the stack and
leaves `SP`; `SP = 0xFFFE` is legal, `SP = 0xFFFF` raises. -/
def Obligations.ExchangeWithTheStack : Prop :=
  (∀ s : State, s.pc.toNat + 1 < 65536 → s.sp.toNat < 65535 →
    exec .xthl s = .next { s with
      l := s.mem.read s.sp.toNat
      h := s.mem.read (s.sp.toNat + 1)
      mem := (s.mem.write s.sp.toNat s.l).write (s.sp.toNat + 1) s.h
      pc := s.pc + 1 }) ∧
  (∀ s : State, s.pc.toNat + 1 < 65536 → s.sp.toNat = 65535 → RaisesOutOfRange .xthl s 65536) ∧
  encode .xthl = [0xE3] ∧ tierOf 0xE3 = .completion ∧ NextPCRaises .xthl

/-- R253 and 44_stack.md R255: PUSH then POP of a pair, and of PSW, gives back the registers, the flags and `SP`. -/
def Obligations.PushThenPopRoundTrips : Prop :=
  ∀ s : State, s.mem.wf → s.pc.toNat + 2 < 65536 → 2 ≤ s.sp.toNat →
    (∀ q : Pair, ∃ t u : State, exec (.push q) s = .next t ∧ exec (.pop q) t = .next u ∧
      u = { s with mem := t.mem, pc := s.pc + 2 }) ∧
    (∃ t u : State, exec .pushPsw s = .next t ∧ exec .popPsw t = .next u ∧
      u = { s with mem := t.mem, pc := s.pc + 2 })

/-- 43_control_transfer.md R210, R211: CALL then RET resumes after the CALL with `SP` as it was. -/
def Obligations.CallThenReturnRoundTrips : Prop :=
  ∀ (s : State) (a : Word), s.mem.wf → s.pc.toNat + 3 < 65536 → 2 ≤ s.sp.toNat →
    ∃ t u : State, exec (.call a) s = .next t ∧ t.pc = a ∧ exec .ret t = .next u ∧
      u = { s with mem := t.mem, pc := s.pc + 3 }

/-! ## I/O and control (45_io_and_control.md) -/

/-- R265, R266, R267 (that every port is modelled and that EI has no delay are the spec's decisions D10 and D11) and
R268, R269, tier completion (the spec's general knowledge, G10): IN loads 0 from every port, OUT changes nothing but `PC`,
EI sets `IE` at once, DI clears it, NOP changes nothing but `PC`. -/
def Obligations.PortsInterruptEnableAndNop : Prop :=
  (∀ port : Byte, RunsWithOperands (.inp port) [0xDB, port] .doc (fun s => { s with a := 0, pc := s.pc + 2 })) ∧
  (∀ port : Byte, RunsWithOperands (.out port) [0xD3, port] .doc (fun s => { s with pc := s.pc + 2 })) ∧
  RunsPlain .ei 0xFB .doc (fun s => { s with ie := true, pc := s.pc + 1 }) ∧
  RunsPlain .di 0xF3 .completion (fun s => { s with ie := false, pc := s.pc + 1 }) ∧
  RunsPlain .nop 0x00 .completion (fun s => { s with pc := s.pc + 1 })

/-- 30_encoding.md R91 (which bytes are absent is the spec's decision D3): an absent opcode, the halt among them, raises
`UnimplementedOpcode` with its byte and changes nothing else. (That the decoder reads it as one byte is the model's choice,
log entry 12.) -/
def Obligations.AbsentOpcodesRaise : Prop :=
  (∀ (b : Byte) (s : State), exec (.absent b) s = .next { s with fault := some (.unimplementedOpcode b) }) ∧
  (∀ s : State, exec .absentHlt s = .next { s with fault := some (.unimplementedOpcode 0x76) }) ∧
  (∀ b : Byte, b ∈ undocumentedBytes → decode [b] = .ok (.absent b, []) ∧ tierOf b = .absent) ∧
  decode [0x76] = .ok (.absentHlt, []) ∧ tierOf 0x76 = .absent

/-! ## Frames: what an instruction leaves unchanged -/

/-- 20_memory.md R51: an instruction changes no byte of memory but those it stores to, whose addresses are the operand
address, the two stack slots of its push, or the two bytes XTHL exchanges, all from the state before it. An instruction
or a form that stores nothing leaves all of memory. -/
def Obligations.MemoryFrame : Prop :=
  ∀ (i : Instr) (s t : State), exec i s = .next t →
    (∀ x : Nat, (x : Int) ∉ i.storesTo s → t.mem.read x = s.mem.read x) ∧
    (i.storesTo s = [] → t.mem = s.mem)

/-- 10_state.md R21, R23: an instruction leaves every register alone but its destinations, and `SP` unless its rule moves
it. -/
def Obligations.RegisterFrame : Prop :=
  ∀ (i : Instr) (s t : State), exec i s = .next t →
    (∀ r : Reg, r ∉ i.writes.regs → t.reg r = s.reg r) ∧
    (i.writes.sp = false → t.sp = s.sp)

/-- 10_state.md R32, R34: an instruction leaves every flag alone but those its row of the table lists; the logical
instructions that complete leave CY and AC at 0. -/
def Obligations.FlagFrame : Prop :=
  ∀ (i : Instr) (s t : State), exec i s = .next t →
    (i.writes.zsp = false → t.flags.z = s.flags.z ∧ t.flags.s = s.flags.s ∧ t.flags.p = s.flags.p) ∧
    (i.writes.cy = false → t.flags.cy = s.flags.cy) ∧
    (i.writes.ac = false → t.flags.ac = s.flags.ac) ∧
    (i.logical = true → s.fault = none → t.fault = none → t.flags.cy = false ∧ t.flags.ac = false)

/-- 43_control_transfer.md R200, first law: no control transfer writes a flag or a register other than `PC` and, for
calls, returns and RST, `SP`. -/
def Obligations.ControlTransfersWriteNoFlag : Prop :=
  ∀ (i : Instr) (s t : State), i.isTransfer = true → exec i s = .next t →
    t.flags = s.flags ∧ (∀ r : Reg, t.reg r = s.reg r) ∧ t.ie = s.ie ∧ (i.writes.sp = false → t.sp = s.sp)

/-- 10_state.md R35, R36: of the control state an instruction writes `IE` alone, and only EI and DI do; `last_fire`, the
parameters and the inputs are written by no instruction. -/
def Obligations.ControlStateFrame : Prop :=
  ∀ (i : Instr) (s t : State), exec i s = .next t →
    (i ≠ .ei → i ≠ .di → t.ie = s.ie) ∧
    t.lastFire = s.lastFire ∧ t.params = s.params ∧ t.env = s.env

/-! ## The interrupt (60_exceptions.md) -/

/-- R287: the poll fires exactly when `IE` is 1 and `now - last_fire ≥ PERIOD`; when it does not fire it changes nothing
at all. R288: when it fires with room for the push it clears `IE` and `last_fire` becomes `now` (the latter is derived by
the spec). -/
def Obligations.PollFiresExactlyOnItsCondition : Prop :=
  ∀ (s : State) (i : PollInputs),
    (¬ (s.ie = true ∧ s.params.period ≤ i.now - s.lastFire) → poll s i = s) ∧
    (s.ie = true ∧ s.params.period ≤ i.now - s.lastFire → 2 ≤ s.sp.toNat →
      (poll s i).ie = false ∧ (poll s i).lastFire = i.now)

/-- R288 (that `last_fire` becomes `now` is derived by the spec) and R291: the entry pushes `PC` as it stands, low byte at
`SP - 2`, goes to `8 * vector`, clears `IE` and changes nothing else; with `SP < 2` it raises and changes nothing but the
latch. -/
def Obligations.InterruptEntry : Prop :=
  ∀ (s : State) (i : PollInputs), s.ie = true → s.params.period ≤ i.now - s.lastFire →
    (2 ≤ s.sp.toNat → poll s i =
      { afterPush s s.pc (BitVec.ofNat 16 (8 * i.vector.toNat)) with ie := false, lastFire := i.now }) ∧
    (s.sp.toNat < 2 → poll s i =
      { s with fault := some (.outOfRangeMemoryAccess ((s.sp.toNat : Int) - 2)) })

/-- R293: after an entry an immediate second check does not fire, whatever the inputs. -/
def Obligations.NoSecondEntryUntilEnabled : Prop :=
  ∀ (s : State) (i j : PollInputs), s.fault = none → (poll s i).fault = none → poll s i ≠ s →
    poll (poll s i) j = poll s i

/-- R293 with R288 (that `last_fire` becomes `now` is derived by the spec): two entries are at least `PERIOD` apart in
`now`, over every step from every state that has the invariant, and a step that enters leaves interrupts disabled and
`PC` at `8 * vector`. -/
def Obligations.EntriesAreAPeriodApart : Prop :=
  ∀ s t : State, s.Inv → s.running → step s = .next t → t.lastFire ≠ s.lastFire →
    s.lastFire + s.params.period ≤ t.lastFire ∧ t.ie = false ∧ ∃ v : BitVec 3, t.pc = BitVec.ofNat 16 (8 * v.toNat)

/-- 70_reset_and_hazards.md R321 with 10_state.md R35: while `IE` is 0, no step but one that runs EI sets it or enters the
handler. -/
def Obligations.InterruptsStayOffUntilEI : Prop :=
  ∀ s t : State, s.running → s.ie = false → opcodeAt s ≠ 0xFB → step s = .next t →
    t.ie = false ∧ t.lastFire = s.lastFire

/-- 10_state.md R31 (AC as a stored bit is the spec's decision D7): `AC` stays 0 through every step whose opcode is not
POP PSW. -/
def Obligations.AuxiliaryCarryStaysZeroWithoutPopPsw : Prop :=
  ∀ s t : State, s.flags.ac = false → opcodeAt s ≠ 0xF1 → step s = .next t → t.flags.ac = false

/-! ## Outputs -/

/-- 10_state.md R43, 20_memory.md R68: the snapshot shows the named values, the export the bytes of its range (what it
answers for a place at or above `CAP`, where `mem` has no byte, is the model's choice, log entry 11). -/
def Obligations.OutputsShowTheState : Prop :=
  ∀ s : State,
    s.snapshot = { a := s.reg .a, b := s.reg .b, c := s.reg .c, d := s.reg .d, e := s.reg .e, h := s.reg .h,
                   l := s.reg .l, pc := s.pc, sp := s.sp, ie := s.ie, flags := s.flags } ∧
    s.faultOutput = s.fault ∧
    (∀ base n i : Nat, (s.exportRange base n).length = n ∧
      (i < n → (s.exportRange base n)[i]? = some (s.mem.read (base + i))))
end

