-- ==== Sys2Proof/Laws/Decode.lean ====
section
/-! SUPPORT. The laws of the byte-order helpers and of membership in the handler table. -/

namespace Sys2Proof

/-! ## The two bytes of a word -/

/-- A word is the join of its bytes (00_scope.md R8). -/
@[simp] theorem joinBytes_hiByte_loByte (v : Word) : joinBytes (hiByte v) (loByte v) = v := by
  apply BitVec.eq_of_getLsbD_eq
  intro i hi
  simp only [joinBytes, hiByte, loByte, BitVec.getLsbD_append, BitVec.getLsbD_extractLsb']
  by_cases h : i < 8
  · simp [h]
  · have h8 : i - 8 < 8 := by omega
    have : 8 + (i - 8) = i := by omega
    simp [h, h8, this]

@[simp] theorem hiByte_joinBytes (hi lo : Byte) : hiByte (joinBytes hi lo) = hi := by
  apply BitVec.eq_of_getLsbD_eq
  intro i h
  simp only [joinBytes, hiByte, BitVec.getLsbD_append, BitVec.getLsbD_extractLsb']
  simp [h]

@[simp] theorem loByte_joinBytes (hi lo : Byte) : loByte (joinBytes hi lo) = lo := by
  apply BitVec.eq_of_getLsbD_eq
  intro i h
  simp only [joinBytes, loByte, BitVec.getLsbD_append, BitVec.getLsbD_extractLsb']
  simp [h]

/-- The low byte is the word modulo 256. -/
theorem loByte_eq (v : Word) : loByte v = BitVec.ofNat 8 (v.toNat % 256) := by
  apply BitVec.eq_of_toNat_eq
  simp [loByte, BitVec.extractLsb'_toNat]

/-- The high byte is the word divided by 256. -/
theorem hiByte_eq (v : Word) : hiByte v = BitVec.ofNat 8 (v.toNat / 256) := by
  apply BitVec.eq_of_toNat_eq
  simp [hiByte, BitVec.extractLsb'_toNat, Nat.shiftRight_eq_div_pow]

/-! ## The handler table -/

/-- A byte of tier doc has a handler under every table (30_encoding.md R89). -/
theorem Machine.Params.inTable_doc (p : Params) {b : Byte} (h : tierOf b = .doc) : p.inTable b = true := by
  simp [Params.inTable, h]

/-- A byte of tier completion has a handler when the table lists it (30_encoding.md R89). -/
theorem Machine.Params.inTable_completion (p : Params) {b : Byte} (h : tierOf b = .completion) :
    p.inTable b = true ↔ b ∈ p.extra := by
  simp [Params.inTable, h]

/-- No absent byte has a handler (30_encoding.md R91). -/
theorem Machine.Params.inTable_absent (p : Params) {b : Byte} (h : tierOf b = .absent) : p.inTable b = false := by
  simp [Params.inTable, h]

/-- The thirteen bytes of 30_encoding.md R91 are absent. -/
theorem tierOf_absent {b : Byte} (h : b ∈ undocumentedBytes ∨ b = 0x76) : tierOf b = .absent := by
  simp only [undocumentedBytes, List.mem_cons, List.not_mem_nil, or_false] at h
  rcases h with (rfl | rfl | rfl | rfl | rfl | rfl | rfl | rfl | rfl | rfl | rfl | rfl) | rfl <;> rfl

theorem tierOf_tableDoc {b : Byte} (h : b ∈ tableDoc) : tierOf b = .doc := by
  have all : (tableDoc.all fun b => tierOf b == .doc) = true := by decide +kernel
  simpa using List.all_eq_true.mp all b h

theorem tierOf_tableCompletion {b : Byte} (h : b ∈ tableCompletion) : tierOf b = .completion := by
  have all : (tableCompletion.all fun b => tierOf b == .completion) = true := by decide +kernel
  simpa using List.all_eq_true.mp all b h

end Sys2Proof
end

