-- ==== Sys2Proof/Laws/Memory.lean ====
section
/-! SUPPORT. The laws of the memory array: a read after a write, and that every operation keeps the canonical form. -/

namespace Sys2Proof.Machine

/-- An address below every listed one reads as an unlisted address. -/
theorem Memory.read_of_lt {m : Memory} {x : Nat} (h : ∀ c ∈ m, x < c.1) : m.read x = unlistedByte := by
  induction m with
  | nil => rfl
  | cons c m ih =>
    have hc : x < c.1 := h c (by simp)
    have hne : ¬ c.1 = x := by omega
    simp only [Memory.read, hne, if_false]
    exact ih (fun c' hc' => h c' (by simp [hc']))

/-- A byte reads back as it was stored, where the addresses rise. -/
theorem Memory.read_write_self {m : Memory} (hm : m.Pairwise (fun c c' => c.1 < c'.1)) (x : Nat) (v : Byte) :
    (m.write x v).read x = v := by
  induction m with
  | nil => by_cases hv : v = unlistedByte <;> simp [Memory.write, Memory.read, hv]
  | cons c m ih =>
    obtain ⟨hlt, hm⟩ := List.pairwise_cons.mp hm
    simp only [Memory.write]
    split
    · rename_i hx
      split
      · rename_i hv
        have hne : ¬ c.1 = x := by omega
        simp only [Memory.read, hne, if_false]
        rw [hv]
        exact Memory.read_of_lt (fun c' hc' => by have := hlt c' hc'; omega)
      · simp [Memory.read]
    · split
      · rename_i hx
        split
        · rename_i hv
          rw [hv]
          exact Memory.read_of_lt (fun c' hc' => by have := hlt c' hc'; omega)
        · simp [Memory.read]
      · rename_i hx
        have hne : ¬ c.1 = x := fun h => hx h.symm
        simp only [Memory.read, hne, if_false]
        exact ih hm

/-- A write leaves every other address as it was. -/
theorem Memory.read_write_of_ne (m : Memory) {x y : Nat} (v : Byte) (h : y ≠ x) :
    (m.write x v).read y = m.read y := by
  induction m with
  | nil =>
    have h' : ¬ x = y := fun e => h e.symm
    by_cases hv : v = unlistedByte <;> simp [Memory.write, Memory.read, hv, h']
  | cons c m ih =>
    have h' : ¬ x = y := fun e => h e.symm
    simp only [Memory.write]
    split
    · split <;> simp [Memory.read, h']
    · split
      · rename_i hx
        have hc : ¬ c.1 = y := by omega
        split <;> simp [Memory.read, h', hc]
      · simp only [Memory.read, ih]

/-- The cells of a memory after a write: the cell written, or one that was there. -/
theorem Memory.mem_write {m : Memory} {x : Nat} {v : Byte} {c : Host.Cell} (h : c ∈ m.write x v) :
    (c = (x, v) ∧ v ≠ unlistedByte) ∨ c ∈ m := by
  induction m with
  | nil =>
    by_cases hv : v = unlistedByte
    · simp [Memory.write, hv] at h
    · simp [Memory.write, hv] at h
      exact .inl ⟨h, hv⟩
  | cons c' m ih =>
    simp only [Memory.write] at h
    split at h
    · split at h
      · exact .inr h
      · rename_i hv
        rcases List.mem_cons.mp h with h | h
        · exact .inl ⟨h, hv⟩
        · exact .inr h
    · split at h
      · split at h
        · exact .inr (List.mem_cons_of_mem _ h)
        · rename_i hv
          rcases List.mem_cons.mp h with h | h
          · exact .inl ⟨h, hv⟩
          · exact .inr (List.mem_cons_of_mem _ h)
      · rcases List.mem_cons.mp h with h | h
        · exact .inr (by simp [h])
        · rcases ih h with h | h
          · exact .inl h
          · exact .inr (List.mem_cons_of_mem _ h)

theorem Memory.pairwise_write {m : Memory} (hm : m.Pairwise (fun c c' => c.1 < c'.1)) (x : Nat) (v : Byte) :
    (m.write x v).Pairwise (fun c c' => c.1 < c'.1) := by
  induction m with
  | nil => by_cases hv : v = unlistedByte <;> simp [Memory.write, hv]
  | cons c m ih =>
    obtain ⟨hlt, hm'⟩ := List.pairwise_cons.mp hm
    simp only [Memory.write]
    split
    · split
      · exact hm
      · rename_i hx _
        refine List.pairwise_cons.mpr ⟨fun c' hc' => ?_, hm⟩
        rcases List.mem_cons.mp hc' with h | h
        · simpa [h] using hx
        · have := hlt c' h
          simp only
          omega
    · split
      · rename_i hx
        split
        · exact hm'
        · exact List.pairwise_cons.mpr ⟨fun c' hc' => by have := hlt c' hc'; simp only; omega, hm'⟩
      · rename_i hnlt hne
        refine List.pairwise_cons.mpr ⟨fun c' hc' => ?_, ih hm'⟩
        rcases Memory.mem_write hc' with ⟨rfl, _⟩ | h
        · simp only at hnlt hne ⊢
          omega
        · exact hlt c' h

/-- A write to an address that exists keeps the canonical form. -/
theorem Memory.wf_write {m : Memory} (hm : m.wf) {x : Nat} (hx : x < cap) (v : Byte) : (m.write x v).wf := by
  refine ⟨Memory.pairwise_write hm.1 x v, fun c hc => ?_⟩
  rcases Memory.mem_write hc with ⟨rfl, hv⟩ | h
  · exact ⟨hx, hv⟩
  · exact hm.2 c h

theorem Memory.mem_ofBytes {vs : List Byte} {base : Nat} {c : Host.Cell} (h : c ∈ Memory.ofBytes base vs) :
    base ≤ c.1 ∧ c.1 < base + vs.length ∧ c.2 ≠ unlistedByte := by
  induction vs generalizing base with
  | nil => simp [Memory.ofBytes] at h
  | cons v vs ih =>
    simp only [Memory.ofBytes] at h
    simp only [List.length_cons]
    split at h
    · obtain ⟨h1, h2, h3⟩ := ih h
      exact ⟨by omega, by omega, h3⟩
    · rename_i hv
      rcases List.mem_cons.mp h with rfl | h
      · exact ⟨Nat.le_refl _, by simp, hv⟩
      · obtain ⟨h1, h2, h3⟩ := ih h
        exact ⟨by omega, by omega, h3⟩

/-- A list of bytes that fits in memory is loaded in canonical form. -/
theorem Memory.wf_ofBytes {vs : List Byte} {base : Nat} (h : base + vs.length ≤ cap) :
    (Memory.ofBytes base vs).wf := by
  refine ⟨?_, fun c hc => ?_⟩
  · clear h
    induction vs generalizing base with
    | nil => simp [Memory.ofBytes]
    | cons v vs ih =>
      simp only [Memory.ofBytes]
      split
      · exact ih
      · exact List.pairwise_cons.mpr ⟨fun c hc => by have := Memory.mem_ofBytes hc; simp only; omega, ih⟩
  · have := Memory.mem_ofBytes hc
    exact ⟨by omega, this.2.2⟩

/-- A loaded list of bytes reads as itself, and as zero around it (70_reset_and_hazards.md R322). -/
theorem Memory.read_ofBytes (vs : List Byte) (base x : Nat) :
    (Memory.ofBytes base vs).read x = if base ≤ x then vs.getD (x - base) 0 else 0 := by
  induction vs generalizing base x with
  | nil => simp [Memory.ofBytes, Memory.read, unlistedByte]
  | cons v vs ih =>
    have hbelow : (Memory.ofBytes (base + 1) vs).read base = 0 := by
      rw [ih, if_neg (by omega)]
    simp only [Memory.ofBytes]
    by_cases hx : x = base
    · subst hx
      by_cases hv : v = unlistedByte
      · simp [hv, hbelow, unlistedByte]
      · simp [hv, Memory.read]
    · have hstep : x - base = x - (base + 1) + 1 ∨ ¬ base ≤ x := by omega
      have hne : ¬ base = x := fun h => hx h.symm
      have hread : (Memory.ofBytes (base + 1) vs).read x = if base ≤ x then (v :: vs).getD (x - base) 0 else 0 := by
        rw [ih]
        rcases hstep with h | h
        · rw [h]
          by_cases hle : base ≤ x
          · simp [hle, show base + 1 ≤ x by omega]
          · simp [hle, show ¬ base + 1 ≤ x by omega]
        · simp [h, show ¬ base + 1 ≤ x by omega]
      by_cases hv : v = unlistedByte
      · rw [if_pos hv, hread]
      · rw [if_neg hv]
        simp only [Memory.read, hne, if_false, hread]

/-- Placing a program keeps the canonical form. -/
theorem placeByte_wf {m : Memory} (hm : m.wf) (x : Nat) (v : Byte) : (placeByte m x v).wf := by
  unfold placeByte
  split
  · exact Memory.wf_write hm ‹_› v
  · exact hm

theorem placeBytes_wf {m : Memory} (hm : m.wf) (x : Nat) (vs : List Byte) : (placeBytes m x vs).wf := by
  induction vs generalizing m x with
  | nil => exact hm
  | cons v vs ih => exact ih (placeByte_wf hm x v) (x + 1)

/-- `MemWrite` keeps the canonical form. -/
theorem memWrite_wf {s t : State} {x : Int} {v : Byte} (hm : s.mem.wf) (h : memWrite s x v = .ok t) : t.mem.wf := by
  unfold memWrite at h
  split at h
  · rename_i hx
    cases h
    exact Memory.wf_write hm (by have := hx.2; have := hx.1; omega) v
  · cases h

theorem reset_mem_wf : State.reset.mem.wf := by decide

end Sys2Proof.Machine
end

