-- ==== Sys2Proof/Laws/State.lean ====
section
/-! SUPPORT. What each update of the state leaves alone: one lemma per field and update, so that no later proof unfolds
a record update. -/

namespace Sys2Proof.Machine

/-! ## Fields after `setReg` -/

@[simp] theorem State.setReg_sp (s : State) (r : Reg) (v : Byte) : (s.setReg r v).sp = s.sp := by cases r <;> rfl
@[simp] theorem State.setReg_pc (s : State) (r : Reg) (v : Byte) : (s.setReg r v).pc = s.pc := by cases r <;> rfl
@[simp] theorem State.setReg_flags (s : State) (r : Reg) (v : Byte) : (s.setReg r v).flags = s.flags := by
  cases r <;> rfl
@[simp] theorem State.setReg_ie (s : State) (r : Reg) (v : Byte) : (s.setReg r v).ie = s.ie := by cases r <;> rfl
@[simp] theorem State.setReg_lastFire (s : State) (r : Reg) (v : Byte) : (s.setReg r v).lastFire = s.lastFire := by
  cases r <;> rfl
@[simp] theorem State.setReg_fault (s : State) (r : Reg) (v : Byte) : (s.setReg r v).fault = s.fault := by
  cases r <;> rfl
@[simp] theorem State.setReg_mem (s : State) (r : Reg) (v : Byte) : (s.setReg r v).mem = s.mem := by cases r <;> rfl
@[simp] theorem State.setReg_params (s : State) (r : Reg) (v : Byte) : (s.setReg r v).params = s.params := by
  cases r <;> rfl
@[simp] theorem State.setReg_env (s : State) (r : Reg) (v : Byte) : (s.setReg r v).env = s.env := by cases r <;> rfl

/-- A register reads back what was written to it. -/
@[simp] theorem State.reg_setReg_self (s : State) (r : Reg) (v : Byte) : (s.setReg r v).reg r = v := by
  cases r <;> rfl

/-- Writing a register leaves every other register alone. -/
theorem State.reg_setReg_of_ne (s : State) {r r' : Reg} (v : Byte) (h : r' ≠ r) :
    (s.setReg r v).reg r' = s.reg r' := by
  cases r <;> cases r' <;> first | rfl | exact absurd rfl h

/-! ## Fields after `setPair` -/

@[simp] theorem State.setPair_sp (s : State) (q : Pair) (v : Word) : (s.setPair q v).sp = s.sp := by cases q <;> rfl
@[simp] theorem State.setPair_pc (s : State) (q : Pair) (v : Word) : (s.setPair q v).pc = s.pc := by cases q <;> rfl
@[simp] theorem State.setPair_flags (s : State) (q : Pair) (v : Word) : (s.setPair q v).flags = s.flags := by
  cases q <;> rfl
@[simp] theorem State.setPair_ie (s : State) (q : Pair) (v : Word) : (s.setPair q v).ie = s.ie := by cases q <;> rfl
@[simp] theorem State.setPair_lastFire (s : State) (q : Pair) (v : Word) : (s.setPair q v).lastFire = s.lastFire := by
  cases q <;> rfl
@[simp] theorem State.setPair_fault (s : State) (q : Pair) (v : Word) : (s.setPair q v).fault = s.fault := by
  cases q <;> rfl
@[simp] theorem State.setPair_mem (s : State) (q : Pair) (v : Word) : (s.setPair q v).mem = s.mem := by cases q <;> rfl
@[simp] theorem State.setPair_params (s : State) (q : Pair) (v : Word) : (s.setPair q v).params = s.params := by
  cases q <;> rfl
@[simp] theorem State.setPair_env (s : State) (q : Pair) (v : Word) : (s.setPair q v).env = s.env := by cases q <;> rfl
@[simp] theorem State.setPair_a (s : State) (q : Pair) (v : Word) : (s.setPair q v).a = s.a := by cases q <;> rfl

/-! ## Fields after `raise` -/

@[simp] theorem State.raise_fault (s : State) (f : Fault) : (s.raise f).fault = some f := rfl
@[simp] theorem State.raise_reg (s : State) (f : Fault) (r : Reg) : (s.raise f).reg r = s.reg r := by cases r <;> rfl
@[simp] theorem State.raise_sp (s : State) (f : Fault) : (s.raise f).sp = s.sp := rfl
@[simp] theorem State.raise_pc (s : State) (f : Fault) : (s.raise f).pc = s.pc := rfl
@[simp] theorem State.raise_flags (s : State) (f : Fault) : (s.raise f).flags = s.flags := rfl
@[simp] theorem State.raise_ie (s : State) (f : Fault) : (s.raise f).ie = s.ie := rfl
@[simp] theorem State.raise_lastFire (s : State) (f : Fault) : (s.raise f).lastFire = s.lastFire := rfl
@[simp] theorem State.raise_mem (s : State) (f : Fault) : (s.raise f).mem = s.mem := rfl
@[simp] theorem State.raise_params (s : State) (f : Fault) : (s.raise f).params = s.params := rfl
@[simp] theorem State.raise_env (s : State) (f : Fault) : (s.raise f).env = s.env := rfl

/-! ## Flags after each write -/

@[simp] theorem Flags.setZSP_cy (f : Flags) (v : Byte) : (f.setZSP v).cy = f.cy := rfl
@[simp] theorem Flags.setZSP_ac (f : Flags) (v : Byte) : (f.setZSP v).ac = f.ac := rfl
@[simp] theorem Flags.setCY_cy (f : Flags) (x : Bool) : (f.setCY x).cy = x := rfl
@[simp] theorem Flags.setCY_ac (f : Flags) (x : Bool) : (f.setCY x).ac = f.ac := rfl
@[simp] theorem Flags.setCY_z (f : Flags) (x : Bool) : (f.setCY x).z = f.z := rfl
@[simp] theorem Flags.setCY_s (f : Flags) (x : Bool) : (f.setCY x).s = f.s := rfl
@[simp] theorem Flags.setCY_p (f : Flags) (x : Bool) : (f.setCY x).p = f.p := rfl
@[simp] theorem Flags.setAC_ac (f : Flags) (x : Bool) : (f.setAC x).ac = x := rfl
@[simp] theorem Flags.setAC_cy (f : Flags) (x : Bool) : (f.setAC x).cy = f.cy := rfl

end Sys2Proof.Machine
end

