-- ==== Sys2Proof/Laws/Ops.lean ====
section
/-! SUPPORT. What each shared operation can answer, said once. -/

namespace Sys2Proof.Machine

/-! ## The result of an instruction -/

@[simp] theorem settle_ok (s t : State) : settle s (.ok t) = .next t := rfl
@[simp] theorem settle_error (s : State) (f : Fault) : settle s (.error f) = .next (s.raise f) := rfl
@[simp] theorem except_ok_bind {α β : Type} (x : α) (k : α → Except Fault β) : (Except.ok x >>= k) = k x := rfl
@[simp] theorem except_error_bind {α β : Type} (f : Fault) (k : α → Except Fault β) :
    ((Except.error f : Except Fault α) >>= k) = .error f := rfl

/-- A sequence succeeds only when both parts do. -/
theorem except_bind_eq_ok {α β : Type} {x : Except Fault α} {k : α → Except Fault β} {t : β}
    (h : (x >>= k) = .ok t) : ∃ y, x = .ok y ∧ k y = .ok t := by
  cases x with
  | ok y => exact ⟨y, rfl, h⟩
  | error f => cases h

/-- A sequence fails where its first or its second part does. -/
theorem except_bind_eq_error {α β : Type} {x : Except Fault α} {k : α → Except Fault β} {f : Fault}
    (h : (x >>= k) = .error f) : x = .error f ∨ ∃ y, x = .ok y ∧ k y = .error f := by
  cases x with
  | ok y => exact .inr ⟨y, rfl, h⟩
  | error g => cases h; exact .inl rfl

/-! ## The next PC -/

theorem nextPC_ok {s : State} {n : Nat} (h : s.pc.toNat + n < 65536) :
    nextPC s n = .ok (s.pc + BitVec.ofNat 16 n) := by
  simp [nextPC, h, BitVec.ofNat_add]

theorem nextPC_error {s : State} {n : Nat} (h : 65536 ≤ s.pc.toNat + n) :
    nextPC s n = .error (.outOfRangeMemoryAccess (s.pc.toNat + n : Int)) := by
  simp [nextPC, Nat.not_lt.mpr h]

/-! ## Memory accesses -/

theorem memRead_nat {s : State} {x : Nat} (h : x < 65536) : memRead s (x : Int) = .ok (s.mem.read x) := by
  simp only [memRead, inRange, cap]
  rw [if_pos (by omega)]
  simp

theorem memWrite_nat {s : State} {x : Nat} (h : x < 65536) (v : Byte) :
    memWrite s (x : Int) v = .ok { s with mem := s.mem.write x v } := by
  simp only [memWrite, inRange, cap]
  rw [if_pos (by omega)]
  simp

theorem memRead_out {s : State} {x : Int} (h : x < 0 ∨ 65536 ≤ x) :
    memRead s x = .error (.outOfRangeMemoryAccess x) := by
  simp only [memRead, inRange, cap]
  rw [if_neg (by omega)]

theorem memWrite_out {s : State} {x : Int} (h : x < 0 ∨ 65536 ≤ x) (v : Byte) :
    memWrite s x v = .error (.outOfRangeMemoryAccess x) := by
  simp only [memWrite, inRange, cap]
  rw [if_neg (by omega)]

/-- An access through a pair or a 16-bit immediate is always in range (60_exceptions.md R282). -/
@[simp] theorem memRead_addr (s : State) (w : Word) : memRead s (addr w) = .ok (s.mem.read w.toNat) :=
  memRead_nat w.isLt

@[simp] theorem memWrite_addr (s : State) (w : Word) (v : Byte) :
    memWrite s (addr w) v = .ok { s with mem := s.mem.write w.toNat v } :=
  memWrite_nat w.isLt v

theorem memReadWord_nat {s : State} {x : Nat} (h : x + 1 < 65536) :
    memReadWord s (x : Int) = .ok (joinBytes (s.mem.read (x + 1)) (s.mem.read x)) := by
  have h1 : memRead s ((x : Int) + 1) = .ok (s.mem.read (x + 1)) := memRead_nat (x := x + 1) h
  simp [memReadWord, memRead_nat (show x < 65536 by omega), h1]

theorem memWriteWord_nat {s : State} {x : Nat} (h : x + 1 < 65536) (v : Word) :
    memWriteWord s (x : Int) v =
      .ok { s with mem := (s.mem.write x (loByte v)).write (x + 1) (hiByte v) } := by
  have h1 (t : State) : memWrite t ((x : Int) + 1) (hiByte v) = .ok { t with mem := t.mem.write (x + 1) (hiByte v) } :=
    memWrite_nat (x := x + 1) h _
  simp [memWriteWord, memWrite_nat (show x < 65536 by omega), h1]

/-- A word access whose second byte would lie past the top of memory. -/
theorem memReadWord_top {s : State} : memReadWord s 65535 = .error (.outOfRangeMemoryAccess 65536) := by
  have h1 : memRead s (65535 : Int) = .ok (s.mem.read 65535) := memRead_nat (x := 65535) (by decide)
  have h2 : memRead s (65535 + 1 : Int) = .error (.outOfRangeMemoryAccess 65536) := memRead_out (by omega)
  simp only [memReadWord, h1, h2, except_ok_bind, except_error_bind]

theorem memWriteWord_top {s : State} (v : Word) :
    memWriteWord s 65535 v = .error (.outOfRangeMemoryAccess 65536) := by
  have h1 : memWrite s (65535 : Int) (loByte v) = .ok { s with mem := s.mem.write 65535 (loByte v) } :=
    memWrite_nat (x := 65535) (by decide) _
  have h2 (t : State) : memWrite t (65535 + 1 : Int) (hiByte v) = .error (.outOfRangeMemoryAccess 65536) :=
    memWrite_out (by omega) _
  simp only [memWriteWord, h1, h2, except_ok_bind]

/-! ## The stack -/

theorem push16_ok {s : State} (h : 2 ≤ s.sp.toNat) (v : Word) :
    push16 s v = .ok { s with
      mem := (s.mem.write (s.sp.toNat - 2) (loByte v)).write (s.sp.toNat - 1) (hiByte v)
      sp := s.sp - 2 } := by
  have hlt := s.sp.isLt
  have hx : addr s.sp - 2 = ((s.sp.toNat - 2 : Nat) : Int) := by simp only [addr]; omega
  have hsp : BitVec.ofInt 16 ((s.sp.toNat - 2 : Nat) : Int) = s.sp - 2 := by
    apply BitVec.eq_of_toNat_eq
    simp [BitVec.toNat_sub]
    omega
  have h1 : s.sp.toNat - 2 + 1 = s.sp.toNat - 1 := by omega
  simp only [push16, hx, memWriteWord_nat (s := s) (show s.sp.toNat - 2 + 1 < 65536 by omega) v, except_ok_bind, hsp, h1]

theorem push16_error {s : State} (h : s.sp.toNat < 2) (v : Word) :
    push16 s v = .error (.outOfRangeMemoryAccess ((s.sp.toNat : Int) - 2)) := by
  simp only [push16, memWriteWord, addr, memWrite_out (show ((s.sp.toNat : Int) - 2 < 0 ∨ _) from .inl (by omega)),
    except_error_bind]

theorem pop16_ok {s : State} (h : s.sp.toNat + 2 < 65536) :
    pop16 s = .ok (joinBytes (s.mem.read (s.sp.toNat + 1)) (s.mem.read s.sp.toNat), { s with sp := s.sp + 2 }) := by
  have hsp : BitVec.ofNat 16 (s.sp.toNat + 2) = s.sp + 2 := by simp [BitVec.ofNat_add]
  simp only [pop16, addr, memReadWord_nat (s := s) (show s.sp.toNat + 1 < 65536 by omega), except_ok_bind, cap, h, if_pos,
    hsp]

theorem pop16_error {s : State} (h : 65536 ≤ s.sp.toNat + 2) :
    pop16 s = .error (.outOfRangeMemoryAccess 65536) := by
  have hlt := s.sp.isLt
  by_cases htop : s.sp.toNat = 65535
  · simp only [pop16, addr, htop]
    rw [show ((65535 : Nat) : Int) = 65535 from rfl, memReadWord_top]
    rfl
  · have hx : s.sp.toNat = 65534 := by omega
    simp only [pop16, addr, hx, memReadWord_nat (s := s) (show 65534 + 1 < 65536 by decide), except_ok_bind, cap]
    rfl

/-! ## The shared shapes -/

theorem thenNext_ok {s : State} {n : Nat} (h : s.pc.toNat + n < 65536) (effect : State → State) :
    thenNext s n effect = .ok { effect s with pc := s.pc + BitVec.ofNat 16 n } := by
  simp [thenNext, nextPC_ok h]

theorem thenNext_error {s : State} {n : Nat} (h : 65536 ≤ s.pc.toNat + n) (effect : State → State) :
    thenNext s n effect = .error (.outOfRangeMemoryAccess (s.pc.toNat + n : Int)) := by
  simp [thenNext, nextPC_error h]

theorem withM_ok {s : State} (h : s.pc.toNat + 1 < 65536) (effect : State → Byte → State) :
    withM s effect = .ok { effect s (s.mem.read s.hl.toNat) with pc := s.pc + 1 } := by
  simp [withM, nextPC_ok h]

theorem withM_error {s : State} (h : 65536 ≤ s.pc.toNat + 1) (effect : State → Byte → State) :
    withM s effect = .error (.outOfRangeMemoryAccess (s.pc.toNat + 1 : Int)) := by
  simp [withM, nextPC_error h]

theorem storeNext_ok {s : State} {n : Nat} (h : s.pc.toNat + n < 65536) (x : Word) (v : Byte) :
    storeNext s n x v = .ok { s with mem := s.mem.write x.toNat v, pc := s.pc + BitVec.ofNat 16 n } := by
  simp [storeNext, nextPC_ok h]

theorem storeNext_error {s : State} {n : Nat} (h : 65536 ≤ s.pc.toNat + n) (x : Word) (v : Byte) :
    storeNext s n x v = .error (.outOfRangeMemoryAccess (s.pc.toNat + n : Int)) := by
  simp [storeNext, nextPC_error h]

theorem updateM_ok {s : State} (h : s.pc.toNat + 1 < 65536) (change : Byte → Byte) :
    updateM s change = .ok { s with
      mem := s.mem.write s.hl.toNat (change (s.mem.read s.hl.toNat))
      flags := s.flags.setZSP (change (s.mem.read s.hl.toNat))
      pc := s.pc + 1 } := by
  simp [updateM, nextPC_ok h]

theorem updateM_error {s : State} (h : 65536 ≤ s.pc.toNat + 1) (change : Byte → Byte) :
    updateM s change = .error (.outOfRangeMemoryAccess (s.pc.toNat + 1 : Int)) := by
  simp [updateM, nextPC_error h]

theorem returnFromStack_ok {s : State} (h : s.sp.toNat + 2 < 65536) :
    returnFromStack s = .ok { s with
      sp := s.sp + 2
      pc := joinBytes (s.mem.read (s.sp.toNat + 1)) (s.mem.read s.sp.toNat) } := by
  simp [returnFromStack, pop16_ok h]

theorem returnFromStack_error {s : State} (h : 65536 ≤ s.sp.toNat + 2) :
    returnFromStack s = .error (.outOfRangeMemoryAccess 65536) := by
  simp [returnFromStack, pop16_error h]

/-! ## Parameters -/

/-- Legal parameters give the machine in its reset state, the image in memory (00_scope.md R7). -/
theorem State.boot_legal {p : Params} (h : p.legal) (script : List Input) :
    State.boot p script = some { State.reset with
      mem := Memory.ofBytes 0 p.rom
      params := p
      env := { now := 0, polls := 0, script := script } } :=
  if_pos h

/-- An image that does not fit and a period of 0 give none (93_implementation_defined.md U10, U12). -/
theorem State.boot_illegal {p : Params} (h : ¬ p.legal) (script : List Input) : State.boot p script = none :=
  if_neg h

/-! ## What a successful operation has done

Each says, once, everything an operation can have done when it answers a state; callers cite it and unfold nothing. -/

/-- An instruction that answers a state has run whole, or has taken a fault and done nothing else. -/
theorem settle_cases {s t : State} {r : Except Fault State} (h : settle s r = .next t) :
    r = .ok t ∨ ∃ f, r = .error f ∧ t = s.raise f := by
  cases r with
  | ok u => exact .inl (by cases h; rfl)
  | error f => exact .inr ⟨f, rfl, by cases h; rfl⟩

theorem nextPC_cases {s : State} {n : Nat} {v : Word} (h : nextPC s n = .ok v) :
    s.pc.toNat + n < 65536 ∧ v = s.pc + BitVec.ofNat 16 n := by
  by_cases hn : s.pc.toNat + n < 65536
  · rw [nextPC_ok hn] at h
    cases h
    exact ⟨hn, rfl⟩
  · rw [nextPC_error (by omega)] at h
    cases h

theorem thenNext_cases {s t : State} {n : Nat} {effect : State → State} (h : thenNext s n effect = .ok t) :
    s.pc.toNat + n < 65536 ∧ t = { effect s with pc := s.pc + BitVec.ofNat 16 n } := by
  by_cases hn : s.pc.toNat + n < 65536
  · rw [thenNext_ok hn] at h
    cases h
    exact ⟨hn, rfl⟩
  · rw [thenNext_error (by omega)] at h
    cases h

theorem withM_cases {s t : State} {effect : State → Byte → State} (h : withM s effect = .ok t) :
    s.pc.toNat + 1 < 65536 ∧ t = { effect s (s.mem.read s.hl.toNat) with pc := s.pc + 1 } := by
  by_cases hn : s.pc.toNat + 1 < 65536
  · rw [withM_ok hn] at h
    cases h
    exact ⟨hn, rfl⟩
  · rw [withM_error (by omega)] at h
    cases h

theorem storeNext_cases {s t : State} {n : Nat} {x : Word} {v : Byte} (h : storeNext s n x v = .ok t) :
    s.pc.toNat + n < 65536 ∧ t = { s with mem := s.mem.write x.toNat v, pc := s.pc + BitVec.ofNat 16 n } := by
  by_cases hn : s.pc.toNat + n < 65536
  · rw [storeNext_ok hn] at h
    cases h
    exact ⟨hn, rfl⟩
  · rw [storeNext_error (by omega)] at h
    cases h

theorem updateM_cases {s t : State} {change : Byte → Byte} (h : updateM s change = .ok t) :
    s.pc.toNat + 1 < 65536 ∧ t = { s with
      mem := s.mem.write s.hl.toNat (change (s.mem.read s.hl.toNat))
      flags := s.flags.setZSP (change (s.mem.read s.hl.toNat))
      pc := s.pc + 1 } := by
  by_cases hn : s.pc.toNat + 1 < 65536
  · rw [updateM_ok hn] at h
    cases h
    exact ⟨hn, rfl⟩
  · rw [updateM_error (by omega)] at h
    cases h

theorem push16_cases {s t : State} {v : Word} (h : push16 s v = .ok t) :
    2 ≤ s.sp.toNat ∧ t = { s with
      mem := (s.mem.write (s.sp.toNat - 2) (loByte v)).write (s.sp.toNat - 1) (hiByte v)
      sp := s.sp - 2 } := by
  by_cases hn : 2 ≤ s.sp.toNat
  · rw [push16_ok hn] at h
    cases h
    exact ⟨hn, rfl⟩
  · rw [push16_error (by omega)] at h
    cases h

theorem pop16_cases {s t : State} {v : Word} (h : pop16 s = .ok (v, t)) :
    s.sp.toNat + 2 < 65536 ∧ v = joinBytes (s.mem.read (s.sp.toNat + 1)) (s.mem.read s.sp.toNat) ∧
      t = { s with sp := s.sp + 2 } := by
  by_cases hn : s.sp.toNat + 2 < 65536
  · rw [pop16_ok hn] at h
    cases h
    exact ⟨hn, rfl, rfl⟩
  · rw [pop16_error (by omega)] at h
    cases h

theorem returnFromStack_cases {s t : State} (h : returnFromStack s = .ok t) :
    s.sp.toNat + 2 < 65536 ∧ t = { s with
      sp := s.sp + 2
      pc := joinBytes (s.mem.read (s.sp.toNat + 1)) (s.mem.read s.sp.toNat) } := by
  by_cases hn : s.sp.toNat + 2 < 65536
  · rw [returnFromStack_ok hn] at h
    cases h
    exact ⟨hn, rfl⟩
  · rw [returnFromStack_error (by omega)] at h
    cases h

/-- A conditional jump changes `PC` alone. -/
theorem jumpIf_cases {s t : State} {cond : Cond} {a : Word} (h : jumpIf cond a s = .ok t) :
    (s.flags.holds cond = true ∧ t = { s with pc := a }) ∨
    (s.flags.holds cond = false ∧ s.pc.toNat + 3 < 65536 ∧ t = { s with pc := s.pc + 3 }) := by
  unfold jumpIf at h
  split at h <;> rename_i hc
  · cases h
    exact .inl ⟨hc, rfl⟩
  · obtain ⟨hn, rfl⟩ := thenNext_cases h
    exact .inr ⟨by simpa using hc, hn, rfl⟩

theorem callTo_cases {s t : State} {a : Word} (h : callTo a s = .ok t) :
    s.pc.toNat + 3 < 65536 ∧ 2 ≤ s.sp.toNat ∧ t = { s with
      mem := (s.mem.write (s.sp.toNat - 2) (loByte (s.pc + 3))).write (s.sp.toNat - 1) (hiByte (s.pc + 3))
      sp := s.sp - 2
      pc := a } := by
  obtain ⟨n, hn, h⟩ := except_bind_eq_ok h
  obtain ⟨u, hu, h⟩ := except_bind_eq_ok h
  obtain ⟨hpc, rfl⟩ := nextPC_cases hn
  obtain ⟨hsp, rfl⟩ := push16_cases hu
  cases h
  exact ⟨hpc, hsp, rfl⟩

theorem callIf_cases {s t : State} {cond : Cond} {a : Word} (h : callIf cond a s = .ok t) :
    s.pc.toNat + 3 < 65536 ∧
    ((s.flags.holds cond = true ∧ 2 ≤ s.sp.toNat ∧ t = { s with
      mem := (s.mem.write (s.sp.toNat - 2) (loByte (s.pc + 3))).write (s.sp.toNat - 1) (hiByte (s.pc + 3))
      sp := s.sp - 2
      pc := a }) ∨
    (s.flags.holds cond = false ∧ t = { s with pc := s.pc + 3 })) := by
  obtain ⟨n, hn, h⟩ := except_bind_eq_ok h
  obtain ⟨hpc, rfl⟩ := nextPC_cases hn
  refine ⟨hpc, ?_⟩
  split at h <;> rename_i hc
  · obtain ⟨u, hu, h⟩ := except_bind_eq_ok h
    obtain ⟨hsp, rfl⟩ := push16_cases hu
    cases h
    exact .inl ⟨hc, hsp, rfl⟩
  · cases h
    exact .inr ⟨by simpa using hc, rfl⟩

theorem returnIf_cases {s t : State} {cond : Cond} (h : returnIf cond s = .ok t) :
    (s.flags.holds cond = true ∧ s.sp.toNat + 2 < 65536 ∧ t = { s with
      sp := s.sp + 2
      pc := joinBytes (s.mem.read (s.sp.toNat + 1)) (s.mem.read s.sp.toNat) }) ∨
    (s.flags.holds cond = false ∧ s.pc.toNat + 1 < 65536 ∧ t = { s with pc := s.pc + 1 }) := by
  unfold returnIf at h
  split at h <;> rename_i hc
  · obtain ⟨hn, rfl⟩ := returnFromStack_cases h
    exact .inl ⟨hc, hn, rfl⟩
  · obtain ⟨hn, rfl⟩ := thenNext_cases h
    exact .inr ⟨by simpa using hc, hn, rfl⟩

theorem pushNext_cases {s t : State} {v : Word} (h : pushNext v s = .ok t) :
    s.pc.toNat + 1 < 65536 ∧ 2 ≤ s.sp.toNat ∧ t = { s with
      mem := (s.mem.write (s.sp.toNat - 2) (loByte v)).write (s.sp.toNat - 1) (hiByte v)
      sp := s.sp - 2
      pc := s.pc + 1 } := by
  obtain ⟨n, hn, h⟩ := except_bind_eq_ok h
  obtain ⟨u, hu, h⟩ := except_bind_eq_ok h
  obtain ⟨hpc, rfl⟩ := nextPC_cases hn
  obtain ⟨hsp, rfl⟩ := push16_cases hu
  cases h
  exact ⟨hpc, hsp, rfl⟩

theorem popNext_cases {s t : State} {put : State → Word → State} (h : popNext s put = .ok t) :
    s.pc.toNat + 1 < 65536 ∧ s.sp.toNat + 2 < 65536 ∧
    t = { put { s with sp := s.sp + 2 } (joinBytes (s.mem.read (s.sp.toNat + 1)) (s.mem.read s.sp.toNat)) with
      pc := s.pc + 1 } := by
  obtain ⟨n, hn, h⟩ := except_bind_eq_ok h
  obtain ⟨⟨v, u⟩, hu, h⟩ := except_bind_eq_ok h
  obtain ⟨hpc, rfl⟩ := nextPC_cases hn
  obtain ⟨hsp, rfl, rfl⟩ := pop16_cases hu
  cases h
  exact ⟨hpc, hsp, rfl⟩

theorem memReadWord_cases {s : State} {x : Word} {v : Word} (h : memReadWord s (addr x) = .ok v) :
    x.toNat + 1 < 65536 ∧ v = joinBytes (s.mem.read (x.toNat + 1)) (s.mem.read x.toNat) := by
  have hlt := x.isLt
  by_cases hn : x.toNat + 1 < 65536
  · rw [addr, memReadWord_nat hn] at h
    cases h
    exact ⟨hn, rfl⟩
  · rw [addr, show ((x.toNat : Nat) : Int) = 65535 by omega, memReadWord_top] at h
    cases h

theorem memWriteWord_cases {s t : State} {x : Word} {v : Word} (h : memWriteWord s (addr x) v = .ok t) :
    x.toNat + 1 < 65536 ∧
    t = { s with mem := (s.mem.write x.toNat (loByte v)).write (x.toNat + 1) (hiByte v) } := by
  have hlt := x.isLt
  by_cases hn : x.toNat + 1 < 65536
  · rw [addr, memWriteWord_nat hn] at h
    cases h
    exact ⟨hn, rfl⟩
  · rw [addr, show ((x.toNat : Nat) : Int) = 65535 by omega, memWriteWord_top] at h
    cases h

end Sys2Proof.Machine
end

