-- ==== Sys2Proof/Laws/PerInstr.lean ====
section
/-! SUPPORT. One lemma per instruction about its encoding: the opcode byte the encoder writes selects, in the decoder's map
(spec/30_encoding.md R90), the very form the instruction has, and applying that form to the operands the encoder writes gives
the instruction back. The opcode byte and the map come from different places of the spec (the "Encoding" lines of the rules,
and the table of R90), so each lemma compares the two. -/

namespace Sys2Proof.Laws.OpcodeSelects

/-- A form reads as an instruction when the operand bytes the encoder writes make it that instruction
(30_encoding.md R81, R86). -/
inductive Reads : Template → Instr → Prop where
  | plain {i : Instr} (h : i.operands = []) : Reads (.plain i) i
  | imm8 {f : Byte → Instr} (v : Byte) (h : (f v).operands = [v]) : Reads (.imm8 f) (f v)
  | imm16 {f : Word → Instr} (v : Word) (h : (f v).operands = wordBytes v) : Reads (.imm16 f) (f v)

/-- What is proved of each instruction: the map at its opcode byte gives the form that reads as it. -/
def Statement (i : Instr) : Prop :=
  i.wellFormed = true → Reads (decodeOpcode i.opcode) i

theorem mviR (r : Reg) (v : Byte) : Statement (.mviR r v) := by
  intro _
  change Reads (decodeOpcode (Instr.mviR _ 0).opcode) _
  cases r <;> exact @Reads.imm8 (Instr.mviR _) v rfl

theorem mviM (v : Byte) : Statement (.mviM v) := by
  intro _
  change Reads (decodeOpcode (Instr.mviM 0).opcode) _
  exact @Reads.imm8 Instr.mviM v rfl

theorem lxi (q : Pair) (v : Word) : Statement (.lxi q v) := by
  intro _
  change Reads (decodeOpcode (Instr.lxi _ 0).opcode) _
  cases q <;> exact @Reads.imm16 (Instr.lxi _) v rfl

theorem lxiSp (v : Word) : Statement (.lxiSp v) := by
  intro _
  change Reads (decodeOpcode (Instr.lxiSp 0).opcode) _
  exact @Reads.imm16 Instr.lxiSp v rfl

theorem movRM (r : Reg) : Statement (.movRM r) := by
  cases r <;> exact fun _ => .plain rfl

theorem movMR (r : Reg) : Statement (.movMR r) := by
  cases r <;> exact fun _ => .plain rfl

theorem ldax (p : IndexPair) : Statement (.ldax p) := by
  cases p <;> exact fun _ => .plain rfl

theorem stax (p : IndexPair) : Statement (.stax p) := by
  cases p <;> exact fun _ => .plain rfl

theorem movRR (r1 : Reg) (r2 : Reg) : Statement (.movRR r1 r2) := by
  cases r1 <;> cases r2 <;> exact fun _ => .plain rfl

theorem lda (a : Word) : Statement (.lda a) := by
  intro _
  change Reads (decodeOpcode (Instr.lda 0).opcode) _
  exact @Reads.imm16 Instr.lda a rfl

theorem sta (a : Word) : Statement (.sta a) := by
  intro _
  change Reads (decodeOpcode (Instr.sta 0).opcode) _
  exact @Reads.imm16 Instr.sta a rfl

theorem lhld (a : Word) : Statement (.lhld a) := by
  intro _
  change Reads (decodeOpcode (Instr.lhld 0).opcode) _
  exact @Reads.imm16 Instr.lhld a rfl

theorem shld (a : Word) : Statement (.shld a) := by
  intro _
  change Reads (decodeOpcode (Instr.shld 0).opcode) _
  exact @Reads.imm16 Instr.shld a rfl

theorem xchg : Statement .xchg :=
  fun _ => .plain rfl

theorem sphl : Statement .sphl :=
  fun _ => .plain rfl

theorem addR (r : Reg) : Statement (.addR r) := by
  cases r <;> exact fun _ => .plain rfl

theorem addM : Statement .addM :=
  fun _ => .plain rfl

theorem adcR (r : Reg) : Statement (.adcR r) := by
  cases r <;> exact fun _ => .plain rfl

theorem adcM : Statement .adcM :=
  fun _ => .plain rfl

theorem subR (r : Reg) : Statement (.subR r) := by
  cases r <;> exact fun _ => .plain rfl

theorem subM : Statement .subM :=
  fun _ => .plain rfl

theorem sbbR (r : Reg) : Statement (.sbbR r) := by
  cases r <;> exact fun _ => .plain rfl

theorem sbbM : Statement .sbbM :=
  fun _ => .plain rfl

theorem inrR (r : Reg) : Statement (.inrR r) := by
  cases r <;> exact fun _ => .plain rfl

theorem inrM : Statement .inrM :=
  fun _ => .plain rfl

theorem dcrR (r : Reg) : Statement (.dcrR r) := by
  cases r <;> exact fun _ => .plain rfl

theorem dcrM : Statement .dcrM :=
  fun _ => .plain rfl

theorem dad (q : Pair) : Statement (.dad q) := by
  cases q <;> exact fun _ => .plain rfl

theorem dadSp : Statement .dadSp :=
  fun _ => .plain rfl

theorem adi (v : Byte) : Statement (.adi v) := by
  intro _
  change Reads (decodeOpcode (Instr.adi 0).opcode) _
  exact @Reads.imm8 Instr.adi v rfl

theorem aci (v : Byte) : Statement (.aci v) := by
  intro _
  change Reads (decodeOpcode (Instr.aci 0).opcode) _
  exact @Reads.imm8 Instr.aci v rfl

theorem sui (v : Byte) : Statement (.sui v) := by
  intro _
  change Reads (decodeOpcode (Instr.sui 0).opcode) _
  exact @Reads.imm8 Instr.sui v rfl

theorem sbi (v : Byte) : Statement (.sbi v) := by
  intro _
  change Reads (decodeOpcode (Instr.sbi 0).opcode) _
  exact @Reads.imm8 Instr.sbi v rfl

theorem inx (q : Pair) : Statement (.inx q) := by
  cases q <;> exact fun _ => .plain rfl

theorem inxSp : Statement .inxSp :=
  fun _ => .plain rfl

theorem dcx (q : Pair) : Statement (.dcx q) := by
  cases q <;> exact fun _ => .plain rfl

theorem dcxSp : Statement .dcxSp :=
  fun _ => .plain rfl

theorem daa : Statement .daa :=
  fun _ => .plain rfl

theorem anaR (r : Reg) : Statement (.anaR r) := by
  cases r <;> exact fun _ => .plain rfl

theorem anaM : Statement .anaM :=
  fun _ => .plain rfl

theorem xraR (r : Reg) : Statement (.xraR r) := by
  cases r <;> exact fun _ => .plain rfl

theorem xraM : Statement .xraM :=
  fun _ => .plain rfl

theorem oraR (r : Reg) : Statement (.oraR r) := by
  cases r <;> exact fun _ => .plain rfl

theorem oraM : Statement .oraM :=
  fun _ => .plain rfl

theorem cmpR (r : Reg) : Statement (.cmpR r) := by
  cases r <;> exact fun _ => .plain rfl

theorem cmpM : Statement .cmpM :=
  fun _ => .plain rfl

theorem cpi (v : Byte) : Statement (.cpi v) := by
  intro _
  change Reads (decodeOpcode (Instr.cpi 0).opcode) _
  exact @Reads.imm8 Instr.cpi v rfl

theorem ani (v : Byte) : Statement (.ani v) := by
  intro _
  change Reads (decodeOpcode (Instr.ani 0).opcode) _
  exact @Reads.imm8 Instr.ani v rfl

theorem xri (v : Byte) : Statement (.xri v) := by
  intro _
  change Reads (decodeOpcode (Instr.xri 0).opcode) _
  exact @Reads.imm8 Instr.xri v rfl

theorem ori (v : Byte) : Statement (.ori v) := by
  intro _
  change Reads (decodeOpcode (Instr.ori 0).opcode) _
  exact @Reads.imm8 Instr.ori v rfl

theorem rlc : Statement .rlc :=
  fun _ => .plain rfl

theorem rrc : Statement .rrc :=
  fun _ => .plain rfl

theorem ral : Statement .ral :=
  fun _ => .plain rfl

theorem rar : Statement .rar :=
  fun _ => .plain rfl

theorem cma : Statement .cma :=
  fun _ => .plain rfl

theorem stc : Statement .stc :=
  fun _ => .plain rfl

theorem cmc : Statement .cmc :=
  fun _ => .plain rfl

theorem jmp (a : Word) : Statement (.jmp a) := by
  intro _
  change Reads (decodeOpcode (Instr.jmp 0).opcode) _
  exact @Reads.imm16 Instr.jmp a rfl

theorem jnz (a : Word) : Statement (.jnz a) := by
  intro _
  change Reads (decodeOpcode (Instr.jnz 0).opcode) _
  exact @Reads.imm16 Instr.jnz a rfl

theorem jz (a : Word) : Statement (.jz a) := by
  intro _
  change Reads (decodeOpcode (Instr.jz 0).opcode) _
  exact @Reads.imm16 Instr.jz a rfl

theorem jnc (a : Word) : Statement (.jnc a) := by
  intro _
  change Reads (decodeOpcode (Instr.jnc 0).opcode) _
  exact @Reads.imm16 Instr.jnc a rfl

theorem jc (a : Word) : Statement (.jc a) := by
  intro _
  change Reads (decodeOpcode (Instr.jc 0).opcode) _
  exact @Reads.imm16 Instr.jc a rfl

theorem jpo (a : Word) : Statement (.jpo a) := by
  intro _
  change Reads (decodeOpcode (Instr.jpo 0).opcode) _
  exact @Reads.imm16 Instr.jpo a rfl

theorem jpe (a : Word) : Statement (.jpe a) := by
  intro _
  change Reads (decodeOpcode (Instr.jpe 0).opcode) _
  exact @Reads.imm16 Instr.jpe a rfl

theorem jp (a : Word) : Statement (.jp a) := by
  intro _
  change Reads (decodeOpcode (Instr.jp 0).opcode) _
  exact @Reads.imm16 Instr.jp a rfl

theorem jm (a : Word) : Statement (.jm a) := by
  intro _
  change Reads (decodeOpcode (Instr.jm 0).opcode) _
  exact @Reads.imm16 Instr.jm a rfl

theorem call (a : Word) : Statement (.call a) := by
  intro _
  change Reads (decodeOpcode (Instr.call 0).opcode) _
  exact @Reads.imm16 Instr.call a rfl

theorem ret : Statement .ret :=
  fun _ => .plain rfl

theorem rnz : Statement .rnz :=
  fun _ => .plain rfl

theorem rz : Statement .rz :=
  fun _ => .plain rfl

theorem rnc : Statement .rnc :=
  fun _ => .plain rfl

theorem rc : Statement .rc :=
  fun _ => .plain rfl

theorem rpo : Statement .rpo :=
  fun _ => .plain rfl

theorem rpe : Statement .rpe :=
  fun _ => .plain rfl

theorem rp : Statement .rp :=
  fun _ => .plain rfl

theorem rm : Statement .rm :=
  fun _ => .plain rfl

theorem cnz (a : Word) : Statement (.cnz a) := by
  intro _
  change Reads (decodeOpcode (Instr.cnz 0).opcode) _
  exact @Reads.imm16 Instr.cnz a rfl

theorem cz (a : Word) : Statement (.cz a) := by
  intro _
  change Reads (decodeOpcode (Instr.cz 0).opcode) _
  exact @Reads.imm16 Instr.cz a rfl

theorem cnc (a : Word) : Statement (.cnc a) := by
  intro _
  change Reads (decodeOpcode (Instr.cnc 0).opcode) _
  exact @Reads.imm16 Instr.cnc a rfl

theorem cc (a : Word) : Statement (.cc a) := by
  intro _
  change Reads (decodeOpcode (Instr.cc 0).opcode) _
  exact @Reads.imm16 Instr.cc a rfl

theorem cpo (a : Word) : Statement (.cpo a) := by
  intro _
  change Reads (decodeOpcode (Instr.cpo 0).opcode) _
  exact @Reads.imm16 Instr.cpo a rfl

theorem cpe (a : Word) : Statement (.cpe a) := by
  intro _
  change Reads (decodeOpcode (Instr.cpe 0).opcode) _
  exact @Reads.imm16 Instr.cpe a rfl

theorem cp (a : Word) : Statement (.cp a) := by
  intro _
  change Reads (decodeOpcode (Instr.cp 0).opcode) _
  exact @Reads.imm16 Instr.cp a rfl

theorem cm (a : Word) : Statement (.cm a) := by
  intro _
  change Reads (decodeOpcode (Instr.cm 0).opcode) _
  exact @Reads.imm16 Instr.cm a rfl

theorem rst (n : BitVec 3) : Statement (.rst n) := by
  have h : ∀ n : BitVec 3, n = 0 ∨ n = 1 ∨ n = 2 ∨ n = 3 ∨ n = 4 ∨ n = 5 ∨ n = 6 ∨ n = 7 := by decide
  rcases h n with rfl | rfl | rfl | rfl | rfl | rfl | rfl | rfl <;> exact fun _ => .plain rfl

theorem pchl : Statement .pchl :=
  fun _ => .plain rfl

theorem push (q : Pair) : Statement (.push q) := by
  cases q <;> exact fun _ => .plain rfl

theorem pushPsw : Statement .pushPsw :=
  fun _ => .plain rfl

theorem pop (q : Pair) : Statement (.pop q) := by
  cases q <;> exact fun _ => .plain rfl

theorem popPsw : Statement .popPsw :=
  fun _ => .plain rfl

theorem xthl : Statement .xthl :=
  fun _ => .plain rfl

theorem inp (port : Byte) : Statement (.inp port) := by
  intro _
  change Reads (decodeOpcode (Instr.inp 0).opcode) _
  exact @Reads.imm8 Instr.inp port rfl

theorem out (port : Byte) : Statement (.out port) := by
  intro _
  change Reads (decodeOpcode (Instr.out 0).opcode) _
  exact @Reads.imm8 Instr.out port rfl

theorem ei : Statement .ei :=
  fun _ => .plain rfl

theorem di : Statement .di :=
  fun _ => .plain rfl

theorem nop : Statement .nop :=
  fun _ => .plain rfl

theorem absent (op : Byte) : Statement (.absent op) := by
  intro h
  have h : op ∈ undocumentedBytes := by simpa [Instr.wellFormed] using h
  simp only [undocumentedBytes, List.mem_cons, List.not_mem_nil, or_false] at h
  rcases h with rfl | rfl | rfl | rfl | rfl | rfl | rfl | rfl | rfl | rfl | rfl | rfl <;> exact .plain rfl

theorem absentHlt : Statement .absentHlt :=
  fun _ => .plain rfl

end Sys2Proof.Laws.OpcodeSelects
end

