-- ==== Sys2Proof/Laws/Step.lean ====
section
/-! SUPPORT. What the parts of a step can do, said once: the fetch, the poll, and which of its three cases a step is in. -/

namespace Sys2Proof.Machine

/-! ## The fetch -/

/-- An opcode without a handler raises before any operand byte is read (30_encoding.md R88). -/
theorem fetch_noHandler {s : State} (h : s.params.inTable (opcodeAt s) = false) :
    fetch s = .error (.unimplementedOpcode (opcodeAt s)) := by
  simp [fetch, h]

/-- With a handler the operand bytes of its form are read. -/
theorem fetch_handler {s : State} (h : s.params.inTable (opcodeAt s) = true) :
    fetch s = fetchOperands s (decodeOpcode (opcodeAt s)) := by
  simp [fetch, h]

@[simp] theorem fetchOperands_plain (s : State) (i : Instr) : fetchOperands s (.plain i) = .ok i := rfl

theorem fetchOperands_imm8 {s : State} (h : s.pc.toNat + 1 < 65536) (f : Byte → Instr) :
    fetchOperands s (.imm8 f) = .ok (f (s.mem.read (s.pc.toNat + 1))) := by
  have hx : addr s.pc + 1 = ((s.pc.toNat + 1 : Nat) : Int) := by simp [addr]
  simp only [fetchOperands, hx, memRead_nat h, except_ok_bind]

theorem fetchOperands_imm16 {s : State} (h : s.pc.toNat + 2 < 65536) (f : Word → Instr) :
    fetchOperands s (.imm16 f) =
      .ok (f (joinBytes (s.mem.read (s.pc.toNat + 2)) (s.mem.read (s.pc.toNat + 1)))) := by
  have hx : addr s.pc + 1 = ((s.pc.toNat + 1 : Nat) : Int) := by simp [addr]
  simp only [fetchOperands, hx, memReadWord_nat (x := s.pc.toNat + 1) h, except_ok_bind]

/-- An operand byte past the top of memory (30_encoding.md R86, 60_exceptions.md R282). -/
theorem fetchOperands_top {s : State} {form : Template} (h : 65536 < s.pc.toNat + form.length) :
    fetchOperands s form = .error (.outOfRangeMemoryAccess 65536) := by
  have hlt := s.pc.isLt
  cases form with
  | plain i => simp only [Template.length] at h; omega
  | imm8 f =>
    simp only [Template.length] at h
    have hx : addr s.pc + 1 = 65536 := by simp only [addr]; omega
    simp only [fetchOperands, hx, memRead_out (s := s) (x := 65536) (by omega), except_error_bind]
  | imm16 f =>
    simp only [Template.length] at h
    by_cases htop : s.pc.toNat = 65535
    · have hx : addr s.pc + 1 = 65536 := by simp only [addr]; omega
      simp only [fetchOperands, memReadWord, hx, memRead_out (s := s) (x := 65536) (by omega), except_error_bind]
    · have hx : addr s.pc + 1 = 65535 := by simp only [addr]; omega
      simp only [fetchOperands, hx, memReadWord_top, except_error_bind]

/-! ## What an instruction stores -/

/-- The two cells of a push. -/
@[simp] theorem mem_pushCells {s : State} {v : Word} {x : Int} {w : Byte} :
    (x, w) ∈ s.pushCells v ↔ (x = addr s.sp - 2 ∧ w = loByte v) ∨ (x = addr s.sp - 1 ∧ w = hiByte v) := by
  simp [State.pushCells]

/-- A conditional call that is not taken stores nothing (43_control_transfer.md R220). -/
theorem callCellsIf_untaken {s : State} {cond : Cond} (h : s.flags.holds cond = false) : s.callCellsIf cond = [] := by
  simp [State.callCellsIf, h]

theorem callCellsIf_taken {s : State} {cond : Cond} (h : s.flags.holds cond = true) :
    s.callCellsIf cond = s.pushCells (s.pc + 3) := by
  simp [State.callCellsIf, h]

/-! ## The poll -/

theorem fires_iff (s : State) (now : Nat) :
    fires s now = true ↔ s.ie = true ∧ s.params.period ≤ now - s.lastFire := by
  simp [fires]

/-- A poll does nothing, or enters the handler, or raises (60_exceptions.md R287, R288, R291). -/
theorem poll_cases (s : State) (i : PollInputs) :
    (fires s i.now = false ∧ poll s i = s) ∨
    (fires s i.now = true ∧ 2 ≤ s.sp.toNat ∧
      poll s i = { afterPush s s.pc (entryAddress i.vector) with ie := false, lastFire := i.now }) ∨
    (fires s i.now = true ∧ s.sp.toNat < 2 ∧
      poll s i = s.raise (.outOfRangeMemoryAccess ((s.sp.toNat : Int) - 2))) := by
  cases hf : fires s i.now
  · exact .inl ⟨rfl, by simp [poll, hf]⟩
  · by_cases h : 2 ≤ s.sp.toNat
    · exact .inr (.inl ⟨rfl, h, by simp [poll, hf, enterInterrupt, push16_ok h, afterPush]⟩)
    · exact .inr (.inr ⟨rfl, by omega, by
        simp [poll, hf, enterInterrupt, push16_error (show s.sp.toNat < 2 by omega)]⟩)

/-! ## The step -/

/-- A core that is not FAULTED and is not reset iterates. -/
theorem step_running {s : State} (h : s.running) : step s = iterate s := by
  obtain ⟨hf, hr⟩ := h
  have hdue : resetDue s = none := by
    unfold resetDue
    rw [hf]
    split
    · rename_i hs
      cases hs
    · split
      · rename_i rest hs
        exact absurd hs (hr rest)
      · rfl
  unfold step
  rw [hdue, hf]

/-- A due reset is applied, whatever the core was doing. -/
theorem step_reset {s : State} {rest : List Input} (h : resetDue s = some rest) : step s = .next (s.applyReset rest) := by
  unfold step
  rw [h]

/-- A FAULTED core with no reset to come stays where it is. -/
theorem step_faulted {s : State} {f : Fault} (h : s.fault = some f) (hr : resetDue s = none) : step s = .fault f := by
  unfold step
  rw [hr, h]

/-- The script behind a reset that follows samples only. -/
theorem scriptAfterReset_append {before rest : List Input} (h : Input.reset ∉ before) :
    scriptAfterReset (before ++ .reset :: rest) = some rest := by
  induction before with
  | nil => rfl
  | cons x before ih =>
    cases x with
    | reset => simp at h
    | sample n v => exact ih (fun hm => h (List.mem_cons_of_mem _ hm))

/-- A script without a reset has none to take. -/
theorem scriptAfterReset_none {script : List Input} (h : Input.reset ∉ script) : scriptAfterReset script = none := by
  induction script with
  | nil => rfl
  | cons x script ih =>
    cases x with
    | reset => simp at h
    | sample n v => exact ih (fun hm => h (List.mem_cons_of_mem _ hm))

end Sys2Proof.Machine
end

