-- ==== Sys2Proof/Tests/Slice0.lean ====
section
/-! SUPPORT. The model's own tests. The expected results are the spec's: the "Encoding" lines of the rules, and the
vectors of spec/95_test_vectors.md (Part 1 S1 to S19, Part 2 V1 to V9), one step each. After them one witness for every
obligation that has hypotheses: concrete states and operands that meet them, at the boundaries of each clause. -/

set_option Elab.async false

namespace Sys2Proof.Tests

open Sys2Proof Sys2Proof.Machine

/-! ## Helpers -/

/-- Flags from bits in the order of 95_test_vectors.md: Z S P CY AC. -/
def fl (z s p cy ac : Nat) : Flags := { z := z == 1, s := s == 1, p := p == 1, cy := cy == 1, ac := ac == 1 }

/-- The default state of 95_test_vectors.md Part 2, with one poll listed at which no time has passed. -/
def at0100 : State :=
  { State.reset with
    pc := 0x0100
    sp := 0x2400
    params := { extra := tableCompletion, rom := [], period := 100 }
    env := { now := 0, polls := 0, script := [.sample 0 0] } }

/-- The same under `TABLE_DOC`. -/
def docOnly : State := { at0100 with params := { at0100.params with extra := [] } }

/-- Memory with these bytes stored. -/
def store (m : Memory) (cells : List Host.Cell) : Memory := cells.foldl (fun m x => m.write x.1 x.2) m

/-- The state with these bytes at `PC`. -/
def placed (bytes : List Byte) (s : State) : State := { s with mem := placeBytes s.mem s.pc.toNat bytes }

/-- The outside world after the one poll of the default state. -/
def polledOnce (s : State) : State := { s with env := { now := 0, polls := 1, script := [] } }

/-- The bytes at `PC` make the step the table row says. -/
def runs (bytes : List Byte) (before : State) (after : State → State) : Bool :=
  match step (placed bytes before) with
  | .next t => decide (t = polledOnce (after (placed bytes before)))
  | .fault _ => false
  | .refused _ => false

/-- The bytes at `PC` make a step that latches this fault and changes nothing else. -/
def latches (bytes : List Byte) (before : State) (f : Fault) : Bool :=
  match step (placed bytes before) with
  | .next t => decide (t = { placed bytes before with fault := some f })
  | .fault _ => false
  | .refused _ => false

/-- The bytes at `PC` raise `OutOfRangeMemoryAccess(x)`. -/
def raises (bytes : List Byte) (before : State) (x : Int) : Bool :=
  latches bytes before (.outOfRangeMemoryAccess x)

/-- These bytes, and no more, decode to this instruction. -/
def decodesTo (bytes : List Byte) (i : Instr) : Bool :=
  match decode bytes with
  | .ok (j, []) => decide (j = i)
  | .ok _ => false
  | .error _ => false

/-! ## WellFormed: the one check, and what it refuses -/

theorem test_wellFormed_refuses_documented_byte : (Instr.absent 0x00).wellFormed = false := by decide

theorem test_wellFormed_refuses_hlt_as_absent_byte : (Instr.absent 0x76).wellFormed = false := by decide

theorem test_wellFormed_accepts_undocumented_byte : (Instr.absent 0xFD).wellFormed = true := by decide

/-! ## Decoding: every constructor by a word of its rule's "Encoding" line -/

theorem decode_loads :
    ([([0b00001110, 0x9A], .mviR .c 0x9A), ([0b00110110, 0x5A], .mviM 0x5A),
      ([0b00010001, 0xCD, 0xAB], .lxi .de 0xABCD), ([0b00110001, 0xFE, 0xFF], .lxiSp 0xFFFE),
      ([0b01101110], .movRM .l), ([0b01110011], .movMR .e), ([0b00011010], .ldax .de), ([0b00000010], .stax .bc),
      ([0b01000001], .movRR .b .c), ([0b00111010, 0x00, 0x20], .lda 0x2000), ([0b00110010, 0xB3, 0x05], .sta 0x05B3),
      ([0b00101010, 0x5B, 0x02], .lhld 0x025B), ([0b00100010, 0x0A, 0x01], .shld 0x010A), ([0b11101011], .xchg),
      ([0b11111001], .sphl)] : List (List Byte × Instr)).all (fun x => decodesTo x.1 x.2) = true := by
  decide +kernel

theorem decode_arithmetic :
    ([([0b10000010], .addR .d), ([0b10000110], .addM), ([0b10001001], .adcR .c), ([0b10001110], .adcM),
      ([0b10010111], .subR .a), ([0b10010110], .subM), ([0b10011101], .sbbR .l), ([0b10011110], .sbbM),
      ([0b00100100], .inrR .h), ([0b00110100], .inrM), ([0b00000101], .dcrR .b), ([0b00110101], .dcrM),
      ([0b00101001], .dad .hl), ([0b00111001], .dadSp), ([0b11000110, 0x42], .adi 0x42), ([0b11001110, 0xBE], .aci 0xBE),
      ([0b11010110, 0x01], .sui 0x01), ([0b11011110, 0x05], .sbi 0x05), ([0b00010011], .inx .de), ([0b00110011], .inxSp),
      ([0b00001011], .dcx .bc), ([0b00111011], .dcxSp), ([0b00100111], .daa)] : List (List Byte × Instr)).all
        (fun x => decodesTo x.1 x.2) = true := by
  decide +kernel

theorem decode_logic :
    ([([0b10100001], .anaR .c), ([0b10100110], .anaM), ([0b10101111], .xraR .a), ([0b10101110], .xraM),
      ([0b10110100], .oraR .h), ([0b10110110], .oraM), ([0b10111011], .cmpR .e), ([0b10111110], .cmpM),
      ([0b11111110, 0x40], .cpi 0x40), ([0b11100110, 0x0F], .ani 0x0F), ([0b11101110, 0x81], .xri 0x81),
      ([0b11110110, 0x0F], .ori 0x0F), ([0b00000111], .rlc), ([0b00001111], .rrc), ([0b00010111], .ral),
      ([0b00011111], .rar), ([0b00101111], .cma), ([0b00110111], .stc), ([0b00111111], .cmc)] :
      List (List Byte × Instr)).all (fun x => decodesTo x.1 x.2) = true := by
  decide +kernel

theorem decode_jumps_and_calls :
    ([([0b11000011, 0x34, 0x12], .jmp 0x1234), ([0b11000010, 0x01, 0x02], .jnz 0x0201),
      ([0b11001010, 0x01, 0x02], .jz 0x0201), ([0b11010010, 0x01, 0x02], .jnc 0x0201),
      ([0b11011010, 0x01, 0x02], .jc 0x0201), ([0b11100010, 0x01, 0x02], .jpo 0x0201),
      ([0b11101010, 0x01, 0x02], .jpe 0x0201), ([0b11110010, 0x01, 0x02], .jp 0x0201),
      ([0b11111010, 0x01, 0x02], .jm 0x0201), ([0b11001101, 0x34, 0x12], .call 0x1234),
      ([0b11000100, 0x01, 0x02], .cnz 0x0201), ([0b11001100, 0x01, 0x02], .cz 0x0201),
      ([0b11010100, 0x01, 0x02], .cnc 0x0201), ([0b11011100, 0x01, 0x02], .cc 0x0201),
      ([0b11100100, 0x01, 0x02], .cpo 0x0201), ([0b11101100, 0x01, 0x02], .cpe 0x0201),
      ([0b11110100, 0x01, 0x02], .cp 0x0201), ([0b11111100, 0x01, 0x02], .cm 0x0201)] :
      List (List Byte × Instr)).all (fun x => decodesTo x.1 x.2) = true := by
  decide +kernel

theorem decode_returns_stack_io :
    ([([0b11001001], .ret), ([0b11000000], .rnz), ([0b11001000], .rz), ([0b11010000], .rnc), ([0b11011000], .rc),
      ([0b11100000], .rpo), ([0b11101000], .rpe), ([0b11110000], .rp), ([0b11111000], .rm), ([0b11011111], .rst 3),
      ([0b11101001], .pchl), ([0b11010101], .push .de), ([0b11110101], .pushPsw), ([0b11100001], .pop .hl),
      ([0b11110001], .popPsw), ([0b11100011], .xthl), ([0b11011011, 0x7F], .inp 0x7F), ([0b11010011, 0x02], .out 0x02),
      ([0b11111011], .ei), ([0b11110011], .di), ([0b00000000], .nop), ([0b11011101], .absent 0xDD),
      ([0b01110110], .absentHlt)] : List (List Byte × Instr)).all (fun x => decodesTo x.1 x.2) = true := by
  decide +kernel

/-- Too short a list is refused by name. -/
theorem decode_refuses_short_lists :
    decode [] = .error .noOpcode ∧ decode [0x3E] = .error (.missingOperand 0x3E) ∧
      decode [0xC3, 0x00] = .error (.missingOperand 0xC3) :=
  ⟨rfl, rfl, rfl⟩

/-- 95_test_vectors.md S9: the words 0x01 0x34 0x12 render as `LXI     B,$1234`. -/
theorem test_text_lxi :
    (Instr.lxi .bc 0x1234).text =
      ['L', 'X', 'I', ' ', ' ', ' ', ' ', ' ', 'B', ',', '$', '1', '2', '3', '4'] := by
  decide

/-- An absent opcode renders as the literal line `unknown` (30_encoding.md R93). -/
theorem test_text_absent : (Instr.absent 0x08).text = ['u', 'n', 'k', 'n', 'o', 'w', 'n'] := by
  decide

/-! ## One step: loads (95_test_vectors.md V1) -/

theorem test_mvi :
    ((runs [0x06, 0xFF] at0100 (fun s => { s with b := 0xFF, pc := 0x0102 })) &&
    (raises [0x3E] ({ at0100 with pc := 0xFFFF }) 65536) &&
    (runs [0x36, 0x5A] ({ at0100 with h := 0x20, l := 0x10 })
      (fun s => { s with pc := 0x0102, mem := store s.mem [(0x2010, 0x5A)] })) &&
    (runs [0x36, 0x5A] ({ at0100 with h := 0x01 })
      (fun s => { s with pc := 0x0102, mem := store s.mem [(0x0100, 0x5A)] }))) = true := by
  decide +kernel

theorem test_lxi :
    ((runs [0x01, 0x34, 0x12] at0100 (fun s => { s with b := 0x12, c := 0x34, pc := 0x0103 })) &&
    (raises [0x01, 0x34] ({ at0100 with pc := 0xFFFE }) 65536) &&
    (runs [0x31, 0xFF, 0xFF] at0100 (fun s => { s with sp := 0xFFFF, pc := 0x0103 }))) = true := by
  decide +kernel

theorem test_mov :
    ((runs [0x46] ({ at0100 with h := 0x20, mem := store [] [(0x2000, 0x9C)] })
      (fun s => { s with b := 0x9C, pc := 0x0101 })) &&
    (runs [0x66] ({ at0100 with h := 0x20, mem := store [] [(0x2000, 0x30)] })
      (fun s => { s with h := 0x30, pc := 0x0101 })) &&
    (runs [0x71] ({ at0100 with c := 0x42, h := 0x20 })
      (fun s => { s with pc := 0x0101, mem := store s.mem [(0x2000, 0x42)] })) &&
    (runs [0x77] ({ at0100 with a := 0xEE })
      (fun s => { s with pc := 0x0101, mem := store s.mem [(0x0000, 0xEE)] })) &&
    (runs [0x41] ({ at0100 with c := 0x99 }) (fun s => { s with b := 0x99, pc := 0x0101 })) &&
    (runs [0x7F] ({ at0100 with a := 0x12 }) (fun s => { s with pc := 0x0101 }))) = true := by
  decide +kernel

theorem test_ldax :
    ((runs [0x0A] ({ at0100 with b := 0x20, c := 0x01, mem := store [] [(0x2001, 0x7F)] })
      (fun s => { s with a := 0x7F, pc := 0x0101 })) &&
    (runs [0x1A] ({ at0100 with d := 0x93, e := 0x8B, mem := store [] [(0x938B, 0xC4)] })
      (fun s => { s with a := 0xC4, pc := 0x0101 }))) = true := by
  decide +kernel

theorem test_stax :
    ((runs [0x02] ({ at0100 with a := 0x5D, b := 0x3F, c := 0x16 })
      (fun s => { s with pc := 0x0101, mem := store s.mem [(0x3F16, 0x5D)] })) &&
    (runs [0x12] ({ at0100 with a := 0x01, d := 0xFF, e := 0xFF })
      (fun s => { s with pc := 0x0101, mem := store s.mem [(0xFFFF, 0x01)] }))) = true := by
  decide +kernel

theorem test_lda :
    (runs [0x3A, 0x00, 0x20] ({ at0100 with mem := store [] [(0x2000, 0x4D)] })
      (fun s => { s with a := 0x4D, pc := 0x0103 })) = true := by
  decide +kernel

theorem test_sta :
    (runs [0x32, 0xB3, 0x05] ({ at0100 with a := 0x6E })
      (fun s => { s with pc := 0x0103, mem := store s.mem [(0x05B3, 0x6E)] })) = true := by
  decide +kernel

theorem test_lhld :
    ((runs [0x2A, 0x5B, 0x02] ({ at0100 with mem := store [] [(0x025B, 0xFF), (0x025C, 0x03)] })
      (fun s => { s with h := 0x03, l := 0xFF, pc := 0x0103 })) &&
    (raises [0x2A, 0xFF, 0xFF] ({ at0100 with mem := store [] [(0xFFFF, 0x77)] }) 65536)) = true := by
  decide +kernel

theorem test_shld :
    ((runs [0x22, 0x0A, 0x01] ({ at0100 with h := 0xAE, l := 0x29 })
      (fun s => { s with pc := 0x0103, mem := store s.mem [(0x010A, 0x29), (0x010B, 0xAE)] })) &&
    (raises [0x22, 0xFF, 0xFF] ({ at0100 with h := 0x12, l := 0x34 }) 65536)) = true := by
  decide +kernel

theorem test_xchg :
    (runs [0xEB] ({ at0100 with d := 0x33, e := 0x55, l := 0xFF })
      (fun s => { s with d := 0x00, e := 0xFF, h := 0x33, l := 0x55, pc := 0x0101 })) = true := by
  decide +kernel

theorem test_sphl :
    (runs [0xF9] ({ at0100 with h := 0x50, l := 0x6C }) (fun s => { s with sp := 0x506C, pc := 0x0101 })) = true := by
  decide +kernel

/-! ## One step: arithmetic (95_test_vectors.md V2) -/

theorem test_add :
    ((runs [0x80] ({ at0100 with a := 0x6C, b := 0x2E })
      (fun s => { s with a := 0x9A, pc := 0x0101, flags := fl 0 1 1 0 0 })) &&
    (raises [0x80] ({ at0100 with a := 0x01, b := 0x01, pc := 0xFFFF }) 65536) &&
    (runs [0x86] ({ at0100 with a := 0x10, h := 0x20, mem := store [] [(0x2000, 0xF5)] })
      (fun s => { s with a := 0x05, pc := 0x0101, flags := fl 0 0 1 1 0 }))) = true := by
  decide +kernel

theorem test_adc :
    ((runs [0x89] ({ at0100 with a := 0x42, c := 0x3D, flags := fl 0 0 0 1 0 })
      (fun s => { s with a := 0x80, pc := 0x0101, flags := fl 0 1 0 0 0 })) &&
    (runs [0x88] ({ at0100 with a := 0xFF, b := 0xFF, flags := fl 0 0 0 1 0 })
      (fun s => { s with pc := 0x0101, flags := fl 0 1 1 1 0 })) &&
    (runs [0x8E] ({ at0100 with a := 0xFE, h := 0x20, flags := fl 0 0 0 1 0, mem := store [] [(0x2000, 0x01)] })
      (fun s => { s with a := 0x00, pc := 0x0101, flags := fl 1 0 1 1 0 }))) = true := by
  decide +kernel

theorem test_sub :
    ((runs [0x90] ({ at0100 with a := 0x3E, b := 0x3E, flags := fl 0 0 0 1 0 })
      (fun s => { s with a := 0x00, pc := 0x0101, flags := fl 1 0 1 0 0 })) &&
    (runs [0x91] ({ at0100 with a := 0x80, c := 0x01 }) (fun s => { s with a := 0x7F, pc := 0x0101 })) &&
    (runs [0x96] ({ at0100 with a := 0x05, h := 0x20, mem := store [] [(0x2000, 0x0A)] })
      (fun s => { s with a := 0xFB, pc := 0x0101, flags := fl 0 1 0 1 0 }))) = true := by
  decide +kernel

theorem test_sbb :
    ((runs [0x98] ({ at0100 with b := 0xFF, flags := fl 0 0 0 1 0 })
      (fun s => { s with pc := 0x0101, flags := fl 1 0 1 1 0 })) &&
    (runs [0x9E] ({ at0100 with a := 0x10, h := 0x20, flags := fl 0 0 0 1 0, mem := store [] [(0x2000, 0x20)] })
      (fun s => { s with a := 0xEF, pc := 0x0101, flags := fl 0 1 0 1 0 }))) = true := by
  decide +kernel

theorem test_inr :
    ((runs [0x0C] ({ at0100 with c := 0x99, flags := fl 0 0 0 1 0 })
      (fun s => { s with c := 0x9A, pc := 0x0101, flags := fl 0 1 1 1 0 })) &&
    (runs [0x04] ({ at0100 with b := 0x7F, flags := fl 0 0 0 1 0 })
      (fun s => { s with b := 0x80, pc := 0x0101, flags := fl 0 1 0 1 0 })) &&
    (runs [0x34] ({ at0100 with h := 0x20, mem := store [] [(0x2000, 0x0F)] })
      (fun s => { s with pc := 0x0101, mem := store s.mem [(0x2000, 0x10)] }))) = true := by
  decide +kernel

theorem test_dcr :
    ((runs [0x05] ({ at0100 with b := 0x01, flags := fl 0 0 0 1 0 })
      (fun s => { s with b := 0x00, pc := 0x0101, flags := fl 1 0 1 1 0 })) &&
    (runs [0x3D] ({ at0100 with a := 0x80 }) (fun s => { s with a := 0x7F, pc := 0x0101 })) &&
    (runs [0x35] ({ at0100 with h := 0x3A, l := 0x7C, mem := store [] [(0x3A7C, 0x40)] })
      (fun s => { s with pc := 0x0101, flags := fl 0 0 1 0 0, mem := store s.mem [(0x3A7C, 0x3F)] }))) = true := by
  decide +kernel

theorem test_dad :
    ((runs [0x09] ({ at0100 with b := 0x33, c := 0x9F, h := 0xA1, l := 0x7B, flags := fl 1 1 1 0 0 })
      (fun s => { s with h := 0xD5, l := 0x1A, pc := 0x0101 })) &&
    (runs [0x29] ({ at0100 with h := 0x12, l := 0x34, flags := fl 0 0 0 1 0 })
      (fun s => { s with h := 0x24, l := 0x68, pc := 0x0101, flags := fl 0 0 0 0 0 })) &&
    (runs [0x39] ({ at0100 with l := 0x20, sp := 0xFFF0 })
      (fun s => { s with l := 0x10, pc := 0x0101, flags := fl 0 0 0 1 0 }))) = true := by
  decide +kernel

theorem test_adi :
    ((runs [0xC6, 0x42] ({ at0100 with a := 0x14 })
      (fun s => { s with a := 0x56, pc := 0x0102, flags := fl 0 0 1 0 0 })) &&
    (runs [0xC6, 0x01] ({ at0100 with a := 0xFF })
      (fun s => { s with a := 0x00, pc := 0x0102, flags := fl 1 0 1 1 0 }))) = true := by
  decide +kernel

theorem test_aci :
    (runs [0xCE, 0xBE] ({ at0100 with a := 0x56, flags := fl 0 0 0 1 0 })
      (fun s => { s with a := 0x15, pc := 0x0102 })) = true := by
  decide +kernel

theorem test_sui :
    (runs [0xD6, 0x01] at0100 (fun s => { s with a := 0xFF, pc := 0x0102, flags := fl 0 1 1 1 0 })) = true := by
  decide +kernel

theorem test_sbi :
    ((runs [0xDE, 0x01] ({ at0100 with flags := fl 0 0 0 1 0 })
      (fun s => { s with a := 0xFE, pc := 0x0102, flags := fl 0 1 0 1 0 })) &&
    (runs [0xDE, 0x05] ({ at0100 with a := 0x05, flags := fl 0 0 0 1 0 })
      (fun s => { s with a := 0xFF, pc := 0x0102, flags := fl 0 1 1 0 0 }))) = true := by
  decide +kernel

theorem test_inx :
    ((runs [0x23] ({ at0100 with h := 0xFF, l := 0xFF }) (fun s => { s with h := 0x00, l := 0x00, pc := 0x0101 })) &&
    (runs [0x13] ({ at0100 with d := 0x38, e := 0xFF }) (fun s => { s with d := 0x39, e := 0x00, pc := 0x0101 })) &&
    (runs [0x33] ({ at0100 with sp := 0xFFFF }) (fun s => { s with sp := 0x0000, pc := 0x0101 }))) = true := by
  decide +kernel

theorem test_dcx :
    ((runs [0x2B] ({ at0100 with h := 0x98 }) (fun s => { s with h := 0x97, l := 0xFF, pc := 0x0101 })) &&
    (runs [0x0B] at0100 (fun s => { s with b := 0xFF, c := 0xFF, pc := 0x0101 })) &&
    (runs [0x3B] ({ at0100 with sp := 0x0000 }) (fun s => { s with sp := 0xFFFF, pc := 0x0101 }))) = true := by
  decide +kernel

theorem test_daa :
    ((runs [0x27] ({ at0100 with a := 0x9B }) (fun s => { s with a := 0x01, pc := 0x0101, flags := fl 0 0 0 1 0 })) &&
    (runs [0x27] ({ at0100 with a := 0xA0 })
      (fun s => { s with a := 0x00, pc := 0x0101, flags := fl 1 0 1 1 0 }))) = true := by
  decide +kernel

/-! ## One step: logic (95_test_vectors.md V3) -/

theorem test_ana :
    ((runs [0xA1] ({ at0100 with a := 0xFC, c := 0x0F, flags := fl 0 0 0 1 1 })
      (fun s => { s with a := 0x0C, pc := 0x0101, flags := fl 0 0 1 0 0 })) &&
    (runs [0xA0] ({ at0100 with a := 0xFF, b := 0x80, flags := fl 0 0 0 1 0 })
      (fun s => { s with a := 0x80, pc := 0x0101, flags := fl 0 1 0 0 0 })) &&
    (runs [0xA6] ({ at0100 with a := 0xF0, h := 0x20, flags := fl 0 0 0 1 0, mem := store [] [(0x2000, 0x0F)] })
      (fun s => { s with a := 0x00, pc := 0x0101, flags := fl 1 0 1 0 0 }))) = true := by
  decide +kernel

theorem test_xra :
    ((runs [0xAF] ({ at0100 with a := 0x5C, flags := fl 0 1 0 1 1 })
      (fun s => { s with a := 0x00, pc := 0x0101, flags := fl 1 0 1 0 0 })) &&
    (runs [0xA8] ({ at0100 with a := 0xFF, b := 0x0F })
      (fun s => { s with a := 0xF0, pc := 0x0101, flags := fl 0 1 1 0 0 })) &&
    (runs [0xAE] ({ at0100 with a := 0x5C, h := 0x20, mem := store [] [(0x2000, 0x78)] })
      (fun s => { s with a := 0x24, pc := 0x0101, flags := fl 0 0 1 0 0 }))) = true := by
  decide +kernel

theorem test_ora :
    ((runs [0xB1] ({ at0100 with a := 0x33, c := 0x0F, flags := fl 0 0 0 1 0 })
      (fun s => { s with a := 0x3F, pc := 0x0101, flags := fl 0 0 1 0 0 })) &&
    (runs [0xB7] ({ at0100 with flags := fl 0 1 0 1 0 }) (fun s => { s with pc := 0x0101, flags := fl 1 0 1 0 0 })) &&
    (runs [0xB6] ({ at0100 with a := 0x80, h := 0x20, mem := store [] [(0x2000, 0x01)] })
      (fun s => { s with a := 0x81, pc := 0x0101, flags := fl 0 1 1 0 0 }))) = true := by
  decide +kernel

theorem test_cmp :
    ((runs [0xBB] ({ at0100 with a := 0x0A, e := 0x05 }) (fun s => { s with pc := 0x0101, flags := fl 0 0 1 0 0 })) &&
    (runs [0xB8] ({ at0100 with a := 0x40, b := 0x40, flags := fl 0 0 0 1 0 })
      (fun s => { s with pc := 0x0101, flags := fl 1 0 1 0 0 })) &&
    (runs [0xBE] ({ at0100 with h := 0x20, mem := store [] [(0x2000, 0x01)] })
      (fun s => { s with pc := 0x0101, flags := fl 0 1 1 1 0 }))) = true := by
  decide +kernel

theorem test_cpi :
    ((runs [0xFE, 0x40] ({ at0100 with a := 0x4A }) (fun s => { s with pc := 0x0102, flags := fl 0 0 1 0 0 })) &&
    (runs [0xFE, 0x1B] ({ at0100 with a := 0x1B, flags := fl 0 0 0 1 0 })
      (fun s => { s with pc := 0x0102, flags := fl 1 0 1 0 0 }))) = true := by
  decide +kernel

theorem test_ani :
    (runs [0xE6, 0x0F] ({ at0100 with a := 0x3A, flags := fl 0 0 0 1 1 })
      (fun s => { s with a := 0x0A, pc := 0x0102, flags := fl 0 0 1 0 0 })) = true := by
  decide +kernel

theorem test_xri :
    (runs [0xEE, 0x81] ({ at0100 with a := 0x3B, flags := fl 0 0 0 1 0 })
      (fun s => { s with a := 0xBA, pc := 0x0102, flags := fl 0 1 0 0 0 })) = true := by
  decide +kernel

theorem test_ori :
    (runs [0xF6, 0x0F] ({ at0100 with a := 0xB5, flags := fl 0 0 0 1 0 })
      (fun s => { s with a := 0xBF, pc := 0x0102, flags := fl 0 1 0 0 0 })) = true := by
  decide +kernel

theorem test_rlc :
    ((runs [0x07] ({ at0100 with a := 0xF2 }) (fun s => { s with a := 0xE5, pc := 0x0101, flags := fl 0 0 0 1 0 })) &&
    (runs [0x07] ({ at0100 with flags := fl 0 0 0 1 0 })
      (fun s => { s with pc := 0x0101, flags := fl 0 0 0 0 0 }))) = true := by
  decide +kernel

theorem test_rrc :
    ((runs [0x0F] ({ at0100 with a := 0xF2, flags := fl 0 0 0 1 0 })
      (fun s => { s with a := 0x79, pc := 0x0101, flags := fl 0 0 0 0 0 })) &&
    (runs [0x0F] ({ at0100 with a := 0x01 })
      (fun s => { s with a := 0x80, pc := 0x0101, flags := fl 0 0 0 1 0 }))) = true := by
  decide +kernel

theorem test_ral :
    ((runs [0x17] ({ at0100 with a := 0xB5 }) (fun s => { s with a := 0x6A, pc := 0x0101, flags := fl 0 0 0 1 0 })) &&
    (runs [0x17] ({ at0100 with flags := fl 0 0 0 1 0 })
      (fun s => { s with a := 0x01, pc := 0x0101, flags := fl 0 0 0 0 0 }))) = true := by
  decide +kernel

theorem test_rar :
    ((runs [0x1F] ({ at0100 with a := 0x6A, flags := fl 0 0 0 1 0 })
      (fun s => { s with a := 0xB5, pc := 0x0101, flags := fl 0 0 0 0 0 })) &&
    (runs [0x1F] ({ at0100 with a := 0x01 })
      (fun s => { s with a := 0x00, pc := 0x0101, flags := fl 0 0 0 1 0 }))) = true := by
  decide +kernel

theorem test_cma :
    (runs [0x2F] ({ at0100 with a := 0x51, flags := fl 1 0 0 1 0 })
      (fun s => { s with a := 0xAE, pc := 0x0101 })) = true := by
  decide +kernel

theorem test_stc :
    (runs [0x37] at0100 (fun s => { s with pc := 0x0101, flags := fl 0 0 0 1 0 })) = true := by
  decide +kernel

theorem test_cmc :
    ((runs [0x3F] ({ at0100 with flags := fl 0 0 0 1 0 })
      (fun s => { s with pc := 0x0101, flags := fl 0 0 0 0 0 })) &&
    (runs [0x3F] at0100 (fun s => { s with pc := 0x0101, flags := fl 0 0 0 1 0 }))) = true := by
  decide +kernel

/-! ## One step: control (95_test_vectors.md V4) -/

theorem test_jmp :
    ((runs [0xC3, 0x34, 0x12] at0100 (fun s => { s with pc := 0x1234 })) &&
    (raises [0xC3, 0x00] ({ at0100 with pc := 0xFFFE }) 65536)) = true := by
  decide +kernel

theorem test_jnz :
    ((runs [0xC2, 0x00, 0x20] at0100 (fun s => { s with pc := 0x2000 })) &&
    (runs [0xC2, 0x00, 0x20] ({ at0100 with flags := fl 1 0 0 0 0 }) (fun s => { s with pc := 0x0103 }))) = true := by
  decide +kernel

theorem test_jz :
    ((runs [0xCA, 0x00, 0x20] ({ at0100 with flags := fl 1 0 0 0 0 }) (fun s => { s with pc := 0x2000 })) &&
    (raises [0xCA, 0x00, 0x20] ({ at0100 with pc := 0xFFFD }) 65536)) = true := by
  decide +kernel

theorem test_jnc :
    ((runs [0xD2, 0x00, 0x20] at0100 (fun s => { s with pc := 0x2000 })) &&
    (runs [0xD2, 0x00, 0x20] ({ at0100 with flags := fl 0 0 0 1 0 }) (fun s => { s with pc := 0x0103 }))) = true := by
  decide +kernel

theorem test_jc :
    ((runs [0xDA, 0x00, 0x20] ({ at0100 with flags := fl 0 0 0 1 0 }) (fun s => { s with pc := 0x2000 })) &&
    (runs [0xDA, 0x00, 0x20] at0100 (fun s => { s with pc := 0x0103 }))) = true := by
  decide +kernel

theorem test_jpo :
    ((runs [0xE2, 0x00, 0x20] at0100 (fun s => { s with pc := 0x2000 })) &&
    (runs [0xE2, 0x00, 0x20] ({ at0100 with flags := fl 0 0 1 0 0 }) (fun s => { s with pc := 0x0103 }))) = true := by
  decide +kernel

theorem test_jpe :
    ((runs [0xEA, 0x00, 0x20] ({ at0100 with flags := fl 0 0 1 0 0 }) (fun s => { s with pc := 0x2000 })) &&
    (runs [0xEA, 0x00, 0x20] at0100 (fun s => { s with pc := 0x0103 }))) = true := by
  decide +kernel

theorem test_jp :
    ((runs [0xF2, 0x00, 0x20] at0100 (fun s => { s with pc := 0x2000 })) &&
    (runs [0xF2, 0x00, 0x20] ({ at0100 with flags := fl 0 1 0 0 0 }) (fun s => { s with pc := 0x0103 }))) = true := by
  decide +kernel

theorem test_jm :
    ((runs [0xFA, 0x00, 0x20] ({ at0100 with flags := fl 0 1 0 0 0 }) (fun s => { s with pc := 0x2000 })) &&
    (runs [0xFA, 0x00, 0x20] at0100 (fun s => { s with pc := 0x0103 }))) = true := by
  decide +kernel

theorem test_call :
    ((runs [0xCD, 0x00, 0x20] at0100
      (fun s => { s with sp := 0x23FE, pc := 0x2000, mem := store s.mem [(0x23FE, 0x03), (0x23FF, 0x01)] })) &&
    (raises [0xCD, 0x00, 0x20] ({ at0100 with sp := 0x0001 }) (-1))) = true := by
  decide +kernel

theorem test_ret :
    ((runs [0xC9] ({ at0100 with mem := store [] [(0x2400, 0x03), (0x2401, 0x01)] })
      (fun s => { s with sp := 0x2402, pc := 0x0103 })) &&
    (raises [0xC9] ({ at0100 with sp := 0xFFFE, mem := store [] [(0xFFFE, 0x03), (0xFFFF, 0x01)] }) 65536)) = true := by
  decide +kernel

theorem test_rnz :
    ((runs [0xC0] ({ at0100 with mem := store [] [(0x2400, 0x78), (0x2401, 0x56)] })
      (fun s => { s with sp := 0x2402, pc := 0x5678 })) &&
    (runs [0xC0] ({ at0100 with flags := fl 1 0 0 0 0, mem := store [] [(0x2400, 0x78), (0x2401, 0x56)] })
      (fun s => { s with pc := 0x0101 }))) = true := by
  decide +kernel

theorem test_rz :
    ((runs [0xC8] ({ at0100 with flags := fl 1 0 0 0 0, mem := store [] [(0x2400, 0x78), (0x2401, 0x56)] })
      (fun s => { s with sp := 0x2402, pc := 0x5678 })) &&
    (runs [0xC8] ({ at0100 with sp := 0xFFFE }) (fun s => { s with pc := 0x0101 }))) = true := by
  decide +kernel

theorem test_rnc :
    ((runs [0xD0] ({ at0100 with mem := store [] [(0x2400, 0x78), (0x2401, 0x56)] })
      (fun s => { s with sp := 0x2402, pc := 0x5678 })) &&
    (runs [0xD0] ({ at0100 with flags := fl 0 0 0 1 0, mem := store [] [(0x2400, 0x78), (0x2401, 0x56)] })
      (fun s => { s with pc := 0x0101 }))) = true := by
  decide +kernel

theorem test_rc :
    ((runs [0xD8] ({ at0100 with flags := fl 0 0 0 1 0, mem := store [] [(0x2400, 0x78), (0x2401, 0x56)] })
      (fun s => { s with sp := 0x2402, pc := 0x5678 })) &&
    (runs [0xD8] ({ at0100 with mem := store [] [(0x2400, 0x78), (0x2401, 0x56)] })
      (fun s => { s with pc := 0x0101 }))) = true := by
  decide +kernel

theorem test_rpo :
    ((runs [0xE0] ({ at0100 with mem := store [] [(0x2400, 0x78), (0x2401, 0x56)] })
      (fun s => { s with sp := 0x2402, pc := 0x5678 })) &&
    (runs [0xE0] ({ at0100 with flags := fl 0 0 1 0 0, mem := store [] [(0x2400, 0x78), (0x2401, 0x56)] })
      (fun s => { s with pc := 0x0101 }))) = true := by
  decide +kernel

theorem test_rpe :
    ((runs [0xE8] ({ at0100 with flags := fl 0 0 1 0 0, mem := store [] [(0x2400, 0x78), (0x2401, 0x56)] })
      (fun s => { s with sp := 0x2402, pc := 0x5678 })) &&
    (runs [0xE8] ({ at0100 with mem := store [] [(0x2400, 0x78), (0x2401, 0x56)] })
      (fun s => { s with pc := 0x0101 }))) = true := by
  decide +kernel

theorem test_rp :
    ((runs [0xF0] ({ at0100 with mem := store [] [(0x2400, 0x78), (0x2401, 0x56)] })
      (fun s => { s with sp := 0x2402, pc := 0x5678 })) &&
    (runs [0xF0] ({ at0100 with flags := fl 0 1 0 0 0, mem := store [] [(0x2400, 0x78), (0x2401, 0x56)] })
      (fun s => { s with pc := 0x0101 }))) = true := by
  decide +kernel

theorem test_rm :
    ((runs [0xF8] ({ at0100 with flags := fl 0 1 0 0 0, mem := store [] [(0x2400, 0x78), (0x2401, 0x56)] })
      (fun s => { s with sp := 0x2402, pc := 0x5678 })) &&
    (runs [0xF8] ({ at0100 with mem := store [] [(0x2400, 0x78), (0x2401, 0x56)] })
      (fun s => { s with pc := 0x0101 }))) = true := by
  decide +kernel

theorem test_cnz :
    ((runs [0xC4, 0x00, 0x20] at0100
      (fun s => { s with sp := 0x23FE, pc := 0x2000, mem := store s.mem [(0x23FE, 0x03), (0x23FF, 0x01)] })) &&
    (runs [0xC4, 0x00, 0x20] ({ at0100 with flags := fl 1 0 0 0 0 }) (fun s => { s with pc := 0x0103 }))) = true := by
  decide +kernel

theorem test_cz :
    ((runs [0xCC, 0x00, 0x20] ({ at0100 with flags := fl 1 0 0 0 0 })
      (fun s => { s with sp := 0x23FE, pc := 0x2000, mem := store s.mem [(0x23FE, 0x03), (0x23FF, 0x01)] })) &&
    (raises [0xCC, 0x00, 0x20] ({ at0100 with pc := 0xFFFD }) 65536)) = true := by
  decide +kernel

theorem test_cnc :
    (runs [0xD4, 0x00, 0x20] ({ at0100 with flags := fl 0 0 0 1 0 }) (fun s => { s with pc := 0x0103 })) = true := by
  decide +kernel

theorem test_cc :
    (runs [0xDC, 0x00, 0x20] ({ at0100 with flags := fl 0 0 0 1 0 })
      (fun s => { s with sp := 0x23FE, pc := 0x2000, mem := store s.mem [(0x23FE, 0x03), (0x23FF, 0x01)] })) = true := by
  decide +kernel

theorem test_cpo :
    (runs [0xE4, 0x00, 0x20] at0100
      (fun s => { s with sp := 0x23FE, pc := 0x2000, mem := store s.mem [(0x23FE, 0x03), (0x23FF, 0x01)] })) = true := by
  decide +kernel

theorem test_cpe :
    (runs [0xEC, 0x00, 0x20] at0100 (fun s => { s with pc := 0x0103 })) = true := by
  decide +kernel

theorem test_cp :
    (runs [0xF4, 0x00, 0x20] at0100
      (fun s => { s with sp := 0x23FE, pc := 0x2000, mem := store s.mem [(0x23FE, 0x03), (0x23FF, 0x01)] })) = true := by
  decide +kernel

theorem test_cm :
    (runs [0xFC, 0x00, 0x20] at0100 (fun s => { s with pc := 0x0103 })) = true := by
  decide +kernel

theorem test_rst :
    ((runs [0xCF] at0100
      (fun s => { s with sp := 0x23FE, pc := 0x0008, mem := store s.mem [(0x23FE, 0x01), (0x23FF, 0x01)] })) &&
    (raises [0xDF] ({ at0100 with sp := 0x0001 }) (-1))) = true := by
  decide +kernel

theorem test_pchl :
    ((runs [0xE9] ({ at0100 with h := 0x41, l := 0x3E }) (fun s => { s with pc := 0x413E })) &&
    (runs [0xE9] ({ at0100 with h := 0x41, l := 0x3E, pc := 0xFFFF })
      (fun s => { s with pc := 0x413E }))) = true := by
  decide +kernel

/-! ## One step: stack (95_test_vectors.md V5) -/

theorem test_push :
    ((runs [0xC5] ({ at0100 with b := 0x12, c := 0x34 })
      (fun s => { s with sp := 0x23FE, pc := 0x0101, mem := store s.mem [(0x23FE, 0x34), (0x23FF, 0x12)] })) &&
    (raises [0xC5] ({ at0100 with b := 0x01, c := 0x02, sp := 0x0001 }) (-1)) &&
    (runs [0xF5] ({ at0100 with a := 0x1F, flags := fl 1 0 1 1 0 })
      (fun s => { s with sp := 0x23FE, pc := 0x0101, mem := store s.mem [(0x23FE, 0x0D), (0x23FF, 0x1F)] })) &&
    (runs [0xF5] ({ at0100 with a := 0xFF, flags := fl 1 1 1 1 1 })
      (fun s => { s with sp := 0x23FE, pc := 0x0101, mem := store s.mem [(0x23FE, 0x1F), (0x23FF, 0xFF)] }))) = true := by
  decide +kernel

theorem test_pop :
    ((runs [0xC1] ({ at0100 with mem := store [] [(0x2400, 0x3D), (0x2401, 0x93)] })
      (fun s => { s with b := 0x93, c := 0x3D, sp := 0x2402, pc := 0x0101 })) &&
    (raises [0xC1] ({ at0100 with sp := 0xFFFE, mem := store [] [(0xFFFE, 0x01), (0xFFFF, 0x02)] }) 65536) &&
    (runs [0xF1] ({ at0100 with mem := store [] [(0x2400, 0x0A), (0x2401, 0x55)] })
      (fun s => { s with a := 0x55, sp := 0x2402, pc := 0x0101, flags := fl 0 1 0 1 0 })) &&
    (runs [0xF1] ({ at0100 with flags := fl 1 0 0 1 0, mem := store [] [(0x2400, 0xE0), (0x2401, 0x12)] })
      (fun s => { s with a := 0x12, sp := 0x2402, pc := 0x0101, flags := fl 0 0 0 0 0 }))) = true := by
  decide +kernel

theorem test_xthl :
    ((runs [0xE3] ({ at0100 with h := 0x0B, l := 0x3C, sp := 0x10AD, mem := store [] [(0x10AD, 0xF0), (0x10AE, 0x0D)] })
      (fun s => { s with h := 0x0D, l := 0xF0, pc := 0x0101, mem := store s.mem [(0x10AD, 0x3C), (0x10AE, 0x0B)] })) &&
    (raises [0xE3] ({ at0100 with sp := 0xFFFF }) 65536)) = true := by
  decide +kernel

/-! ## One step: io (95_test_vectors.md V6) -/

theorem test_in :
    ((runs [0xDB, 0x01] ({ at0100 with a := 0x55, flags := fl 1 0 0 0 0 })
      (fun s => { s with a := 0x00, pc := 0x0102 })) &&
    (raises [0xDB] ({ at0100 with a := 0x55, pc := 0xFFFF }) 65536)) = true := by
  decide +kernel

theorem test_out :
    ((runs [0xD3, 0x02] ({ at0100 with a := 0x55 }) (fun s => { s with pc := 0x0102 })) &&
    (raises [0xD3, 0x02] ({ at0100 with pc := 0xFFFE }) 65536)) = true := by
  decide +kernel

theorem test_ei :
    ((runs [0xFB] at0100 (fun s => { s with ie := true, pc := 0x0101 })) &&
    (raises [0xFB] ({ at0100 with pc := 0xFFFF }) 65536)) = true := by
  decide +kernel

theorem test_di :
    (runs [0xF3] ({ at0100 with ie := true }) (fun s => { s with ie := false, pc := 0x0101 })) = true := by
  decide +kernel

theorem test_nop :
    (runs [0x00] at0100 (fun s => { s with pc := 0x0101 })) = true := by
  decide +kernel

/-! ## Absent opcodes and the handler table (95_test_vectors.md V7) -/

theorem test_absent_bytes :
    (([0x08, 0x10, 0x18, 0x20, 0x28, 0x30, 0x38, 0x76, 0xCB, 0xD9, 0xDD, 0xED, 0xFD] : List Byte).all
      (fun b => latches [b, 0x12, 0x34] at0100 (.unimplementedOpcode b))) = true := by
  decide +kernel

theorem test_absent_completion_bytes :
    (([0x00, 0x7F, 0xC6, 0x22, 0xFF, 0xF3] : List Byte).all
      (fun b => latches [b, 0x12, 0x34] docOnly (.unimplementedOpcode b))) = true := by
  decide +kernel

/-- The table is looked up before an operand is fetched. -/
theorem test_absent_at_the_top :
    (latches [0x08] { at0100 with pc := 0xFFFF } (.unimplementedOpcode 0x08) &&
      latches [0x22] { docOnly with pc := 0xFFFF } (.unimplementedOpcode 0x22)) = true := by
  decide +kernel

/-! ## The poll (95_test_vectors.md V8) -/

/-- The state before the polls of V8. -/
def beforePoll (pc sp : Word) (lastFire : Nat) : State :=
  { at0100 with pc := pc, sp := sp, ie := true, lastFire := lastFire }

/-- Row 1, and row 2 one unit short, and row 3 with `IE` at 0. -/
theorem test_poll_condition :
    poll (beforePoll 0x0123 0x2400 0) { now := 100, vector := 2 } =
        { beforePoll 0x0123 0x2400 0 with
          ie := false, sp := 0x23FE, pc := 0x0010, lastFire := 100, mem := store [] [(0x23FE, 0x23), (0x23FF, 0x01)] } ∧
      poll (beforePoll 0x0123 0x2400 0) { now := 99, vector := 2 } = beforePoll 0x0123 0x2400 0 ∧
      poll { beforePoll 0x0123 0x2400 0 with ie := false } { now := 100000, vector := 2 } =
        { beforePoll 0x0123 0x2400 0 with ie := false } := by
  decide +kernel

/-- Rows 4 and 5: the period is counted from the last fire. -/
theorem test_poll_counts_from_the_last_fire :
    (poll (beforePoll 0x0123 0x2400 900) { now := 1000, vector := 1 }).pc = 0x0008 ∧
      poll (beforePoll 0x0123 0x2400 900) { now := 999, vector := 1 } = beforePoll 0x0123 0x2400 900 := by
  decide +kernel

/-- Rows 7, 8, 9: the highest vector, `PC` at the top, the lowest `SP` with room. -/
theorem test_poll_entry_corners :
    (poll (beforePoll 0x0123 0x2400 0) { now := 500, vector := 7 }).pc = 0x0038 ∧
      (poll (beforePoll 0xFFFF 0x2400 0) { now := 500, vector := 3 }).mem = store [] [(0x23FE, 0xFF), (0x23FF, 0xFF)] ∧
      (poll (beforePoll 0x0123 0x0002 0) { now := 500, vector := 2 }).mem = store [] [(0, 0x23), (1, 0x01)] := by
  decide +kernel

/-- Rows 10 and 11: an entry that raises changes nothing but the latch. -/
theorem test_poll_entry_raises :
    poll (beforePoll 0x0123 0x0001 0) { now := 500, vector := 2 } =
        { beforePoll 0x0123 0x0001 0 with fault := some (.outOfRangeMemoryAccess (-1)) } ∧
      poll (beforePoll 0x0123 0x0000 0) { now := 500, vector := 2 } =
        { beforePoll 0x0123 0x0000 0 with fault := some (.outOfRangeMemoryAccess (-2)) } := by
  decide +kernel

/-- The poll of the iteration that runs EI fires: no delay (V8, the fourth sequence). -/
theorem test_step_ei_then_poll :
    (match step (placed [0xFB] { at0100 with env := { now := 0, polls := 0, script := [.sample 500 2] } }) with
      | .next t => decide (t.ie = false ∧ t.pc = 0x0010 ∧ t.sp = 0x23FE ∧ t.lastFire = 500 ∧
          t.mem = store [] [(0x0100, 0xFB), (0x23FE, 0x01), (0x23FF, 0x01)])
      | .fault _ => false
      | .refused _ => false) = true := by
  decide +kernel

/-- A step that faults is polled no more (V8, the fifth sequence). -/
theorem test_step_fault_is_not_polled :
    latches [0x08] { at0100 with ie := true, env := { now := 0, polls := 0, script := [.sample 500 2] } }
      (.unimplementedOpcode 0x08) = true := by
  decide +kernel

/-! ## Reset, and the host's entry points (95_test_vectors.md V9, S8) -/

/-- A FAULTED core. -/
def faulted : State := { at0100 with a := 0x77, fault := some (.unimplementedOpcode 0x08), mem := [(0x0100, 0x08)] }

/-- Reset of a FAULTED core with `ROM = [0x3E, 0x05]`. -/
theorem test_reset_of_a_faulted_core :
    (match step { faulted with params := { faulted.params with rom := [0x3E, 0x05] }
                               env := { now := 7, polls := 3, script := [.sample 1 1, .reset] } } with
      | .next t => decide (t.fault = none ∧ t.a = 0 ∧ t.pc = 0 ∧ t.sp = 0 ∧ t.mem = [(0, 0x3E), (1, 0x05)])
      | .fault _ => false
      | .refused _ => false) = true := by
  decide +kernel

/-- S8: `ROM = [0x3E, 0x05]`, one step from reset. -/
theorem test_boot_runs_the_rom :
    (match State.boot { at0100.params with rom := [0x3E, 0x05] } [] with
      | some s => (match step s with
        | .next t => decide (t.a = 0x05 ∧ t.pc = 0x0002)
        | .fault _ => false
        | .refused _ => false)
      | none => false) = true := by
  decide +kernel

/-- 93_implementation_defined.md U12: a period of 0 gives no machine. -/
theorem test_boot_refuses_period_zero : State.boot { extra := [], rom := [], period := 0 } [] = none := by
  decide

/-- The host's word of MVI A,5 runs as the first instruction after reset, and decodes to it. -/
theorem test_withFetchWord :
    (match step (State.reset.withFetchWord 16 0x053E) with
      | .next t => decide (t.a = 0x05 ∧ t.pc = 0x0002)
      | .fault _ => false
      | .refused _ => false) = true ∧ decodeTableWord 16 0x053E = some (.mviR .a 0x05) := by
  decide +kernel

/-! ## Witnesses: the hypotheses of each obligation are met

Where an obligation is made of the shapes of Safety.lean (`RunsPlain` and its like), the witness goes through its
instructions: for each clause of the shape a state that meets the hypotheses of the clause at their boundary, and what
the instruction does there. -/

/-- The default state at another `PC`. -/
def atPC (n : Nat) : State := { at0100 with pc := BitVec.ofNat 16 n }

/-- The instruction answers a next state without a fault. -/
def completes (i : Instr) (s : State) : Bool :=
  match exec i s with
  | .next t => decide (t.fault = none)
  | .fault _ => false
  | .refused _ => false

/-- The instruction latches `OutOfRangeMemoryAccess(x)` and changes nothing else. -/
def raisesAt (i : Instr) (s : State) (x : Int) : Bool :=
  match exec i s with
  | .next t => decide (t = { s with fault := some (.outOfRangeMemoryAccess x) })
  | .fault _ => false
  | .refused _ => false

/-- `PC + len = 65535`, the last `PC` at which `NextPC(len)` does not raise: the hypothesis holds, the instruction
completes. -/
def fits (i : Instr) : Bool :=
  decide ((atPC (65535 - i.length)).pc.toNat + i.length < 65536) && completes i (atPC (65535 - i.length))

/-- `PC + len = 65536`, where it raises. -/
def nextPCEdge (i : Instr) : Bool :=
  decide ((atPC (65536 - i.length)).pc.toNat + i.length = 65536) && raisesAt i (atPC (65536 - i.length)) 65536

/-- `PC + len = 65537` with the instruction's bytes placed: the opcode is there and has a handler, its last operand byte
is past the top, and the fetch raises. -/
def operandEdge (i : Instr) : Bool :=
  let s := placed (encode i) (atPC (65537 - i.length))
  decide (opcodeAt s = i.opcode) && s.params.inTable i.opcode && decide (65536 < s.pc.toNat + i.length) &&
    latches (encode i) (atPC (65537 - i.length)) (.outOfRangeMemoryAccess 65536)

/-- All the clauses of `RunsPlain`. -/
def plainEdges (i : Instr) : Bool := fits i && nextPCEdge i

/-- All the clauses of `RunsWithOperands`. -/
def operandEdges (i : Instr) : Bool := fits i && nextPCEdge i && operandEdge i

/-- The default state with every flag set, or clear, at another `PC` and `SP`. -/
def flagged (v : Bool) (pc sp : Nat) : State :=
  { atPC pc with sp := BitVec.ofNat 16 sp, flags := { z := v, s := v, p := v, cy := v, ac := v } }

/-- All the clauses of `RunsAsJump`, for a jump that is taken when its flag is `v`: taken at the top of memory, not taken
at the last `PC` with room, not taken and raising one above. -/
def jumpEdges (mk : Word → Instr) (v : Bool) : Bool :=
  let i := mk 0x1234
  completes i (flagged v 0xFFFD 0x2400) && completes i (flagged (!v) 0xFFFC 0x2400) &&
    raisesAt i (flagged (!v) 0xFFFD 0x2400) 65536 && operandEdge i

/-- All the clauses of `RunsAsCall`, for a call that is taken when its flag is `v`: taken with `SP = 2`, not taken with
`SP = 0`, raising with `SP = 1` and `SP = 0`, and the two faults at the top of memory. -/
def callEdges (mk : Word → Instr) (v : Bool) : Bool :=
  let i := mk 0x1234
  completes i (flagged v 0xFFFC 2) && raisesAt i (flagged v 0xFFFC 1) (-1) && raisesAt i (flagged v 0xFFFC 0) (-2) &&
    nextPCEdge i && operandEdge i

/-- All the clauses of `RunsAsReturn`, for a return that is taken when its flag is `v`. -/
def returnEdges (i : Instr) (v : Bool) : Bool :=
  completes i (flagged v 0xFFFF 0xFFFD) && raisesAt i (flagged v 0x0100 0xFFFE) 65536 &&
    raisesAt i (flagged v 0x0100 0xFFFF) 65536

/-- Such a return when it is not taken. -/
def untakenEdges (i : Instr) (v : Bool) : Bool :=
  completes i (flagged (!v) 0xFFFE 0xFFFF) && raisesAt i (flagged (!v) 0xFFFF 0x2400) 65536

theorem witness_DecodeEncodeRoundTrip :
    (Instr.shld 0xFFFE).wellFormed = true ∧ (Instr.absent 0x08).wellFormed = true := by decide

theorem witness_DecodedBytesAreTheEncoding :
    decode [0x22, 0xFE, 0xFF, 0x76] = .ok (.shld 0xFFFE, [0x76]) := rfl

/-- Two instructions of one opcode, one of each other length, and an absent one. -/
theorem witness_LengthIsAFunctionOfTheOpcode :
    (Instr.lxi .bc 0x0000).wellFormed = true ∧ (Instr.lxi .bc 0xFFFF).wellFormed = true ∧
      (Instr.lxi .bc 0x0000).tier ≠ .absent ∧ (Instr.lxi .bc 0x0000).opcode = (Instr.lxi .bc 0xFFFF).opcode ∧
      (Instr.adi 0xFF).wellFormed = true ∧ (Instr.adi 0xFF).tier ≠ .absent ∧
      Instr.nop.wellFormed = true ∧ Instr.nop.tier ≠ .absent ∧
      (Instr.absent 0xFD).wellFormed = true ∧ (Instr.absent 0xFD).tier = .absent := by decide

/-- The smallest table and the largest. -/
theorem witness_HandlerTablesAreTheLegalOnes :
    ((∀ b ∈ tableDoc, b ∈ tableDoc) ∧ ∀ b ∈ tableDoc, b ∈ tableDoc ++ tableCompletion) ∧
      (∀ b ∈ tableDoc, b ∈ tableDoc ++ tableCompletion) ∧
      (∀ b ∈ tableDoc ++ tableCompletion, b ∈ tableDoc ++ tableCompletion) :=
  ⟨⟨fun _ h => h, fun _ h => List.mem_append_left _ h⟩, fun _ h => List.mem_append_left _ h, fun _ h => h⟩

/-- `STA 0x2000` at the top of memory but three, so that `PC + n` is 65535, and `JMP` at the very top, where it is
65536. -/
theorem witness_StepRunsTheDecodedInstruction :
    (let s := placed [0x32, 0x00, 0x20] (atPC 0xFFFC)
     decide (s.fault = none) && decide (s.env.script = [.sample 0 0]) && decide (s.pc.toNat + 3 < 65536) &&
      decodesTo (s.exportRange s.pc.toNat 3) (.sta 0x2000) && (Instr.sta 0x2000).wellFormed &&
      s.params.inTable (Instr.sta 0x2000).opcode && completes (.sta 0x2000) s) = true ∧
    (let s := placed [0xC3, 0x34, 0x12] (atPC 0xFFFD)
     decide (s.pc.toNat + 3 = 65536) && decodesTo (s.exportRange s.pc.toNat 3) (.jmp 0x1234) &&
      s.params.inTable (Instr.jmp 0x1234).opcode && completes (.jmp 0x1234) s) = true := by
  decide +kernel

/-- A step that meets the premise of each clause: an absent opcode under every table, a completion opcode left out, and
an opcode with a handler. -/
theorem witness_OpcodeWithoutHandlerRaises :
    (placed [0x08] docOnly).running ∧
    docOnly.params.inTable (opcodeAt (placed [0x08] docOnly)) = false ∧
    docOnly.params.inTable (opcodeAt (placed [0x00] docOnly)) = false ∧ (0x00 : Byte) ∈ tableCompletion ∧
    docOnly.params.inTable (opcodeAt (placed [0xAF] docOnly)) = true ∧ (0xAF : Byte) ∈ tableDoc := by
  exact ⟨⟨rfl, by simp [placed, docOnly, at0100]⟩, by decide +kernel⟩

/-- A two-byte and a three-byte instruction, at the first `PC` at which an operand byte is missing. -/
theorem witness_OperandPastTheTopOfMemoryRaises :
    (placed [0x3E] (atPC 0xFFFF)).running ∧ (operandEdge (.mviR .a 0) && operandEdge (.lhld 0xFFFF)) = true := by
  exact ⟨⟨rfl, by simp [placed, atPC, at0100]⟩, by decide +kernel⟩

theorem witness_FaultedCoreWaitsForReset :
    faulted.fault = some (.unimplementedOpcode 0x08) ∧ Input.reset ∉ faulted.env.script ∧
      ([.sample 1 1, .reset, .reset] : List Input) = [.sample 1 1] ++ .reset :: [.reset] ∧
      Input.reset ∉ ([.sample 1 1] : List Input) := by
  decide

/-- A core that runs and one that is FAULTED, each with a reset to take. -/
theorem witness_ResetInputGivesTheResetState :
    ({ at0100 with env := { now := 0, polls := 0, script := [.reset, .sample 1 1] } } : State).fault = none ∧
      ({ at0100 with env := { now := 0, polls := 0, script := [.reset, .sample 1 1] } } : State).env.script =
        [] ++ .reset :: [.sample 1 1] ∧
      faulted.fault ≠ none ∧
      ({ faulted with env := { now := 7, polls := 3, script := [.sample 1 1, .reset, .reset] } } : State).env.script =
        [.sample 1 1] ++ .reset :: [.reset] ∧ Input.reset ∉ ([.sample 1 1] : List Input) := by
  decide

/-- The longest image that fits and the shortest that does not; the shortest period, and none. -/
theorem witness_BootGivesTheResetState :
    (List.replicate 65536 (0xFF : Byte)).length ≤ 65536 ∧ 65536 < (List.replicate 65537 (0xFF : Byte)).length ∧
      0 < ({ extra := [], rom := [], period := 1 } : Params).period ∧
      ({ extra := [], rom := [], period := 0 } : Params).period = 0 := by
  simp only [List.length_replicate]
  decide

/-- A state with the invariant whose fault is none, and the two kinds of FAULTED state with it. -/
theorem witness_StepKeepsTheInvariant :
    at0100.Inv ∧ faulted.Inv ∧
      ({ at0100 with sp := 1, fault := some (.outOfRangeMemoryAccess (-1)) } : State).Inv := by
  refine ⟨⟨by decide, by decide, by decide, trivial⟩, ⟨by decide, by decide, by decide, ⟨by decide +kernel, by decide +kernel⟩⟩,
    ⟨by decide, by decide, by decide, Or.inr (by decide)⟩⟩

theorem witness_step_from_the_invariant :
    runs [0x00] at0100 (fun s => { s with pc := 0x0101 }) = true := by
  decide +kernel

theorem witness_FaultsArePrecise :
    raisesAt (.push .bc) (flagged false 0x0100 0) (-2) = true ∧
      (poll (beforePoll 0x0123 0x0001 0) { now := 500, vector := 2 }).fault ≠ none := by
  decide +kernel

theorem witness_MemoryAccessesReadAndStoreOneByte :
    (0 : Int) ≤ 0 ∧ (0 : Int) < 65536 ∧ (0 : Int) ≤ 65535 ∧ (65535 : Int) < 65536 ∧ (-1 : Int) < 0 ∧
      (65536 : Int) ≤ 65536 ∧ at0100.mem.wf ∧ (1 : Int) ≠ 0 := by
  decide

theorem witness_WordAccessesAreLittleEndian :
    at0100.mem.wf ∧ (0 : Int) ≤ 65534 ∧ (65534 : Int) + 1 < 65536 ∧ (0 : Int) + 1 < 65536 ∧ (3 : Int) ≠ 0 ∧
      (3 : Int) ≠ 0 + 1 := by
  decide

theorem witness_CanonicalMemoriesThatReadAlikeAreEqual :
    Memory.wf [(0, 0x01), (0xFFFF, 0xFF)] ∧
      ∀ x : Nat, x < 65536 → Memory.read [(0, 0x01), (0xFFFF, 0xFF)] x = Memory.read [(0, 0x01), (0xFFFF, 0xFF)] x := by
  exact ⟨by decide, fun _ _ => rfl⟩

/-- The instruction completes and stores the byte `v` at the `k`-th byte of the next instruction, the first byte of which
is in the handler table. -/
def storesAhead (i : Instr) (s : State) (k : Nat) (v : Byte) : Bool :=
  match exec i s with
  | .next t => decide (s.mem.wf ∧ s.fault = none ∧ t.fault = none) && (i.stores s).contains (addr t.pc + k, v) &&
      t.params.inTable (opcodeAt t)
  | .fault _ => false
  | .refused _ => false

/-- The byte stored is the opcode (in the last byte of memory, by a push, by a call onto its target), the
operand of MVI A, and each operand byte of LXI B in the last bytes of memory. -/
theorem witness_StoreIsSeenByTheNextFetch :
    (storesAhead (.movMR .a) { atPC 0xFFFE with a := 0xAF, h := 0xFF, l := 0xFF } 0 0xAF &&
      storesAhead (.sta 0xFFFF) { atPC 0xFFFC with a := 0xAF } 0 0xAF &&
      storesAhead (.call 0) { atPC 0xAF with sp := 2 } 0 0xB2 &&
      storesAhead .inrM { atPC 0xFFFE with h := 0xFF, l := 0xFF, mem := [(0xFFFF, 0x8F)] } 0 0x90 &&
      storesAhead (.push .bc) { atPC 0x0000 with b := 0xAF, sp := 2 } 0 0xAF &&
      storesAhead .xthl { atPC 0xFFFD with l := 0xAF, sp := 0xFFFE } 0 0xAF &&
      storesAhead (.stax .bc) { atPC 0xFFFD with b := 0xFF, c := 0xFF, a := 0x05, mem := [(0xFFFE, 0x3E)] } 1 0x05 &&
      storesAhead (.shld 0xFFFE) { atPC 0xFFFA with l := 0x34, h := 0x12, mem := [(0xFFFD, 0x01)] } 1 0x34 &&
      storesAhead (.shld 0xFFFE) { atPC 0xFFFA with l := 0x34, h := 0x12, mem := [(0xFFFD, 0x01)] } 2 0x12) = true := by
  decide +kernel

theorem witness_ImmediateLoads :
    ([Instr.mviR .b 0xFF, .lxi .bc 0x1234, .lxi .de 0, .lxi .hl 0xFFFF, .lxiSp 0xFFFF].all operandEdges) = true := by
  decide +kernel

theorem witness_StoresThroughAPair :
    (operandEdges (.mviM 0x5A) && [Instr.movMR .h, .stax .bc, .stax .de].all plainEdges) = true := by
  decide +kernel

theorem witness_LoadsThroughAPair : ([Instr.movRM .h, .ldax .bc, .ldax .de].all plainEdges) = true := by
  decide +kernel

theorem witness_RegisterMoves : ([Instr.movRR .a .a, .movRR .b .h, .xchg, .sphl].all plainEdges) = true := by
  decide +kernel

/-- The last address with room for a word, and the first without. -/
theorem witness_DirectLoadsAndStores :
    ([Instr.lda 0xFFFF, .sta 0xFFFF, .lhld 0xFFFE, .shld 0xFFFE].all operandEdges &&
      raisesAt (.lhld 0xFFFF) (atPC 0xFFFC) 65536 && raisesAt (.shld 0xFFFF) (atPC 0xFFFC) 65536) = true ∧
    (0xFFFE : Word).toNat < 65535 ∧ (atPC 0xFFFC).pc.toNat + 3 < 65536 := by
  decide +kernel

theorem witness_Additions : ([Instr.addR .a, .addM, .adcR .l, .adcM].all plainEdges) = true := by
  decide +kernel

theorem witness_Subtractions : ([Instr.subR .a, .subM, .sbbR .l, .sbbM].all plainEdges) = true := by
  decide +kernel

theorem witness_IncrementsAndDecrements : ([Instr.inrR .a, .inrM, .dcrR .l, .dcrM].all plainEdges) = true := by
  decide +kernel

theorem witness_DoubleAdditions : ([Instr.dad .bc, .dad .hl, .dadSp].all plainEdges) = true := by
  decide +kernel

theorem witness_ImmediateArithmetic :
    ([Instr.adi 0xFF, .aci 0, .sui 1, .sbi 0xFF].all operandEdges) = true := by
  decide +kernel

theorem witness_PairIncrementsAndDecrements :
    ([Instr.inx .bc, .inxSp, .dcx .hl, .dcxSp].all plainEdges) = true := by
  decide +kernel

theorem witness_DecimalAdjust : plainEdges .daa = true := by
  decide +kernel

theorem witness_LogicalOperations :
    ([Instr.anaR .a, .anaM, .xraR .a, .xraM, .oraR .b, .oraM].all plainEdges) = true := by
  decide +kernel

theorem witness_Compares : ([Instr.cmpR .a, .cmpM].all plainEdges && operandEdges (.cpi 0xFF)) = true := by
  decide +kernel

theorem witness_ImmediateLogic : ([Instr.ani 0, .xri 0xFF, .ori 1].all operandEdges) = true := by
  decide +kernel

theorem witness_Rotates : ([Instr.rlc, .rrc, .ral, .rar].all plainEdges) = true := by
  decide +kernel

theorem witness_ComplementAndCarryOperations : ([Instr.cma, .stc, .cmc].all plainEdges) = true := by
  decide +kernel

theorem witness_Jumps :
    (completes (.jmp 0x1234) (atPC 0xFFFD) && operandEdge (.jmp 0x1234) && jumpEdges .jnz false && jumpEdges .jz true &&
      jumpEdges .jnc false && jumpEdges .jc true && jumpEdges .jpo false && jumpEdges .jpe true &&
      jumpEdges .jp false && jumpEdges .jm true) = true := by
  decide +kernel

theorem witness_CallPushesTheReturnAddress : callEdges .call true = true := by
  decide +kernel

theorem witness_Returns :
    (([(.ret, true), (.rnz, false), (.rz, true), (.rnc, false), (.rc, true), (.rpo, false), (.rpe, true), (.rp, false),
      (.rm, true)] : List (Instr × Bool)).all (fun x => returnEdges x.1 x.2)) = true ∧
    (([(.rnz, false), (.rz, true), (.rnc, false), (.rc, true), (.rpo, false), (.rpe, true), (.rp, false),
      (.rm, true)] : List (Instr × Bool)).all (fun x => untakenEdges x.1 x.2)) = true := by
  decide +kernel

theorem witness_ConditionalCalls :
    (([(.cnz, false), (.cz, true), (.cnc, false), (.cc, true), (.cpo, false), (.cpe, true), (.cp, false),
      (.cm, true)] : List ((Word → Instr) × Bool)).all (fun x =>
        callEdges x.1 x.2 && completes (x.1 0x1234) (flagged (!x.2) 0xFFFC 0))) = true := by
  decide +kernel

theorem witness_RestartAndIndirectJump :
    (completes (.rst 7) (flagged false 0xFFFE 2) && raisesAt (.rst 7) (flagged false 0xFFFE 1) (-1) &&
      nextPCEdge (.rst 0) && completes .pchl (atPC 0xFFFF)) = true := by
  decide +kernel

theorem witness_Pushes :
    ([Instr.push .bc, .push .hl, .pushPsw].all (fun i =>
      completes i (flagged true 0xFFFE 2) && raisesAt i (flagged true 0xFFFE 1) (-1) &&
        raisesAt i (flagged true 0xFFFE 0) (-2) && nextPCEdge i)) = true := by
  decide +kernel

theorem witness_Pops :
    ([Instr.pop .bc, .pop .hl, .popPsw].all (fun i =>
      completes i (flagged true 0xFFFE 0xFFFD) && raisesAt i (flagged true 0xFFFE 0xFFFE) 65536 &&
        raisesAt i (flagged true 0xFFFE 0xFFFF) 65536 && nextPCEdge i)) = true := by
  decide +kernel

theorem witness_ExchangeWithTheStack :
    (completes .xthl (flagged false 0xFFFE 0xFFFE) && raisesAt .xthl (flagged false 0xFFFE 0xFFFF) 65536 &&
      nextPCEdge .xthl) = true := by
  decide +kernel

theorem witness_PushThenPopRoundTrips :
    (flagged true 0xFFFD 2).mem.wf ∧ (flagged true 0xFFFD 2).pc.toNat + 2 < 65536 ∧
      2 ≤ (flagged true 0xFFFD 2).sp.toNat := by
  decide

theorem witness_CallThenReturnRoundTrips :
    (flagged true 0xFFFC 2).mem.wf ∧ (flagged true 0xFFFC 2).pc.toNat + 3 < 65536 ∧
      2 ≤ (flagged true 0xFFFC 2).sp.toNat := by
  decide

theorem witness_PortsInterruptEnableAndNop :
    ([Instr.inp 0xFF, .inp 0, .out 0xFF].all operandEdges && [Instr.ei, .di, .nop].all plainEdges) = true := by
  decide +kernel

theorem witness_AbsentOpcodesRaise : (0xFD : Byte) ∈ undocumentedBytes ∧ (0x08 : Byte) ∈ undocumentedBytes := by
  decide

/-- Instructions that complete and change something, whose frame the statements are about: a store, a push, a call not
taken, a load. -/
theorem witness_MemoryFrame :
    (completes (.shld 0xFFFE) at0100 && completes (.push .bc) (flagged true 0x0100 2) &&
      decide ((Instr.cz 0x1234).storesTo (flagged false 0x0100 0) = []) &&
      completes (.cz 0x1234) (flagged false 0x0100 0) &&
      decide ((Instr.shld 0xFFFE).storesTo at0100 = [65534, 65535])) = true := by
  decide +kernel

theorem witness_RegisterFrame :
    (completes .xchg at0100 && completes .popPsw at0100) = true ∧ Reg.a ∉ Instr.xchg.writes.regs ∧
      Instr.xchg.writes.sp = false := by
  decide +kernel

theorem witness_FlagFrame :
    completes (.inrR .a) at0100 = true ∧ (Instr.inrR .a).writes.cy = false ∧ (Instr.addM).writes.ac = false ∧
      (Instr.dadSp).writes.zsp = false ∧ (Instr.xraR .a).logical = true ∧ at0100.fault = none ∧
      completes (.xraR .a) at0100 = true := by
  decide +kernel

theorem witness_ControlTransfersWriteNoFlag :
    Instr.ret.isTransfer = true ∧ completes .ret at0100 = true ∧ (Instr.jmp 0x1234).isTransfer = true ∧
      (Instr.jmp 0x1234).writes.sp = false ∧ completes (.jmp 0x1234) at0100 = true := by
  decide +kernel

theorem witness_ControlStateFrame :
    completes .nop at0100 = true ∧ Instr.nop ≠ .ei ∧ Instr.nop ≠ .di := by
  decide +kernel

/-- On, one unit short of, and without the condition; with the least room for the push. -/
theorem witness_PollFiresExactlyOnItsCondition :
    ((beforePoll 0x0123 2 0).ie = true ∧ (beforePoll 0x0123 2 0).params.period ≤ 100 - (beforePoll 0x0123 2 0).lastFire ∧
      2 ≤ (beforePoll 0x0123 2 0).sp.toNat) ∧
    ¬ ((beforePoll 0x0123 2 0).ie = true ∧
      (beforePoll 0x0123 2 0).params.period ≤ 99 - (beforePoll 0x0123 2 0).lastFire) ∧
    ¬ (at0100.ie = true ∧ at0100.params.period ≤ 100 - at0100.lastFire) := by
  decide

theorem witness_InterruptEntry :
    (beforePoll 0x0123 2 900).ie = true ∧
      (beforePoll 0x0123 2 900).params.period ≤ 1000 - (beforePoll 0x0123 2 900).lastFire ∧
      2 ≤ (beforePoll 0x0123 2 900).sp.toNat ∧ (beforePoll 0x0123 1 900).ie = true ∧
      (beforePoll 0x0123 1 900).params.period ≤ 1000 - (beforePoll 0x0123 1 900).lastFire ∧
      (beforePoll 0x0123 1 900).sp.toNat < 2 := by
  decide

theorem witness_NoSecondEntryUntilEnabled :
    (beforePoll 0x0123 2 0).fault = none ∧ (poll (beforePoll 0x0123 2 0) { now := 100, vector := 2 }).fault = none ∧
      poll (beforePoll 0x0123 2 0) { now := 100, vector := 2 } ≠ beforePoll 0x0123 2 0 := by
  decide +kernel

/-- A NOP after which the poll fires, exactly a period after the last fire. -/
def entersNext : State :=
  { placed [0x00] (beforePoll 0x0123 2 900) with env := { now := 950, polls := 3, script := [.sample 50 7] } }

theorem witness_EntriesAreAPeriodApart :
    entersNext.Inv ∧ entersNext.running ∧
      (match step entersNext with
        | .next t => decide (t.lastFire ≠ entersNext.lastFire)
        | .fault _ => false
        | .refused _ => false) = true := by
  exact ⟨⟨by decide +kernel, by decide, by decide, trivial⟩, ⟨rfl, by simp [entersNext, placed]⟩, by decide +kernel⟩

theorem witness_InterruptsStayOffUntilEI :
    (placed [0x00] at0100).running ∧ (placed [0x00] at0100).ie = false ∧ opcodeAt (placed [0x00] at0100) ≠ 0xFB ∧
      runs [0x00] at0100 (fun s => { s with pc := 0x0101 }) = true := by
  exact ⟨⟨rfl, by simp [placed, at0100]⟩, by decide +kernel⟩

theorem witness_AuxiliaryCarryStaysZeroWithoutPopPsw :
    at0100.flags.ac = false ∧ opcodeAt (placed [0x00] at0100) ≠ 0xF1 ∧
      runs [0x00] at0100 (fun s => { s with pc := 0x0101 }) = true := by
  decide +kernel

theorem witness_OutputsShowTheState :
    (2 : Nat) < 3 ∧ (placed [0x01, 0x34, 0x12] at0100).exportRange 0x0100 3 = [0x01, 0x34, 0x12] := by
  decide +kernel

end Sys2Proof.Tests
end

section
/-! The `SetZSP` computation (10_state.md R27, R28, R29, R33): what each flag it writes says about the byte. -/

namespace Sys2Proof.Machine

/-- The counting form of even parity against the exclusive-or form, for any list of bits. -/
theorem length_filter_even_iff_foldr_xor {α : Type} (bit : α → Bool) (l : List α) :
    (l.filter bit).length % 2 = 0 ↔ l.foldr (fun i acc => bit i ^^ acc) false = false := by
  induction l with
  | nil => simp
  | cons i l ih =>
    cases h : bit i with
    | false => simpa [h] using ih
    | true =>
      have flips : ((l.filter bit).length + 1) % 2 = 0 ↔ ¬ (l.filter bit).length % 2 = 0 := by omega
      simp [h, flips, ih]

/-- R29 as the exclusive or of the byte's eight bits. -/
theorem parityEven_iff_xor_bits (v : Byte) :
    parityEven v = true ↔
      (v.getLsbD 0 ^^ v.getLsbD 1 ^^ v.getLsbD 2 ^^ v.getLsbD 3 ^^ v.getLsbD 4 ^^ v.getLsbD 5 ^^ v.getLsbD 6 ^^
        v.getLsbD 7) = false := by
  have bits : List.range 8 = [0, 1, 2, 3, 4, 5, 6, 7] := rfl
  rw [parityEven, beq_iff_eq, popcount, length_filter_even_iff_foldr_xor, bits]
  simp only [List.foldr_cons, List.foldr_nil, Bool.xor_false, Bool.xor_assoc]

/-- R28 as a bound on the unsigned value: bit 7 is the byte's top bit. -/
theorem getLsbD_seven_iff_le_toNat (v : Byte) : v.getLsbD 7 = true ↔ 128 ≤ v.toNat := by
  have top : v.getLsbD 7 = v.msb := (BitVec.msb_eq_getLsbD_last v).symm
  rw [top, BitVec.msb_eq_decide, decide_eq_true_iff]

@[simp] theorem Flags.setZSP_z (f : Flags) (v : Byte) : (f.setZSP v).z = (v == 0) := rfl
@[simp] theorem Flags.setZSP_s (f : Flags) (v : Byte) : (f.setZSP v).s = v.getLsbD 7 := rfl
@[simp] theorem Flags.setZSP_p (f : Flags) (v : Byte) : (f.setZSP v).p = parityEven v := rfl

/-- Settles O19, flag by flag. -/
theorem setZSPIsZeroSignAndEvenParity : Obligations.SetZSPIsZeroSignAndEvenParity := by
  intro f v
  refine ⟨?zero, ?sign, ?parity, f.setZSP_cy v, f.setZSP_ac v⟩
  case zero => rw [Flags.setZSP_z, beq_iff_eq]
  case sign => rw [Flags.setZSP_s, getLsbD_seven_iff_le_toNat]
  case parity => rw [Flags.setZSP_p, parityEven_iff_xor_bits]

end Sys2Proof.Machine
end

section
/-! The byte accesses (20_memory.md R52, R53) at any integer address: what each gives in range, and what a read gives
after a write. -/

namespace Sys2Proof.Machine

theorem memRead_inRange (s : State) {x : Int} (h : inRange x) : memRead s x = .ok (s.mem.read x.toNat) := if_pos h

theorem memWrite_inRange (s : State) {x : Int} (h : inRange x) (v : Byte) :
    memWrite s x v = .ok { s with mem := s.mem.write x.toNat v } := if_pos h

/-- A write that completes was in range and changed the one byte. -/
theorem memWrite_cases {s t : State} {x : Int} {v : Byte} (h : memWrite s x v = .ok t) :
    inRange x ∧ t = { s with mem := s.mem.write x.toNat v } := by
  unfold memWrite at h
  split at h
  · rename_i hx
    cases h
    exact ⟨hx, rfl⟩
  · cases h

/-- A stored byte reads back, where memory is canonical. -/
theorem memRead_memWrite_self {s t : State} {x : Int} {v : Byte} (hm : s.mem.wf) (h : memWrite s x v = .ok t) :
    memRead t x = .ok v := by
  obtain ⟨hx, rfl⟩ := memWrite_cases h
  rw [memRead_inRange _ hx, Memory.read_write_self hm.1]

/-- A write leaves what every other address reads as, an address out of range included. -/
theorem memRead_memWrite_of_ne {s t : State} {x y : Int} {v : Byte} (h : memWrite s x v = .ok t) (hy : y ≠ x) :
    memRead t y = memRead s y := by
  obtain ⟨⟨hx, _⟩, rfl⟩ := memWrite_cases h
  by_cases hyr : inRange y
  · have hne : y.toNat ≠ x.toNat := by have := hyr.1; omega
    rw [memRead_inRange _ hyr, memRead_inRange _ hyr, Memory.read_write_of_ne _ _ hne]
  · have hout : y < 0 ∨ 65536 ≤ y := by simp only [inRange, cap] at hyr; omega
    rw [memRead_out hout, memRead_out hout]

/-- Settles O15: the laws of the two accesses, clause by clause. -/
theorem memoryAccessesReadAndStoreOneByte : Obligations.MemoryAccessesReadAndStoreOneByte := by
  intro s x v
  refine ⟨memRead_inRange s, memRead_out, fun h => memWrite_out h v, fun h => ?inRangeWrite⟩
  case inRangeWrite =>
    have hw := memWrite_inRange s h v
    exact ⟨_, hw, rfl, fun hm => ⟨memRead_memWrite_self hm hw, memWrite_wf hm hw⟩,
      fun _ hy => memRead_memWrite_of_ne hw hy⟩

end Sys2Proof.Machine
end

section
/-! The instructions that go on to the next one: what each does where `NextPC(len)` is in range and the fault it raises
where it is not (00_scope.md R13), for the shapes of Laws/Ops.lean; and the operand fetch of a form with operand bytes. -/

namespace Sys2Proof.Machine

open Sys2Proof.Laws

/-- The instruction computes `NextPC(len)` and has no other fault: it completes with `after`, or raises. -/
def RunsInSequence (i : Instr) (after : State → State) : Prop :=
  (∀ s : State, s.pc.toNat + i.length < 65536 → exec i s = .next (after s)) ∧ NextPCRaises i

/-- A meaning that answers `after` where `NextPC(len)` is in range, and its fault elsewhere. -/
theorem runsInSequence_of_settle {i : Instr} {n : Nat} {after : State → State} {body : State → Except Fault State}
    (len : i.length = n) (meaning : ∀ s, exec i s = settle s (body s))
    (done : ∀ s, s.pc.toNat + n < 65536 → body s = .ok (after s))
    (raises : ∀ s, 65536 ≤ s.pc.toNat + n → body s = .error (.outOfRangeMemoryAccess (s.pc.toNat + n : Int))) :
    RunsInSequence i after := by
  subst len
  refine ⟨fun s h => ?completes, fun s h => ?raisesTop⟩
  case completes => rw [meaning, done s h, settle_ok]
  case raisesTop =>
    have top : (s.pc.toNat + i.length : Int) = 65536 := by omega
    rw [RaisesOutOfRange, meaning, raises s (Nat.le_of_eq h.symm), top, settle_error, State.raise]

theorem runsInSequence_thenNext {i : Instr} {effect : State → State}
    (meaning : ∀ s, exec i s = settle s (thenNext s i.length effect)) :
    RunsInSequence i (fun s => { effect s with pc := s.pc + BitVec.ofNat 16 i.length }) :=
  runsInSequence_of_settle rfl meaning (fun _ h => thenNext_ok h effect) (fun _ h => thenNext_error h effect)

theorem runsInSequence_storeNext {i : Instr} {x : State → Word} {v : State → Byte}
    (meaning : ∀ s, exec i s = settle s (storeNext s i.length (x s) (v s))) :
    RunsInSequence i (fun s => afterStore s (x s) (v s) (BitVec.ofNat 16 i.length)) :=
  runsInSequence_of_settle rfl meaning (fun s h => storeNext_ok h (x s) (v s)) (fun s h => storeNext_error h (x s) (v s))

theorem runsInSequence_withM {i : Instr} {effect : State → Byte → State} (len : i.length = 1)
    (meaning : ∀ s, exec i s = settle s (withM s effect)) :
    RunsInSequence i (fun s => { effect s s.byteAtHL with pc := s.pc + 1 }) :=
  runsInSequence_of_settle len meaning (fun _ h => withM_ok h effect) (fun _ h => withM_error h effect)

/-- The form an opcode selects has the length of the instruction read through it (30_encoding.md R87). -/
theorem template_length_of_reads {form : Template} {i : Instr} (h : OpcodeSelects.Reads form i) :
    form.length = i.length := by
  cases h with
  | plain h => simp [Template.length, Instr.length, h]
  | imm8 v h => simp [Template.length, Instr.length, h]
  | imm16 v h => simp [Template.length, Instr.length, h, wordBytes]

/-- An instruction whose opcode selects its own form raises in the fetch where an operand byte is missing
(30_encoding.md R86). -/
theorem operandFetchRaises_of_selects {i : Instr} (hw : i.wellFormed = true) (selects : OpcodeSelects.Statement i) :
    OperandFetchRaises i := by
  intro s hop htable hlen
  rw [fetch_handler (hop ▸ htable), hop]
  exact fetchOperands_top (template_length_of_reads (selects hw) ▸ hlen)

theorem length_eq_encode_length (i : Instr) : i.length = (encode i).length := Nat.add_comm ..

theorem RunsInSequence.runsPlain {i : Instr} {op : Byte} {tier : Tier} {after : State → State}
    (runs : RunsInSequence i after) (henc : encode i = [op]) (htier : tierOf op = tier) :
    RunsPlain i op tier after := by
  have len : i.length = 1 := by rw [length_eq_encode_length, henc]; rfl
  exact ⟨len ▸ runs.1, henc, htier, runs.2⟩

theorem RunsInSequence.runsWithOperands {i : Instr} {bytes : List Byte} {tier : Tier} {after : State → State}
    (runs : RunsInSequence i after) (henc : encode i = bytes) (htier : tierOf i.opcode = tier)
    (hw : i.wellFormed = true) (selects : OpcodeSelects.Statement i) :
    RunsWithOperands i bytes tier after := by
  subst henc
  exact ⟨length_eq_encode_length i ▸ runs.1, rfl, htier, runs.2, operandFetchRaises_of_selects hw selects⟩

end Sys2Proof.Machine
end

section
/-! Loads and moves through an immediate or a pair (40_loads_and_moves.md R110 to R117). -/

namespace Sys2Proof.Machine

open Sys2Proof.Laws

theorem runsWithOperands_mviR (r : Reg) (v : Byte) :
    RunsWithOperands (.mviR r v) [0x06 ||| r.code <<< 3, v] .doc (fun s => { s.setReg r v with pc := s.pc + 2 }) := by
  have tier : tierOf (withDdd 0x06 r.code) = .doc := by cases r <;> rfl
  exact (runsInSequence_thenNext fun _ => rfl).runsWithOperands rfl tier rfl (OpcodeSelects.mviR r v)

theorem runsWithOperands_lxi (q : Pair) (v : Word) :
    RunsWithOperands (.lxi q v) [withRp 0x01 q.code, loByte v, hiByte v] .doc
      (fun s => { s.setPair q v with pc := s.pc + 3 }) := by
  have tier : tierOf (withRp 0x01 q.code) = .doc := by cases q <;> rfl
  exact (runsInSequence_thenNext fun _ => rfl).runsWithOperands rfl tier rfl (OpcodeSelects.lxi q v)

theorem runsWithOperands_lxiSp (v : Word) :
    RunsWithOperands (.lxiSp v) [0x31, loByte v, hiByte v] .doc (fun s => { s with sp := v, pc := s.pc + 3 }) := by
  have tier : tierOf 0x31 = .doc := rfl
  have runs := runsInSequence_thenNext (i := .lxiSp v) (effect := fun s => { s with sp := v }) fun _ => rfl
  exact runs.runsWithOperands rfl tier rfl (OpcodeSelects.lxiSp v)

/-- Settles O20: LXI is one lemma over the pair. -/
theorem immediateLoads : Obligations.ImmediateLoads :=
  ⟨runsWithOperands_mviR, runsWithOperands_lxi .bc, runsWithOperands_lxi .de, runsWithOperands_lxi .hl,
    runsWithOperands_lxiSp⟩

theorem runsWithOperands_mviM (v : Byte) :
    RunsWithOperands (.mviM v) [0x36, v] .doc (fun s => afterStore s s.hl v 2) := by
  have tier : tierOf 0x36 = .doc := rfl
  exact (runsInSequence_storeNext fun _ => rfl).runsWithOperands rfl tier rfl (OpcodeSelects.mviM v)

theorem runsPlain_movMR (r : Reg) :
    RunsPlain (.movMR r) (0x70 ||| r.code) .doc (fun s => afterStore s s.hl (s.reg r) 1) := by
  have tier : tierOf (0x70 ||| r.code) = .doc := by cases r <;> rfl
  exact (runsInSequence_storeNext fun _ => rfl).runsPlain rfl tier

theorem runsPlain_stax (p : IndexPair) :
    RunsPlain (.stax p) (withRp 0x02 p.code) .doc (fun s => afterStore s (s.pair p.toPair) s.a 1) := by
  have tier : tierOf (withRp 0x02 p.code) = .doc := by cases p <;> rfl
  exact (runsInSequence_storeNext fun _ => rfl).runsPlain rfl tier

/-- Settles O21: each is the store shape at the address the pair holds before it. -/
theorem storesThroughAPair : Obligations.StoresThroughAPair :=
  ⟨runsWithOperands_mviM, runsPlain_movMR, runsPlain_stax .bc, runsPlain_stax .de⟩

theorem runsPlain_movRM (r : Reg) :
    RunsPlain (.movRM r) (0x46 ||| r.code <<< 3) .doc (fun s => { s.setReg r s.byteAtHL with pc := s.pc + 1 }) := by
  have tier : tierOf (0x46 ||| r.code <<< 3) = .doc := by cases r <;> rfl
  exact (runsInSequence_withM rfl fun _ => rfl).runsPlain rfl tier

/-- R116: the read is through a pair, so `NextPC` alone can raise. -/
theorem runsInSequence_ldax (p : IndexPair) :
    RunsInSequence (.ldax p) (fun s => { s with a := s.mem.read (s.pair p.toPair).toNat, pc := s.pc + 1 }) := by
  refine runsInSequence_of_settle (n := 1) rfl (fun _ => rfl) (fun s h => ?done) (fun s h => ?raises)
  case done => simp [nextPC_ok h]
  case raises => simp [nextPC_error h]

theorem runsPlain_ldax (p : IndexPair) :
    RunsPlain (.ldax p) (withRp 0x0A p.code) .doc
      (fun s => { s with a := s.mem.read (s.pair p.toPair).toNat, pc := s.pc + 1 }) := by
  have tier : tierOf (withRp 0x0A p.code) = .doc := by cases p <;> rfl
  exact (runsInSequence_ldax p).runsPlain rfl tier

/-- Settles O22: the address is formed from the state before the destination is written. -/
theorem loadsThroughAPair : Obligations.LoadsThroughAPair :=
  ⟨runsPlain_movRM, runsPlain_ldax .bc, runsPlain_ldax .de⟩

end Sys2Proof.Machine
end

section
/-! Additions to the accumulator and to `HL` (41_arithmetic.md R141 to R144, R153, R154). -/

namespace Sys2Proof.Machine

/-! ## The sums and the flags in the terms of the rules -/

/-- `SetZSP` in the terms of R27 to R29: the three flags of the result beside the CY and AC it leaves. -/
theorem Flags.setZSP_eq_flagsOf (f : Flags) (v : Byte) : f.setZSP v = flagsOf v f.cy f.ac := by
  have zero : (v == 0) = decide (v.toNat = 0) := by
    rw [Bool.eq_iff_iff, beq_iff_eq, decide_eq_true_iff]
    exact BitVec.toNat_inj.symm
  have sign : v.getLsbD 7 = decide (128 ≤ v.toNat) := by
    rw [Bool.eq_iff_iff, decide_eq_true_iff, getLsbD_seven_iff_le_toNat]
  have parity : parityEven v = decide (popcount v % 2 = 0) := rfl
  rw [setZSP, zero, sign, parity, flagsOf]

theorem carryByte_toNat (cy : Bool) : (carryByte cy).toNat = bit cy := by cases cy <;> rfl

@[simp] theorem addByte_fst (x v : Byte) (cin : Bool) : (addByte x v cin).1 = x + v + carryByte cin := by
  apply BitVec.eq_of_toNat_eq
  simp [addByte, carryByte_toNat]

@[simp] theorem addByte_snd (x v : Byte) (cin : Bool) :
    (addByte x v cin).2 = decide (255 < x.toNat + v.toNat + (carryByte cin).toNat) := by
  rw [carryByte_toNat]
  rfl

@[simp] theorem addWord_fst (x v : Word) : (addWord x v).1 = x + v := by
  apply BitVec.eq_of_toNat_eq
  simp [addWord]

@[simp] theorem addWord_snd (x v : Word) : (addWord x v).2 = decide (65535 < x.toNat + v.toNat) := rfl

theorem RunsInSequence.congr {i : Instr} {after after' : State → State} (runs : RunsInSequence i after)
    (same : ∀ s, after s = after' s) : RunsInSequence i after' :=
  funext same ▸ runs

/-! ## ADD and ADC -/

/-- R141 to R144: the effect and the advance of `PC` are the result of the rules; AC stays as `SetZSP` leaves it. -/
theorem addA_next (s : State) (v : Byte) (cin : Bool) (len : Word) :
    { s.addA v cin with pc := s.pc + len } = afterAdd s v cin len := by
  rw [State.addA, addByte_fst, addByte_snd, Flags.setZSP_eq_flagsOf]
  rfl

/-- An addition whose operand and carry in are read from registers, flags or the instruction. -/
theorem runsInSequence_addA {i : Instr} {v : State → Byte} {cin : State → Bool}
    (meaning : ∀ s, exec i s = settle s (thenNext s i.length fun s => s.addA (v s) (cin s))) :
    RunsInSequence i (fun s => afterAdd s (v s) (cin s) (BitVec.ofNat 16 i.length)) :=
  (runsInSequence_thenNext meaning).congr fun s => addA_next s (v s) (cin s) _

/-- An addition of the byte at `HL`. -/
theorem runsInSequence_addA_withM {i : Instr} {cin : State → Bool} (len : i.length = 1)
    (meaning : ∀ s, exec i s = settle s (withM s fun s v => s.addA v (cin s))) :
    RunsInSequence i (fun s => afterAdd s s.byteAtHL (cin s) 1) :=
  (runsInSequence_withM len meaning).congr fun s => addA_next s s.byteAtHL (cin s) 1

theorem runsPlain_addR (r : Reg) :
    RunsPlain (.addR r) (0x80 ||| r.code) .doc (fun s => afterAdd s (s.reg r) false 1) := by
  have tier : tierOf (0x80 ||| r.code) = .doc := by cases r <;> rfl
  exact (runsInSequence_addA fun _ => rfl).runsPlain rfl tier

theorem runsPlain_addM : RunsPlain .addM 0x86 .doc (fun s => afterAdd s s.byteAtHL false 1) := by
  have tier : tierOf 0x86 = .doc := rfl
  exact (runsInSequence_addA_withM rfl fun _ => rfl).runsPlain rfl tier

theorem runsPlain_adcR (r : Reg) :
    RunsPlain (.adcR r) (0x88 ||| r.code) .doc (fun s => afterAdd s (s.reg r) s.flags.cy 1) := by
  have tier : tierOf (0x88 ||| r.code) = .doc := by cases r <;> rfl
  exact (runsInSequence_addA fun _ => rfl).runsPlain rfl tier

theorem runsPlain_adcM : RunsPlain .adcM 0x8E .doc (fun s => afterAdd s s.byteAtHL s.flags.cy 1) := by
  have tier : tierOf 0x8E = .doc := rfl
  exact (runsInSequence_addA_withM rfl fun _ => rfl).runsPlain rfl tier

/-- Settles O25: ADD is the sum with no carry in, ADC the three-term sum with CY. -/
theorem additions : Obligations.Additions :=
  ⟨runsPlain_addR, runsPlain_addM, runsPlain_adcR, runsPlain_adcM⟩

/-! ## DAD -/

/-- The result R153 and R154 give: the sum in `HL`, its carry in CY, the next instruction. -/
def afterDad (s : State) (v : Word) : State :=
  { s with
    h := hiByte (s.hl + v)
    l := loByte (s.hl + v)
    flags := { s.flags with cy := decide (65535 < s.hl.toNat + v.toNat) }
    pc := s.pc + 1 }

theorem dadHL_next (s : State) (v : Word) : { s.dadHL v with pc := s.pc + 1 } = afterDad s v := by
  rw [State.dadHL, addWord_fst, addWord_snd]
  rfl

theorem runsPlain_dad (q : Pair) :
    RunsPlain (.dad q) (0x09 ||| q.code <<< 4) .doc (fun s => afterDad s (s.pair q)) := by
  have tier : tierOf (0x09 ||| q.code <<< 4) = .doc := by cases q <;> rfl
  have runs := runsInSequence_thenNext (i := .dad q) fun _ => rfl
  exact (runs.congr fun s => dadHL_next s (s.pair q)).runsPlain rfl tier

theorem runsPlain_dadSp : RunsPlain .dadSp 0x39 .doc (fun s => afterDad s s.sp) := by
  have tier : tierOf 0x39 = .doc := rfl
  have runs := runsInSequence_thenNext (i := .dadSp) fun _ => rfl
  exact (runs.congr fun s => dadHL_next s s.sp).runsPlain rfl tier

/-- Settles O28: the sum is one lemma over the word added, a pair or `SP`. -/
theorem doubleAdditions : Obligations.DoubleAdditions :=
  ⟨runsPlain_dad, runsPlain_dadSp⟩

end Sys2Proof.Machine
end

section
/-! The logical operations and the compares (42_logical_and_compare.md R170 to R178). -/

namespace Sys2Proof.Machine

open Sys2Proof.Laws

/-! ## ANA, XRA and ORA -/

/-- R170 to R175: CY and AC are cleared before `SetZSP`, which keeps them. -/
theorem logicA_next (s : State) (r : Byte) (len : Word) :
    { s.logicA r with pc := s.pc + len } = afterLogic s r len := by
  rw [State.logicA, Flags.setZSP_eq_flagsOf]
  rfl

/-- A logical operation whose result is made from registers or the instruction. -/
theorem runsInSequence_logicA {i : Instr} {r : State → Byte}
    (meaning : ∀ s, exec i s = settle s (thenNext s i.length fun s => s.logicA (r s))) :
    RunsInSequence i (fun s => afterLogic s (r s) (BitVec.ofNat 16 i.length)) :=
  (runsInSequence_thenNext meaning).congr fun s => logicA_next s (r s) _

/-- A logical operation with the byte at `HL`. -/
theorem runsInSequence_logicA_withM {i : Instr} {r : State → Byte → Byte} (len : i.length = 1)
    (meaning : ∀ s, exec i s = settle s (withM s fun s v => s.logicA (r s v))) :
    RunsInSequence i (fun s => afterLogic s (r s s.byteAtHL) 1) :=
  (runsInSequence_withM len meaning).congr fun s => logicA_next s (r s s.byteAtHL) 1

theorem runsPlain_anaR (r : Reg) :
    RunsPlain (.anaR r) (0xA0 ||| r.code) .doc (fun s => afterLogic s (s.a &&& s.reg r) 1) := by
  have tier : tierOf (0xA0 ||| r.code) = .doc := by cases r <;> rfl
  exact (runsInSequence_logicA fun _ => rfl).runsPlain rfl tier

theorem runsPlain_anaM : RunsPlain .anaM 0xA6 .doc (fun s => afterLogic s (s.a &&& s.byteAtHL) 1) := by
  have tier : tierOf 0xA6 = .doc := rfl
  exact (runsInSequence_logicA_withM rfl fun _ => rfl).runsPlain rfl tier

theorem runsPlain_xraR (r : Reg) :
    RunsPlain (.xraR r) (0xA8 ||| r.code) .doc (fun s => afterLogic s (s.a ^^^ s.reg r) 1) := by
  have tier : tierOf (0xA8 ||| r.code) = .doc := by cases r <;> rfl
  exact (runsInSequence_logicA fun _ => rfl).runsPlain rfl tier

theorem runsPlain_xraM : RunsPlain .xraM 0xAE .doc (fun s => afterLogic s (s.a ^^^ s.byteAtHL) 1) := by
  have tier : tierOf 0xAE = .doc := rfl
  exact (runsInSequence_logicA_withM rfl fun _ => rfl).runsPlain rfl tier

theorem runsPlain_oraR (r : Reg) :
    RunsPlain (.oraR r) (0xB0 ||| r.code) .doc (fun s => afterLogic s (s.a ||| s.reg r) 1) := by
  have tier : tierOf (0xB0 ||| r.code) = .doc := by cases r <;> rfl
  exact (runsInSequence_logicA fun _ => rfl).runsPlain rfl tier

theorem runsPlain_oraM : RunsPlain .oraM 0xB6 .doc (fun s => afterLogic s (s.a ||| s.byteAtHL) 1) := by
  have tier : tierOf 0xB6 = .doc := rfl
  exact (runsInSequence_logicA_withM rfl fun _ => rfl).runsPlain rfl tier

/-- Settles O32: the three operations are one lemma over the result, with a register and with M. -/
theorem logicalOperations : Obligations.LogicalOperations :=
  ⟨runsPlain_anaR, runsPlain_anaM, runsPlain_xraR, runsPlain_xraM, runsPlain_oraR, runsPlain_oraM⟩

/-! ## CMP and CPI -/

@[simp] theorem subByte_fst (x v : Byte) (cin : Bool) : (subByte x v cin).1 = x - v - carryByte cin := by
  simp [subByte, ← carryByte_toNat, Int.sub_eq_add_neg, BitVec.ofInt_add, BitVec.ofInt_neg, BitVec.sub_eq_add_neg]

@[simp] theorem subByte_snd (x v : Byte) (cin : Bool) : (subByte x v cin).2 = decide (x.toNat < v.toNat) := rfl

/-- R176 to R178: the difference without a carry in reaches the flags alone. -/
theorem cmpA_next (s : State) (v : Byte) (len : Word) : { s.cmpA v with pc := s.pc + len } = afterCompare s v len := by
  have difference : (subByte s.a v false).1 = s.a - v := by simp [carryByte]
  rw [State.cmpA, State.subA, difference, subByte_snd, Flags.setZSP_eq_flagsOf]
  rfl

/-- A compare with a register or an immediate. -/
theorem runsInSequence_cmpA {i : Instr} {v : State → Byte}
    (meaning : ∀ s, exec i s = settle s (thenNext s i.length fun s => s.cmpA (v s))) :
    RunsInSequence i (fun s => afterCompare s (v s) (BitVec.ofNat 16 i.length)) :=
  (runsInSequence_thenNext meaning).congr fun s => cmpA_next s (v s) _

theorem runsPlain_cmpR (r : Reg) :
    RunsPlain (.cmpR r) (0xB8 ||| r.code) .doc (fun s => afterCompare s (s.reg r) 1) := by
  have tier : tierOf (0xB8 ||| r.code) = .doc := by cases r <;> rfl
  exact (runsInSequence_cmpA fun _ => rfl).runsPlain rfl tier

theorem runsPlain_cmpM : RunsPlain .cmpM 0xBE .doc (fun s => afterCompare s s.byteAtHL 1) := by
  have tier : tierOf 0xBE = .doc := rfl
  have runs := runsInSequence_withM (i := .cmpM) rfl fun _ => rfl
  exact (runs.congr fun s => cmpA_next s s.byteAtHL 1).runsPlain rfl tier

theorem runsWithOperands_cpi (v : Byte) :
    RunsWithOperands (.cpi v) [0xFE, v] .doc (fun s => afterCompare s v 2) := by
  have tier : tierOf 0xFE = .doc := rfl
  exact (runsInSequence_cmpA fun _ => rfl).runsWithOperands rfl tier rfl (OpcodeSelects.cpi v)

/-- Settles O33: a register, the byte at `HL` and an immediate are compared by one effect. -/
theorem compares : Obligations.Compares :=
  ⟨runsPlain_cmpR, runsPlain_cmpM, runsWithOperands_cpi⟩

end Sys2Proof.Machine
end

section
/-! Jumps, CALL and returns (43_control_transfer.md R201 to R219). Each shape is one lemma over any test `taken`, so
that an unconditional instruction is the shape with a test that always holds. -/

namespace Sys2Proof.Machine

open Sys2Proof.Laws

/-- A meaning that ends in a `raise` of the shape, in the terms of the claims. -/
theorem raisesOutOfRange_of_settle {i : Instr} {s : State} {r : Except Fault State} {x : Int}
    (meaning : exec i s = settle s r) (raises : r = .error (.outOfRangeMemoryAccess x)) : RaisesOutOfRange i s x := by
  rw [RaisesOutOfRange, meaning, raises, settle_error, State.raise]

/-- `NextPC(n)` where `PC + n` is the capacity. -/
theorem nextPC_top {s : State} {n : Nat} (h : s.pc.toNat + n = 65536) :
    nextPC s n = .error (.outOfRangeMemoryAccess 65536) := by
  have top : (s.pc.toNat + n : Int) = 65536 := by omega
  rw [nextPC_error (Nat.le_of_eq h.symm), top]

theorem thenNext_top {s : State} {n : Nat} (h : s.pc.toNat + n = 65536) (effect : State → State) :
    thenNext s n effect = .error (.outOfRangeMemoryAccess 65536) := by
  simp [thenNext, nextPC_top h]

/-! ## The conditional forms by their test -/

theorem jumpIf_taken {s : State} {cond : Cond} (h : s.flags.holds cond = true) (a : Word) :
    jumpIf cond a s = .ok { s with pc := a } := if_pos h

theorem jumpIf_untaken {s : State} {cond : Cond} (h : s.flags.holds cond = false) (a : Word) :
    jumpIf cond a s = thenNext s 3 id := if_neg (Bool.eq_false_iff.mp h)

theorem returnIf_taken {s : State} {cond : Cond} (h : s.flags.holds cond = true) :
    returnIf cond s = returnFromStack s := if_pos h

theorem returnIf_untaken {s : State} {cond : Cond} (h : s.flags.holds cond = false) :
    returnIf cond s = thenNext s 1 id := if_neg (Bool.eq_false_iff.mp h)

/-! ## Jumps -/

/-- R201 to R209: a meaning that sets `PC` alone where its test holds and goes on to the next instruction elsewhere. -/
theorem runsAsJump_of_settle {mk : Word → Instr} {op : Byte} {tier : Tier} {taken : State → Bool}
    {body : Word → State → Except Fault State} (meaning : ∀ a s, exec (mk a) s = settle s (body a s))
    (jumps : ∀ a s, taken s = true → body a s = .ok { s with pc := a })
    (goesOn : ∀ a s, taken s = false → body a s = thenNext s 3 id)
    (henc : ∀ a, encode (mk a) = [op, loByte a, hiByte a]) (htier : tierOf op = tier)
    (hw : ∀ a, (mk a).wellFormed = true) (selects : ∀ a, OpcodeSelects.Statement (mk a)) :
    RunsAsJump mk op tier taken := by
  intro a
  refine ⟨fun s _ hroom => ?completes, fun s htaken hpc => ?raisesTop, henc a, htier,
    operandFetchRaises_of_selects (hw a) (selects a)⟩
  case completes =>
    rw [meaning]
    cases htaken : taken s with
    | true => rw [jumps a s htaken, settle_ok]; rfl
    | false =>
      have hpc : s.pc.toNat + 3 < 65536 := by simpa [htaken] using hroom
      rw [goesOn a s htaken, thenNext_ok hpc, settle_ok]
      rfl
  case raisesTop =>
    exact raisesOutOfRange_of_settle (meaning a s) ((goesOn a s htaken).trans (thenNext_top hpc id))

theorem runsAsJump_jumpIf {mk : Word → Instr} {op : Byte} {tier : Tier} (cond : Cond)
    (meaning : ∀ a s, exec (mk a) s = settle s (jumpIf cond a s))
    (henc : ∀ a, encode (mk a) = [op, loByte a, hiByte a]) (htier : tierOf op = tier)
    (hw : ∀ a, (mk a).wellFormed = true) (selects : ∀ a, OpcodeSelects.Statement (mk a)) :
    RunsAsJump mk op tier (fun s => s.flags.holds cond) :=
  runsAsJump_of_settle meaning (fun a _ h => jumpIf_taken h a) (fun a _ h => jumpIf_untaken h a) henc htier hw selects

theorem runsAsJump_jmp : RunsAsJump .jmp 0xC3 .doc (fun _ => true) :=
  runsAsJump_of_settle (body := fun a s => .ok { s with pc := a }) (fun _ _ => rfl) (fun _ _ _ => rfl)
    (fun _ _ h => Bool.noConfusion h) (fun _ => rfl) rfl (fun _ => rfl) OpcodeSelects.jmp

/-- Settles O37: JMP never goes on, the eight others are the conditional shape, each with the test its name says. -/
theorem jumps : Obligations.Jumps :=
  ⟨runsAsJump_jmp,
    runsAsJump_jumpIf .nz (fun _ _ => rfl) (fun _ => rfl) rfl (fun _ => rfl) OpcodeSelects.jnz,
    runsAsJump_jumpIf .z (fun _ _ => rfl) (fun _ => rfl) rfl (fun _ => rfl) OpcodeSelects.jz,
    runsAsJump_jumpIf .nc (fun _ _ => rfl) (fun _ => rfl) rfl (fun _ => rfl) OpcodeSelects.jnc,
    runsAsJump_jumpIf .c (fun _ _ => rfl) (fun _ => rfl) rfl (fun _ => rfl) OpcodeSelects.jc,
    runsAsJump_jumpIf .po (fun _ _ => rfl) (fun _ => rfl) rfl (fun _ => rfl) OpcodeSelects.jpo,
    runsAsJump_jumpIf .pe (fun _ _ => rfl) (fun _ => rfl) rfl (fun _ => rfl) OpcodeSelects.jpe,
    runsAsJump_jumpIf .p (fun _ _ => rfl) (fun _ => rfl) rfl (fun _ => rfl) OpcodeSelects.jp,
    runsAsJump_jumpIf .m (fun _ _ => rfl) (fun _ => rfl) rfl (fun _ => rfl) OpcodeSelects.jm⟩

/-! ## CALL -/

theorem callTo_ok {s : State} (hpc : s.pc.toNat + 3 < 65536) (hsp : 2 ≤ s.sp.toNat) (a : Word) :
    callTo a s = .ok (afterPush s (s.pc + 3) a) := by
  simp [callTo, nextPC_ok hpc, push16_ok hsp, afterPush]

theorem callTo_push_error {s : State} (hpc : s.pc.toNat + 3 < 65536) (hsp : s.sp.toNat < 2) (a : Word) :
    callTo a s = .error (.outOfRangeMemoryAccess ((s.sp.toNat : Int) - 2)) := by
  simp [callTo, nextPC_ok hpc, push16_error hsp]

theorem callTo_top {s : State} (hpc : s.pc.toNat + 3 = 65536) (a : Word) :
    callTo a s = .error (.outOfRangeMemoryAccess 65536) := by
  simp [callTo, nextPC_top hpc]

/-- R210, R220: a meaning that calls where its test holds and goes on to the next instruction elsewhere; `NextPC(3)` is
computed either way. -/
theorem runsAsCall_of_settle {mk : Word → Instr} {op : Byte} {tier : Tier} {taken : State → Bool}
    {body : Word → State → Except Fault State} (meaning : ∀ a s, exec (mk a) s = settle s (body a s))
    (calls : ∀ a s, taken s = true → body a s = callTo a s)
    (goesOn : ∀ a s, taken s = false → body a s = thenNext s 3 id)
    (henc : ∀ a, encode (mk a) = [op, loByte a, hiByte a]) (htier : tierOf op = tier)
    (hw : ∀ a, (mk a).wellFormed = true) (selects : ∀ a, OpcodeSelects.Statement (mk a)) :
    RunsAsCall mk op tier taken := by
  intro a
  refine ⟨fun s hpc hsp => ?completes, fun s hpc htaken hsp => ?raisesPush, henc a, htier, fun s hpc => ?raisesTop,
    operandFetchRaises_of_selects (hw a) (selects a)⟩
  case completes =>
    rw [meaning]
    cases htaken : taken s with
    | true => rw [calls a s htaken, callTo_ok hpc (hsp htaken), settle_ok]; rfl
    | false => rw [goesOn a s htaken, thenNext_ok hpc, settle_ok]; rfl
  case raisesPush =>
    exact raisesOutOfRange_of_settle (meaning a s) ((calls a s htaken).trans (callTo_push_error hpc hsp a))
  case raisesTop =>
    have len : (mk a).length = 3 := by rw [length_eq_encode_length, henc]; rfl
    rw [len] at hpc
    refine raisesOutOfRange_of_settle (meaning a s) ?_
    cases htaken : taken s with
    | true => rw [calls a s htaken, callTo_top hpc]
    | false => rw [goesOn a s htaken, thenNext_top hpc]

/-- Settles O38: CALL is the call shape with a test that always holds. -/
theorem callPushesTheReturnAddress : Obligations.CallPushesTheReturnAddress :=
  runsAsCall_of_settle (fun _ _ => rfl) (fun _ _ _ => rfl) (fun _ _ h => Bool.noConfusion h) (fun _ => rfl) rfl
    (fun _ => rfl) OpcodeSelects.call

/-! ## Returns -/

/-- R211 to R219: a meaning that pops `PC` where its test holds and goes on to the next instruction elsewhere. `PC` is a
16-bit word, so the untaken fault is that of the one `PC` whose next is the capacity. -/
theorem runsAsReturn_of_settle {i : Instr} {op : Byte} {tier : Tier} {taken : State → Bool}
    {body : State → Except Fault State} (meaning : ∀ s, exec i s = settle s (body s))
    (returns : ∀ s, taken s = true → body s = returnFromStack s)
    (goesOn : ∀ s, taken s = false → body s = thenNext s 1 id)
    (henc : encode i = [op]) (htier : tierOf op = tier) : RunsAsReturn i op tier taken := by
  refine ⟨fun s hroom => ?completes, fun s htaken hsp => ?raisesPop, fun s htaken hpc => ?raisesTop, henc, htier⟩
  case completes =>
    rw [meaning]
    cases htaken : taken s with
    | true =>
      have hsp : s.sp.toNat + 2 < 65536 := by simpa [htaken] using hroom
      rw [returns s htaken, returnFromStack_ok hsp, settle_ok]
      rfl
    | false =>
      have hpc : s.pc.toNat + 1 < 65536 := by simpa [htaken] using hroom
      rw [goesOn s htaken, thenNext_ok hpc, settle_ok]
      rfl
  case raisesPop =>
    exact raisesOutOfRange_of_settle (meaning s) ((returns s htaken).trans (returnFromStack_error hsp))
  case raisesTop =>
    have top : s.pc.toNat + 1 = 65536 := Nat.le_antisymm s.pc.isLt hpc
    exact raisesOutOfRange_of_settle (meaning s) ((goesOn s htaken).trans (thenNext_top top id))

theorem runsAsReturn_returnIf {i : Instr} {op : Byte} {tier : Tier} (cond : Cond)
    (meaning : ∀ s, exec i s = settle s (returnIf cond s)) (henc : encode i = [op]) (htier : tierOf op = tier) :
    RunsAsReturn i op tier (fun s => s.flags.holds cond) :=
  runsAsReturn_of_settle meaning (fun _ => returnIf_taken) (fun _ => returnIf_untaken) henc htier

theorem runsAsReturn_ret : RunsAsReturn .ret 0xC9 .doc (fun _ => true) :=
  runsAsReturn_of_settle (body := returnFromStack) (fun _ => rfl) (fun _ _ => rfl) (fun _ h => Bool.noConfusion h) rfl
    rfl

/-- Settles O39: RET never goes on, the eight others are the conditional shape, each with the test its name says. -/
theorem returns : Obligations.Returns :=
  ⟨runsAsReturn_ret,
    runsAsReturn_returnIf .nz (fun _ => rfl) rfl rfl,
    runsAsReturn_returnIf .z (fun _ => rfl) rfl rfl,
    runsAsReturn_returnIf .nc (fun _ => rfl) rfl rfl,
    runsAsReturn_returnIf .c (fun _ => rfl) rfl rfl,
    runsAsReturn_returnIf .po (fun _ => rfl) rfl rfl,
    runsAsReturn_returnIf .pe (fun _ => rfl) rfl rfl,
    runsAsReturn_returnIf .p (fun _ => rfl) rfl rfl,
    runsAsReturn_returnIf .m (fun _ => rfl) rfl rfl⟩

end Sys2Proof.Machine
end

section
/-! POP (44_stack.md R253, R254): the pop shape over any use `put` of the popped word, so that a pair and PSW are that
shape, each with its own `put`. -/

namespace Sys2Proof.Machine

/-! ## The pop shape -/

theorem popNext_ok {s : State} (hpc : s.pc.toNat + 1 < 65536) (hsp : s.sp.toNat + 2 < 65536)
    (put : State → Word → State) :
    popNext s put = .ok { put { s with sp := s.sp + 2 } s.stackTop with pc := s.pc + 1 } := by
  simp [popNext, nextPC_ok hpc, pop16_ok hsp, State.stackTop]

theorem popNext_pop_error {s : State} (hpc : s.pc.toNat + 1 < 65536) (hsp : 65536 ≤ s.sp.toNat + 2)
    (put : State → Word → State) : popNext s put = .error (.outOfRangeMemoryAccess 65536) := by
  simp [popNext, nextPC_ok hpc, pop16_error hsp]

theorem popNext_top {s : State} (hpc : s.pc.toNat + 1 = 65536) (put : State → Word → State) :
    popNext s put = .error (.outOfRangeMemoryAccess 65536) := by
  simp [popNext, nextPC_top hpc]

/-! ## An instruction whose meaning is the pop shape -/

section
variable {i : Instr} {put : State → Word → State} (meaning : ∀ s, exec i s = settle s (popNext s put))
include meaning

theorem exec_of_popNext {s : State} (hpc : s.pc.toNat + 1 < 65536) (hsp : s.sp.toNat + 2 < 65536) :
    exec i s = .next { put { s with sp := s.sp + 2 } s.stackTop with pc := s.pc + 1 } := by
  rw [meaning, popNext_ok hpc hsp, settle_ok]

/-- R250: from `SP = 0xFFFE` the new `SP` fails its range test, from `SP = 0xFFFF` the read of the high byte already
raises; either way the recorded value is the capacity. -/
theorem raisesOutOfRange_of_popNext {s : State} (hpc : s.pc.toNat + 1 < 65536) (hsp : 65536 ≤ s.sp.toNat + 2) :
    RaisesOutOfRange i s 65536 :=
  raisesOutOfRange_of_settle (meaning s) (popNext_pop_error hpc hsp put)

theorem nextPCRaises_of_popNext (len : i.length = 1) : NextPCRaises i := fun s hpc =>
  raisesOutOfRange_of_settle (meaning s) (popNext_top (len ▸ hpc) put)

end

/-! ## POP of a pair and of PSW -/

theorem exec_pop (q : Pair) (s : State) :
    exec (.pop q) s = settle s (popNext s fun t v => t.setPair q v) := rfl

theorem exec_popPsw (s : State) :
    exec .popPsw s = settle s (popNext s fun t v => { t with a := hiByte v, flags := Flags.ofByte (loByte v) }) := rfl

/-- R22: writing a pair and moving `SP` are independent. -/
theorem State.setPair_withSp (s : State) (q : Pair) (v w : Word) :
    { s with sp := w }.setPair q v = { s.setPair q v with sp := w } := by
  cases q <;> rfl

theorem exec_pop_ok (q : Pair) {s : State} (hpc : s.pc.toNat + 1 < 65536) (hsp : s.sp.toNat + 2 < 65536) :
    exec (.pop q) s = .next { s.setPair q s.stackTop with sp := s.sp + 2, pc := s.pc + 1 } := by
  rw [exec_of_popNext (exec_pop q) hpc hsp, State.setPair_withSp]

/-- R254: the halves of the popped word are the two bytes read. -/
theorem exec_popPsw_ok {s : State} (hpc : s.pc.toNat + 1 < 65536) (hsp : s.sp.toNat + 2 < 65536) :
    exec .popPsw s = .next { s with
      a := s.mem.read (s.sp.toNat + 1)
      flags := Flags.ofByte (s.mem.read s.sp.toNat)
      sp := s.sp + 2
      pc := s.pc + 1 } := by
  rw [exec_of_popNext exec_popPsw hpc hsp, State.stackTop, hiByte_joinBytes, loByte_joinBytes]

/-- Settles O43: both forms are the pop shape; `Flags.ofByte` is the five bits by definition. -/
theorem pops : Obligations.Pops := by
  refine ⟨fun q s => exec_pop_ok q, fun s => exec_popPsw_ok, fun q s hpc hsp => ?raises, fun q => ?encodingPair, rfl, rfl,
    nextPCRaises_of_popNext exec_popPsw rfl⟩
  case raises =>
    exact ⟨raisesOutOfRange_of_popNext (exec_pop q) hpc hsp, raisesOutOfRange_of_popNext exec_popPsw hpc hsp⟩
  case encodingPair =>
    have tier : tierOf (0xC1 ||| q.code <<< 4) = .doc := by cases q <;> rfl
    exact ⟨rfl, tier, nextPCRaises_of_popNext (exec_pop q) rfl⟩

end Sys2Proof.Machine
end

section
/-! UnimplementedOpcode (60_exceptions.md R281): the decoder alone raises it, for a byte outside the handler table. -/

namespace Sys2Proof.Machine

/-! ## Computations whose only fault is OutOfRangeMemoryAccess -/

/-- The computation completes with a result that meets `post`, or raises OutOfRangeMemoryAccess. -/
inductive CompletesOrOutOfRange {α : Type} (post : α → Prop) : Except Fault α → Prop where
  | ok {y : α} (h : post y) : CompletesOrOutOfRange post (.ok y)
  | error (x : Int) : CompletesOrOutOfRange post (.error (.outOfRangeMemoryAccess x))

/-- A computation of the next state that raises nothing else and leaves the fault latch empty. -/
abbrev KeepsClear : Except Fault State → Prop := CompletesOrOutOfRange fun t => t.fault = none

theorem CompletesOrOutOfRange.bind {α β : Type} {pre : α → Prop} {post : β → Prop} {r : Except Fault α}
    {k : α → Except Fault β} (first : CompletesOrOutOfRange pre r)
    (rest : ∀ y, pre y → CompletesOrOutOfRange post (k y)) : CompletesOrOutOfRange post (r >>= k) := by
  cases first with
  | ok h => exact rest _ h
  | error x => exact .error x

theorem CompletesOrOutOfRange.mono {α : Type} {pre post : α → Prop} {r : Except Fault α}
    (h : CompletesOrOutOfRange pre r) (imp : ∀ y, pre y → post y) : CompletesOrOutOfRange post r := by
  cases h with
  | ok h => exact .ok (imp _ h)
  | error x => exact .error x

/-- Every range test of the model has this shape. -/
theorem CompletesOrOutOfRange.ite {α : Type} {post : α → Prop} {c : Prop} [Decidable c] {y : α} {x : Int}
    (h : post y) : CompletesOrOutOfRange post (if c then .ok y else .error (.outOfRangeMemoryAccess x)) := by
  split
  · exact .ok h
  · exact .error x

theorem nextPC_completesOrOutOfRange (s : State) (n : Nat) : CompletesOrOutOfRange (fun _ => True) (nextPC s n) :=
  .ite trivial

theorem memRead_completesOrOutOfRange (s : State) (x : Int) : CompletesOrOutOfRange (fun _ => True) (memRead s x) :=
  .ite trivial

theorem memReadWord_completesOrOutOfRange (s : State) (x : Int) :
    CompletesOrOutOfRange (fun _ => True) (memReadWord s x) :=
  (memRead_completesOrOutOfRange s x).bind fun _ _ =>
    (memRead_completesOrOutOfRange s (x + 1)).bind fun _ _ => .ok trivial

/-! ## The shared operations from a state whose latch is empty -/

theorem thenNext_keepsClear {s : State} {effect : State → State} (clear : (effect s).fault = none) (n : Nat) :
    KeepsClear (thenNext s n effect) :=
  (nextPC_completesOrOutOfRange s n).bind fun _ _ => .ok clear

theorem withM_keepsClear {s : State} {effect : State → Byte → State} (clear : ∀ v, (effect s v).fault = none) :
    KeepsClear (withM s effect) :=
  (nextPC_completesOrOutOfRange s 1).bind fun _ _ => (memRead_completesOrOutOfRange s _).bind fun v _ => .ok (clear v)

section
variable {s : State} (clear : s.fault = none)
include clear

theorem memWrite_keepsClear (x : Int) (v : Byte) : KeepsClear (memWrite s x v) := .ite clear

theorem memWriteWord_keepsClear (x : Int) (v : Word) : KeepsClear (memWriteWord s x v) :=
  (memWrite_keepsClear clear x (loByte v)).bind fun _ ht => memWrite_keepsClear ht (x + 1) (hiByte v)

theorem push16_keepsClear (v : Word) : KeepsClear (push16 s v) :=
  (memWriteWord_keepsClear clear _ v).bind fun _ ht => .ok ht

theorem pop16_keepsClear : CompletesOrOutOfRange (fun r => r.2.fault = none) (pop16 s) :=
  (memReadWord_completesOrOutOfRange s _).bind fun _ _ => .ite clear

theorem returnFromStack_keepsClear : KeepsClear (returnFromStack s) :=
  (pop16_keepsClear clear).bind fun _ ht => .ok ht

theorem storeNext_keepsClear (n : Nat) (x : Word) (v : Byte) : KeepsClear (storeNext s n x v) :=
  (nextPC_completesOrOutOfRange s n).bind fun _ _ => (memWrite_keepsClear clear _ v).bind fun _ ht => .ok ht

theorem updateM_keepsClear (change : Byte → Byte) : KeepsClear (updateM s change) :=
  (nextPC_completesOrOutOfRange s 1).bind fun _ _ =>
    (memRead_completesOrOutOfRange s _).bind fun _ _ => (memWrite_keepsClear clear _ _).bind fun _ ht => .ok ht

theorem jumpIf_keepsClear (cond : Cond) (a : Word) : KeepsClear (jumpIf cond a s) := by
  unfold jumpIf
  split
  · exact .ok clear
  · exact thenNext_keepsClear (effect := id) clear 3

/-- A push of the next `PC` and a transfer: CALL, RST and a taken conditional call. -/
theorem push16_setPc_keepsClear (v target : Word) :
    KeepsClear (push16 s v >>= fun t => .ok { t with pc := target }) :=
  (push16_keepsClear clear v).bind fun _ ht => .ok ht

theorem callTo_keepsClear (a : Word) : KeepsClear (callTo a s) :=
  (nextPC_completesOrOutOfRange s 3).bind fun n _ => push16_setPc_keepsClear clear n a

theorem callIf_keepsClear (cond : Cond) (a : Word) : KeepsClear (callIf cond a s) := by
  refine (nextPC_completesOrOutOfRange s 3).bind fun n _ => ?_
  split
  · exact push16_setPc_keepsClear clear n a
  · exact .ok clear

theorem returnIf_keepsClear (cond : Cond) : KeepsClear (returnIf cond s) := by
  unfold returnIf
  split
  · exact returnFromStack_keepsClear clear
  · exact thenNext_keepsClear (effect := id) clear 1

theorem pushNext_keepsClear (v : Word) : KeepsClear (pushNext v s) :=
  (nextPC_completesOrOutOfRange s 1).bind fun pc _ => push16_setPc_keepsClear clear v pc

theorem popNext_keepsClear {put : State → Word → State} (hput : ∀ t v, (put t v).fault = t.fault) :
    KeepsClear (popNext s put) :=
  (nextPC_completesOrOutOfRange s 1).bind fun _ _ =>
    (pop16_keepsClear clear).bind fun _ ht => .ok ((hput _ _).trans ht)

end

/-! ## Every instruction but the absent rows -/

/-- An instruction of tier doc or completion raises no UnimplementedOpcode: the shape of its meaning does not. -/
theorem exec_keepsClear {s : State} (clear : s.fault = none) {i : Instr} (present : i.tier ≠ .absent) :
    ∃ r, exec i s = settle s r ∧ KeepsClear r := by
  have setReg (r : Reg) (v : Byte) : (s.setReg r v).fault = none := (s.setReg_fault r v).trans clear
  have setPair (q : Pair) (v : Word) : (s.setPair q v).fault = none := (s.setPair_fault q v).trans clear
  cases i with
  | absent | absentHlt => exact absurd rfl present
  | mviR | movRR | inrR | dcrR => exact ⟨_, rfl, thenNext_keepsClear (setReg _ _) _⟩
  | lxi | dad | dadSp | inx | dcx => exact ⟨_, rfl, thenNext_keepsClear (setPair _ _) _⟩
  | lxiSp | xchg | sphl | addR | adcR | subR | sbbR | adi | aci | sui | sbi | inxSp | dcxSp | daa | anaR | xraR | oraR
  | cmpR | cpi | ani | xri | ori | rlc | rrc | ral | rar | cma | stc | cmc | inp | out | ei | di | nop =>
    exact ⟨_, rfl, thenNext_keepsClear clear _⟩
  | movRM => exact ⟨_, rfl, withM_keepsClear fun _ => setReg _ _⟩
  | addM | adcM | subM | sbbM | anaM | xraM | oraM | cmpM => exact ⟨_, rfl, withM_keepsClear fun _ => clear⟩
  | mviM | movMR | stax | sta => exact ⟨_, rfl, storeNext_keepsClear clear _ _ _⟩
  | inrM | dcrM => exact ⟨_, rfl, updateM_keepsClear clear _⟩
  | ldax | lda =>
    exact ⟨_, rfl, (nextPC_completesOrOutOfRange s _).bind fun _ _ =>
      (memRead_completesOrOutOfRange s _).bind fun _ _ => .ok clear⟩
  | lhld =>
    exact ⟨_, rfl, (nextPC_completesOrOutOfRange s 3).bind fun _ _ =>
      (memReadWord_completesOrOutOfRange s _).bind fun _ _ => .ok clear⟩
  | shld =>
    exact ⟨_, rfl, (nextPC_completesOrOutOfRange s 3).bind fun _ _ =>
      (memWriteWord_keepsClear clear _ _).bind fun _ ht => .ok ht⟩
  | jmp | pchl => exact ⟨.ok _, rfl, .ok clear⟩
  | jnz | jz | jnc | jc | jpo | jpe | jp | jm => exact ⟨_, rfl, jumpIf_keepsClear clear _ _⟩
  | call => exact ⟨_, rfl, callTo_keepsClear clear _⟩
  | cnz | cz | cnc | cc | cpo | cpe | cp | cm => exact ⟨_, rfl, callIf_keepsClear clear _ _⟩
  | ret => exact ⟨returnFromStack s, rfl, returnFromStack_keepsClear clear⟩
  | rnz | rz | rnc | rc | rpo | rpe | rp | rm => exact ⟨_, rfl, returnIf_keepsClear clear _⟩
  | rst =>
    exact ⟨_, rfl, (nextPC_completesOrOutOfRange s 1).bind fun _ _ => push16_setPc_keepsClear clear _ _⟩
  | push | pushPsw => exact ⟨_, rfl, pushNext_keepsClear clear _⟩
  | pop q => exact ⟨_, rfl, popNext_keepsClear clear fun t v => t.setPair_fault q v⟩
  | popPsw => exact ⟨_, rfl, popNext_keepsClear clear fun _ _ => rfl⟩
  | xthl =>
    exact ⟨_, rfl, (nextPC_completesOrOutOfRange s 1).bind fun _ _ =>
      (memReadWord_completesOrOutOfRange s _).bind fun _ _ =>
        (memWriteWord_keepsClear clear _ _).bind fun _ ht => .ok ht⟩

/-! ## The fetch of an opcode with a handler -/

/-- The instruction a form gives has the tier of the form, whatever the operand. -/
def TierIgnoresOperand : Template → Prop
  | .plain _ => True
  | .imm8 f => ∀ v, (f v).tier = (f 0).tier
  | .imm16 f => ∀ v, (f v).tier = (f 0).tier

/-! Split along the rows of the map, down to a form: a plain one has no operand, every other one is a constructor of
`Instr` whose tier is a constant. -/

theorem decodeLow_tierIgnoresOperand (op : Byte) : TierIgnoresOperand (decodeLow op) := by
  unfold decodeLow
  dsimp only
  repeat' split
  all_goals simp [TierIgnoresOperand, Instr.tier]

theorem decodeMov_tierIgnoresOperand (op : Byte) : TierIgnoresOperand (decodeMov op) := by
  unfold decodeMov
  split <;> exact trivial

theorem decodeAlu_tierIgnoresOperand (op : Byte) : TierIgnoresOperand (decodeAlu op) := by
  unfold decodeAlu
  dsimp only
  split <;> exact trivial

theorem decodeHigh_tierIgnoresOperand (op : Byte) : TierIgnoresOperand (decodeHigh op) := by
  unfold decodeHigh
  dsimp only
  repeat' split
  all_goals simp [TierIgnoresOperand, Instr.tier]

theorem decodeOpcode_tierIgnoresOperand (op : Byte) : TierIgnoresOperand (decodeOpcode op) := by
  unfold decodeOpcode
  split
  · exact decodeLow_tierIgnoresOperand op
  · exact decodeMov_tierIgnoresOperand op
  · exact decodeAlu_tierIgnoresOperand op
  · exact decodeHigh_tierIgnoresOperand op

/-- The operand bytes of a form give an instruction of the form's tier, or one of them lies outside memory. -/
theorem fetchOperands_completesOrOutOfRange (s : State) {form : Template} (uniform : TierIgnoresOperand form) :
    CompletesOrOutOfRange (fun i => i.tier = form.tier) (fetchOperands s form) := by
  cases form with
  | plain i => exact .ok rfl
  | imm8 f => exact (memRead_completesOrOutOfRange s _).bind fun v _ => .ok (uniform v)
  | imm16 f => exact (memReadWord_completesOrOutOfRange s _).bind fun v _ => .ok (uniform v)

theorem tierOf_ne_absent_of_inTable {p : Params} {op : Byte} (h : p.inTable op = true) : tierOf op ≠ .absent :=
  fun habsent => Bool.false_ne_true ((p.inTable_absent habsent).symm.trans h)

/-- 30_encoding.md R88: where the opcode has a handler, the fetch gives an instruction that is not an absent row. -/
theorem fetch_completesOrOutOfRange {s : State} (handler : s.params.inTable (opcodeAt s) = true) :
    CompletesOrOutOfRange (fun i => i.tier ≠ .absent) (fetch s) := by
  rw [fetch_handler handler]
  refine (fetchOperands_completesOrOutOfRange s (decodeOpcode_tierIgnoresOperand _)).mono fun i hi => ?_
  exact hi ▸ tierOf_ne_absent_of_inTable handler

/-! ## The poll and the whole iteration -/

/-- A state whose latch is empty or holds an OutOfRangeMemoryAccess. -/
def ClearOrOutOfRange (t : State) : Prop := t.fault = none ∨ ∃ x, t.fault = some (.outOfRangeMemoryAccess x)

theorem ClearOrOutOfRange.ne_unimplementedOpcode {t : State} (h : ClearOrOutOfRange t) (b : Byte) :
    t.fault ≠ some (.unimplementedOpcode b) := by
  obtain h | ⟨x, h⟩ := h <;> simp [h]

theorem raise_clearOrOutOfRange (s : State) (x : Int) : ClearOrOutOfRange (s.raise (.outOfRangeMemoryAccess x)) :=
  .inr ⟨x, rfl⟩

theorem poll_clearOrOutOfRange {s : State} (clear : s.fault = none) (i : PollInputs) :
    ClearOrOutOfRange (poll s i) := by
  obtain ⟨_, h⟩ | ⟨_, _, h⟩ | ⟨_, _, h⟩ := poll_cases s i <;> rw [h]
  · exact .inl clear
  · exact .inl clear
  · exact raise_clearOrOutOfRange s _

/-- R290: a step that did not fault is followed by one poll. -/
theorem afterStep_clearOrOutOfRange {s : State} (clear : s.fault = none) : ClearOrOutOfRange (afterStep s) := by
  unfold afterStep
  split
  · rename_i hfault
    cases hfault.symm.trans clear
  · exact poll_clearOrOutOfRange (s := { s with env := s.env.advance }) clear _

theorem iterate_fetch_error {s : State} {f : Fault} (h : fetch s = .error f) : iterate s = .next (s.raise f) := by
  rw [iterate, h]

theorem iterate_exec_next {s t : State} {i : Instr} (hfetch : fetch s = .ok i) (hexec : exec i s = .next t) :
    iterate s = .next (afterStep t) := by
  simp only [iterate, hfetch, hexec]

/-- R290: an iteration at an opcode with a handler. -/
theorem iterate_clearOrOutOfRange {s : State} (clear : s.fault = none)
    (handler : s.params.inTable (opcodeAt s) = true) : ∃ t, iterate s = .next t ∧ ClearOrOutOfRange t := by
  have fetched := fetch_completesOrOutOfRange handler
  generalize hfetch : fetch s = decoded at fetched
  cases fetched with
  | error x => exact ⟨_, iterate_fetch_error hfetch, raise_clearOrOutOfRange s x⟩
  | ok present =>
    obtain ⟨_, hexec, hr⟩ := exec_keepsClear clear present
    refine ⟨_, iterate_exec_next hfetch hexec, ?_⟩
    cases hr with
    | ok ht => exact afterStep_clearOrOutOfRange ht
    | error x => exact raise_clearOrOutOfRange s x

theorem iterate_noHandler {s : State} (h : s.params.inTable (opcodeAt s) = false) :
    iterate s = .next (s.raise (.unimplementedOpcode (opcodeAt s))) :=
  iterate_fetch_error (fetch_noHandler h)

/-- Settles O7: the step by the fetch that raises, the tables by the tier of the byte, and the last clause by what an
iteration can do at an opcode with a handler. -/
theorem opcodeWithoutHandlerRaises : Obligations.OpcodeWithoutHandlerRaises := by
  refine ⟨fun s hrun h => ?raises, fun p b hb => p.inTable_absent (tierOf_absent hb), fun p b hb => ?completion,
    fun p b hb => p.inTable_doc (tierOf_tableDoc hb), fun s t b hrun handler hstep => ?onlyThen⟩
  case raises => rw [step_running hrun, iterate_noHandler h, State.raise]
  case completion => rw [← Bool.not_eq_true, p.inTable_completion (tierOf_tableCompletion hb)]
  case onlyThen =>
    obtain ⟨u, hu, hclear⟩ := iterate_clearOrOutOfRange hrun.1 handler
    rw [step_running hrun, hu] at hstep
    cases hstep
    exact hclear.ne_unimplementedOpcode b

end Sys2Proof.Machine
end

section
/-! The decoder against the encoder (30_encoding.md sections 1 to 3). `Laws.OpcodeSelects` says what the map gives at
the opcode of an instruction; here is what the map gives at a byte, and the two directions of the round trip. -/

namespace Sys2Proof

open Laws.OpcodeSelects

/-! ## From an instruction to the map -/

/-- The lemmas of Laws/PerInstr.lean, put together. -/
theorem opcodeSelects : (i : Instr) → Statement i
  | .mviR r v => mviR r v | .mviM v => mviM v | .lxi q v => lxi q v | .lxiSp v => lxiSp v
  | .movRM r => movRM r | .movMR r => movMR r | .ldax p => ldax p | .stax p => stax p
  | .movRR r1 r2 => movRR r1 r2 | .lda a => lda a | .sta a => sta a | .lhld a => lhld a | .shld a => shld a
  | .xchg => xchg | .sphl => sphl
  | .addR r => addR r | .addM => addM | .adcR r => adcR r | .adcM => adcM
  | .subR r => subR r | .subM => subM | .sbbR r => sbbR r | .sbbM => sbbM
  | .inrR r => inrR r | .inrM => inrM | .dcrR r => dcrR r | .dcrM => dcrM | .dad q => dad q | .dadSp => dadSp
  | .adi v => adi v | .aci v => aci v | .sui v => sui v | .sbi v => sbi v
  | .inx q => inx q | .inxSp => inxSp | .dcx q => dcx q | .dcxSp => dcxSp | .daa => daa
  | .anaR r => anaR r | .anaM => anaM | .xraR r => xraR r | .xraM => xraM | .oraR r => oraR r | .oraM => oraM
  | .cmpR r => cmpR r | .cmpM => cmpM | .cpi v => cpi v | .ani v => ani v | .xri v => xri v | .ori v => ori v
  | .rlc => rlc | .rrc => rrc | .ral => ral | .rar => rar | .cma => cma | .stc => stc | .cmc => cmc
  | .jmp a => jmp a | .jnz a => jnz a | .jz a => jz a | .jnc a => jnc a | .jc a => jc a
  | .jpo a => jpo a | .jpe a => jpe a | .jp a => jp a | .jm a => jm a
  | .call a => call a | .ret => ret | .rnz => rnz | .rz => rz | .rnc => rnc | .rc => rc
  | .rpo => rpo | .rpe => rpe | .rp => rp | .rm => rm
  | .cnz a => cnz a | .cz a => cz a | .cnc a => cnc a | .cc a => cc a
  | .cpo a => cpo a | .cpe a => cpe a | .cp a => cp a | .cm a => cm a
  | .rst n => rst n | .pchl => pchl
  | .push q => push q | .pushPsw => pushPsw | .pop q => pop q | .popPsw => popPsw | .xthl => xthl
  | .inp port => inp port | .out port => out port | .ei => ei | .di => di | .nop => nop
  | .absent op => absent op | .absentHlt => absentHlt

/-! ## The decoder by the form its opcode selects -/

theorem decode_plain {op : Byte} {i : Instr} (form : decodeOpcode op = .plain i) (rest : List Byte) :
    decode (op :: rest) = .ok (i, rest) := by
  simp [decode, form]

theorem decode_imm8 {op : Byte} {f : Byte → Instr} (form : decodeOpcode op = .imm8 f) (v : Byte) (rest : List Byte) :
    decode (op :: v :: rest) = .ok (f v, rest) := by
  simp [decode, form]

theorem decode_imm16 {op : Byte} {f : Word → Instr} (form : decodeOpcode op = .imm16 f) (lo hi : Byte)
    (rest : List Byte) : decode (op :: lo :: hi :: rest) = .ok (f (joinBytes hi lo), rest) := by
  simp [decode, form]

/-- What the decoder has read when it answers an instruction. -/
theorem decode_cases {bytes rest : List Byte} {i : Instr} (h : decode bytes = .ok (i, rest)) :
    ∃ op, (decodeOpcode op = .plain i ∧ bytes = op :: rest) ∨
      (∃ f v, decodeOpcode op = .imm8 f ∧ i = f v ∧ bytes = op :: v :: rest) ∨
      (∃ f lo hi, decodeOpcode op = .imm16 f ∧ i = f (joinBytes hi lo) ∧ bytes = op :: lo :: hi :: rest) := by
  unfold decode at h
  split at h
  · cases h
  · rename_i op tail
    refine ⟨op, ?_⟩
    split at h <;> cases h
    · exact .inl ⟨‹_›, rfl⟩
    · exact .inr (.inl ⟨_, _, ‹_›, rfl, rfl⟩)
    · exact .inr (.inr ⟨_, _, _, ‹_›, rfl, rfl⟩)

/-- Settles O1: the opcode selects the form of the instruction, and the form reads the operands the encoder writes. -/
theorem decodeEncodeRoundTrip : Obligations.DecodeEncodeRoundTrip := by
  intro i rest hw
  have selected := opcodeSelects i hw
  rw [encode, List.cons_append]
  generalize hform : decodeOpcode i.opcode = form at selected
  cases selected with
  | plain operands => rw [operands, List.nil_append, decode_plain hform]
  | imm8 v operands => rw [operands, List.singleton_append, decode_imm8 hform]
  | imm16 v operands =>
    rw [operands, wordBytes, List.cons_append, List.singleton_append, decode_imm16 hform, joinBytes_hiByte_loByte]

/-! ## From a byte to the instructions its form gives -/

/-- Whatever its operand, the form gives a well-formed instruction of this opcode with that operand spelled out. -/
def SpelledBy (op : Byte) : Template → Prop
  | .plain i => i.wellFormed = true ∧ i.opcode = op ∧ i.operands = []
  | .imm8 f => ∀ v, (f v).wellFormed = true ∧ (f v).opcode = op ∧ (f v).operands = [v]
  | .imm16 f => ∀ v, (f v).wellFormed = true ∧ (f v).opcode = op ∧ (f v).operands = wordBytes v

/-- The part of `SpelledBy` an operand does not bear on, which can be evaluated. -/
def spelledAtZero (op : Byte) : Template → Bool
  | .plain i => i.wellFormed && encode i == [op]
  | .imm8 f => (f 0).opcode == op
  | .imm16 f => (f 0).opcode == op

/-- The operand bears on the operand bytes alone. -/
def OperandIsSpelled : Template → Prop
  | .plain _ => True
  | .imm8 f => ∀ v, (f v).wellFormed = true ∧ (f v).opcode = (f 0).opcode ∧ (f v).operands = [v]
  | .imm16 f => ∀ v, (f v).wellFormed = true ∧ (f v).opcode = (f 0).opcode ∧ (f v).operands = wordBytes v

/-! Split along the rows of the map, as for the tier. -/

theorem decodeLow_operandIsSpelled (op : Byte) : OperandIsSpelled (decodeLow op) := by
  unfold decodeLow
  dsimp only
  repeat' split
  all_goals simp [OperandIsSpelled, Instr.wellFormed, Instr.opcode, Instr.operands]

theorem decodeMov_operandIsSpelled (op : Byte) : OperandIsSpelled (decodeMov op) := by
  unfold decodeMov
  split <;> exact trivial

theorem decodeAlu_operandIsSpelled (op : Byte) : OperandIsSpelled (decodeAlu op) := by
  unfold decodeAlu
  dsimp only
  split <;> exact trivial

theorem decodeHigh_operandIsSpelled (op : Byte) : OperandIsSpelled (decodeHigh op) := by
  unfold decodeHigh
  dsimp only
  repeat' split
  all_goals simp [OperandIsSpelled, Instr.wellFormed, Instr.opcode, Instr.operands]

theorem decodeOpcode_operandIsSpelled (op : Byte) : OperandIsSpelled (decodeOpcode op) := by
  unfold decodeOpcode
  split
  · exact decodeLow_operandIsSpelled op
  · exact decodeMov_operandIsSpelled op
  · exact decodeAlu_operandIsSpelled op
  · exact decodeHigh_operandIsSpelled op

theorem decodeOpcode_spelledAtZero : ∀ op : Byte, spelledAtZero op (decodeOpcode op) = true := by decide +kernel

/-- 30_encoding.md R90, R92: every byte selects a form that is spelled by it. -/
theorem decodeOpcode_spelledBy (op : Byte) : SpelledBy op (decodeOpcode op) := by
  have zero := decodeOpcode_spelledAtZero op
  have operand := decodeOpcode_operandIsSpelled op
  generalize decodeOpcode op = form at zero operand
  cases form with
  | plain i => simpa [SpelledBy, spelledAtZero, encode] using zero
  | imm8 f | imm16 f =>
    intro v
    obtain ⟨hw, hop, hoperands⟩ := operand v
    exact ⟨hw, hop.trans (beq_iff_eq.mp zero), hoperands⟩

/-- Settles O2: the form the first byte selects is spelled by that byte and the operand bytes read. -/
theorem decodedBytesAreTheEncoding : Obligations.DecodedBytesAreTheEncoding := by
  intro bytes rest i h
  obtain ⟨op, ⟨hform, rfl⟩ | ⟨f, v, hform, rfl, rfl⟩ | ⟨f, lo, hi, hform, rfl, rfl⟩⟩ := decode_cases h
  all_goals have spelled := hform ▸ decodeOpcode_spelledBy op
  · obtain ⟨hw, hop, hoperands⟩ := spelled
    exact ⟨hw, by rw [encode, hop, hoperands]; rfl⟩
  · obtain ⟨hw, hop, hoperands⟩ := spelled v
    exact ⟨hw, by rw [encode, hop, hoperands]; rfl⟩
  · obtain ⟨hw, hop, hoperands⟩ := spelled (joinBytes hi lo)
    exact ⟨hw, by rw [encode, hop, hoperands, wordBytes, hiByte_joinBytes, loByte_joinBytes]; rfl⟩

/-- Settles O3: each word is evaluated. -/
theorem specWordsDecode : Obligations.SpecWordsDecode := by
  refine ⟨?_, ?_, ?_, ?_, ?_, ?_, ?_, ?_, ?_, ?_⟩ <;> rfl

/-! ## Length and tier are functions of the opcode -/

theorem length_eq_template_length {i : Instr} (hw : i.wellFormed = true) :
    i.length = (decodeOpcode i.opcode).length :=
  (Machine.template_length_of_reads (opcodeSelects i hw)).symm

theorem tier_eq_tierOf_opcode {i : Instr} (hw : i.wellFormed = true) : i.tier = tierOf i.opcode := by
  have reads := opcodeSelects i hw
  have uniform := Machine.decodeOpcode_tierIgnoresOperand i.opcode
  unfold tierOf
  generalize decodeOpcode i.opcode = form at reads uniform
  cases reads with
  | plain _ => rfl
  | imm8 v _ => exact uniform v
  | imm16 v _ => exact uniform v

theorem tierOf_eq_absent_iff : ∀ op : Byte, tierOf op = .absent ↔
    op ∈ ([0x08, 0x10, 0x18, 0x20, 0x28, 0x30, 0x38, 0x76, 0xCB, 0xD9, 0xDD, 0xED, 0xFD] : List Byte) := by
  decide +kernel

theorem template_length_eq_two_iff : ∀ op : Byte, (decodeOpcode op).length = 2 ↔
    op ∈ ([0x06, 0x0E, 0x16, 0x1E, 0x26, 0x2E, 0x36, 0x3E, 0xC6, 0xCE, 0xD6, 0xDE, 0xE6, 0xEE, 0xF6, 0xFE, 0xD3, 0xDB] :
      List Byte) := by
  decide +kernel

theorem template_length_eq_three_iff : ∀ op : Byte, (decodeOpcode op).length = 3 ↔
    op ∈ ([0x01, 0x11, 0x21, 0x31, 0x22, 0x2A, 0x32, 0x3A, 0xC3, 0xC2, 0xCA, 0xD2, 0xDA, 0xE2, 0xEA, 0xF2, 0xFA, 0xCD,
      0xC4, 0xCC, 0xD4, 0xDC, 0xE4, 0xEC, 0xF4, 0xFC] : List Byte) := by
  decide +kernel

theorem Template.length_cases (form : Template) : form.length = 1 ∨ form.length = 2 ∨ form.length = 3 := by
  cases form with
  | plain _ => exact .inl rfl
  | imm8 _ => exact .inr (.inl rfl)
  | imm16 _ => exact .inr (.inr rfl)

/-- Settles O4: length and tier of an instruction are those of its opcode, of which there are 256. -/
theorem lengthIsAFunctionOfTheOpcode : Obligations.LengthIsAFunctionOfTheOpcode := by
  refine ⟨fun i j hi hj present hop => ?sameOpcode, fun i hi => ⟨?absent, fun _ => ?lengths⟩⟩
  case sameOpcode =>
    rw [length_eq_template_length hi, length_eq_template_length hj, tier_eq_tierOf_opcode hj, ← hop,
      ← tier_eq_tierOf_opcode hi]
    exact ⟨present, rfl⟩
  case absent => rw [tier_eq_tierOf_opcode hi, tierOf_eq_absent_iff]
  case lengths =>
    have len := length_eq_template_length hi
    exact ⟨(Machine.length_eq_encode_length i).symm, len ▸ template_length_eq_two_iff _,
      len ▸ template_length_eq_three_iff _, len ▸ Template.length_cases _⟩

/-! ## The handler table -/

theorem mem_tableDoc_of_tierOf : ∀ op : Byte, tierOf op = .doc → op ∈ tableDoc := by decide +kernel

theorem mem_tableCompletion_of_tierOf : ∀ op : Byte, tierOf op = .completion → op ∈ tableCompletion := by
  decide +kernel

/-- A table between the two bounds is the one that lists its own completion bytes. -/
theorem inTable_iff_mem {table : List Byte} (lower : ∀ b ∈ tableDoc, b ∈ table)
    (upper : ∀ b ∈ table, b ∈ tableDoc ++ tableCompletion) {p : Machine.Params} (hp : p.extra = table) (b : Byte) :
    p.inTable b = true ↔ b ∈ table := by
  cases htier : tierOf b with
  | doc => exact iff_of_true (p.inTable_doc htier) (lower b (mem_tableDoc_of_tierOf b htier))
  | completion => rw [p.inTable_completion htier, hp]
  | absent =>
    refine iff_of_false (by simp [p.inTable_absent htier]) fun hb => ?_
    obtain h | h := List.mem_append.mp (upper b hb)
    · cases htier.symm.trans (tierOf_tableDoc h)
    · cases htier.symm.trans (tierOf_tableCompletion h)

theorem nodup_tableDoc : tableDoc.Nodup := by decide +kernel

/-- No byte is in both lists, since it has one tier. -/
theorem nodup_tableFull : (tableDoc ++ tableCompletion).Nodup := by
  refine List.nodup_append.mpr ⟨nodup_tableDoc, by decide +kernel, fun b hb c hc hbc => ?_⟩
  cases (tierOf_tableDoc hb).symm.trans (hbc ▸ tierOf_tableCompletion hc)

/-- Settles O5: the two lists are evaluated, and membership in a table goes by the tier of the byte. -/
theorem handlerTablesAreTheLegalOnes : Obligations.HandlerTablesAreTheLegalOnes := by
  refine ⟨nodup_tableDoc, rfl, nodup_tableFull, rfl, fun p b hb => p.inTable_doc (tierOf_tableDoc hb),
    fun p b hb => ?upper, fun table lower upper => ⟨{ extra := table, rom := [], period := 1 }, ?every⟩⟩
  case upper =>
    cases htier : tierOf b with
    | doc => exact List.mem_append_left _ (mem_tableDoc_of_tierOf b htier)
    | completion => exact List.mem_append_right _ (mem_tableCompletion_of_tierOf b htier)
    | absent => exact absurd htier (Machine.tierOf_ne_absent_of_inTable hb)
  case every => exact inTable_iff_mem lower upper rfl

end Sys2Proof
end

section
/-! The canonical form as data (10_state.md section 6), the word accesses (20_memory.md R55, R56), and the memory after
a list of stores. -/

namespace Sys2Proof.Machine

/-! ## A canonical memory is what it reads as -/

/-- A listed cell is read at its address, where the addresses rise. -/
theorem Memory.read_of_mem {m : Memory} (hm : m.Pairwise (fun c c' => c.1 < c'.1)) {c : Host.Cell} (hc : c ∈ m) :
    m.read c.1 = c.2 := by
  induction m with
  | nil => cases hc
  | cons c' m ih =>
    obtain ⟨hlt, hm⟩ := List.pairwise_cons.mp hm
    obtain rfl | hc := List.mem_cons.mp hc
    · simp [Memory.read]
    · simp [Memory.read, Nat.ne_of_lt (hlt c hc), ih hm hc]

/-- An address that does not read as zero is listed. -/
theorem Memory.mem_of_read_ne {m : Memory} {x : Nat} (h : m.read x ≠ unlistedByte) : (x, m.read x) ∈ m := by
  induction m with
  | nil => exact absurd rfl h
  | cons c m ih =>
    by_cases hx : c.1 = x
    · simp [Memory.read, ← hx]
    · simp only [Memory.read, hx, if_false] at h ⊢
      exact List.mem_cons_of_mem _ (ih h)

theorem Memory.mem_iff_read {m : Memory} (hm : m.wf) (c : Host.Cell) :
    c ∈ m ↔ c.2 ≠ unlistedByte ∧ m.read c.1 = c.2 := by
  constructor
  · exact fun hc => ⟨(hm.2 c hc).2, Memory.read_of_mem hm.1 hc⟩
  · rintro ⟨hne, hread⟩
    have hmem := Memory.mem_of_read_ne (m := m) (x := c.1) (hread ▸ hne)
    rwa [hread] at hmem

/-- Settles O17: both lists hold the cells the reads name, in one strict order. -/
theorem canonicalMemoriesThatReadAlikeAreEqual : Obligations.CanonicalMemoriesThatReadAlikeAreEqual := by
  intro m m' hm hm' alike
  have same (x : Nat) : m.read x = m'.read x := by
    by_cases hx : x < 65536
    · exact alike x hx
    · have above {n : Memory} (hn : n.wf) : n.read x = unlistedByte :=
        Classical.byContradiction fun h => hx (hn.2 _ (Memory.mem_of_read_ne h)).1
      rw [above hm, above hm']
  have nodup {n : Memory} (hn : n.wf) : n.Nodup := hn.1.imp fun h => ne_of_apply_ne Prod.fst (Nat.ne_of_lt h)
  have perm : m.Perm m' := (List.perm_ext_iff_of_nodup (nodup hm) (nodup hm')).mpr fun c => by
    rw [Memory.mem_iff_read hm, Memory.mem_iff_read hm', same]
  exact perm.eq_of_pairwise (fun _ _ _ _ h h' => absurd h (Nat.lt_asymm h')) hm.1 hm'.1

/-! ## Words -/

/-- Settles O16: the word is two byte stores, and each read is settled by the two laws of one store. -/
theorem wordAccessesAreLittleEndian : Obligations.WordAccessesAreLittleEndian := by
  intro s x v hm hx htop
  obtain ⟨u, hlo⟩ : ∃ u, memWrite s x (loByte v) = .ok u := ⟨_, memWrite_inRange s ⟨hx, by simp only [cap]; omega⟩ _⟩
  obtain ⟨t, hhi⟩ : ∃ t, memWrite u (x + 1) (hiByte v) = .ok t := ⟨_, memWrite_inRange u ⟨by omega, htop⟩ _⟩
  have readLo : memRead t x = .ok (loByte v) :=
    (memRead_memWrite_of_ne hhi (by omega)).trans (memRead_memWrite_self hm hlo)
  have readHi : memRead t (x + 1) = .ok (hiByte v) := memRead_memWrite_self (memWrite_wf hm hlo) hhi
  refine ⟨t, ?stores, ?memOnly, loByte_eq v ▸ readLo, hiByte_eq v ▸ readHi, ?readsBack, fun y hy hy' => ?others⟩
  case stores => simp only [memWriteWord, hlo, hhi, except_ok_bind]
  case memOnly =>
    obtain ⟨_, rfl⟩ := memWrite_cases hhi
    obtain ⟨_, rfl⟩ := memWrite_cases hlo
    rfl
  case readsBack => simp only [memReadWord, readLo, readHi, except_ok_bind, joinBytes_hiByte_loByte]
  case others => rw [memRead_memWrite_of_ne hhi hy', memRead_memWrite_of_ne hlo hy]

/-! ## A list of stores -/

/-- Memory after the bytes of `Instr.stores`, first to last. -/
def Memory.writeCells (m : Memory) (cells : List (Int × Byte)) : Memory :=
  cells.foldl (fun m c => m.write c.1.toNat c.2) m

/-- The stores of an instruction that completes: each in memory, no two to one address. -/
def CellsPlaced (cells : List (Int × Byte)) : Prop :=
  (∀ c ∈ cells, inRange c.1) ∧ (cells.map Prod.fst).Nodup

@[simp] theorem Memory.writeCells_nil (m : Memory) : m.writeCells [] = m := rfl

@[simp] theorem Memory.writeCells_cons (m : Memory) (c : Int × Byte) (cells : List (Int × Byte)) :
    m.writeCells (c :: cells) = (m.write c.1.toNat c.2).writeCells cells := rfl

theorem cellsPlaced_nil : CellsPlaced [] := ⟨by simp, by simp⟩

theorem CellsPlaced.head {c : Int × Byte} {cells : List (Int × Byte)} (h : CellsPlaced (c :: cells)) :
    inRange c.1 ∧ c.1 ∉ cells.map Prod.fst :=
  ⟨h.1 c (List.mem_cons_self ..), (List.nodup_cons.mp h.2).1⟩

theorem CellsPlaced.tail {c : Int × Byte} {cells : List (Int × Byte)} (h : CellsPlaced (c :: cells)) :
    CellsPlaced cells :=
  ⟨fun c' hc' => h.1 c' (List.mem_cons_of_mem _ hc'), (List.nodup_cons.mp h.2).2⟩

theorem cellsPlaced_addr (x : Word) (v : Byte) : CellsPlaced [(addr x, v)] := by
  have hx : inRange (addr x) := ⟨Int.natCast_nonneg _, Int.ofNat_lt.mpr x.isLt⟩
  exact ⟨by simpa using hx, by simp⟩

/-- Two bytes at `x` and `x + 1`, both in memory. -/
theorem cellsPlaced_word {x y : Int} (hx : 0 ≤ x) (htop : x + 1 < 65536) (hy : y = x + 1) (v w : Byte) :
    CellsPlaced [(x, v), (y, w)] := by
  subst hy
  simp [CellsPlaced, inRange, cap]
  omega

theorem Memory.wf_writeCells {m : Memory} {cells : List (Int × Byte)} (hm : m.wf) (placed : CellsPlaced cells) :
    (m.writeCells cells).wf := by
  induction cells generalizing m with
  | nil => exact hm
  | cons c cells ih =>
    obtain ⟨⟨_, hlt⟩, _⟩ := placed.head
    exact ih (Memory.wf_write hm (by simp only [cap] at hlt ⊢; omega) c.2) placed.tail

theorem Memory.read_writeCells_of_notMem {m : Memory} {cells : List (Int × Byte)} (placed : CellsPlaced cells) {x : Nat}
    (hx : (x : Int) ∉ cells.map Prod.fst) : (m.writeCells cells).read x = m.read x := by
  induction cells generalizing m with
  | nil => rfl
  | cons c cells ih =>
    obtain ⟨⟨hnonneg, _⟩, _⟩ := placed.head
    obtain ⟨hne, hx⟩ : (x : Int) ≠ c.1 ∧ (x : Int) ∉ cells.map Prod.fst := by simpa using hx
    rw [Memory.writeCells_cons, ih placed.tail hx, Memory.read_write_of_ne _ _ (by omega)]

theorem Memory.read_writeCells_of_mem {m : Memory} {cells : List (Int × Byte)} (hm : m.wf) (placed : CellsPlaced cells)
    {c : Int × Byte} (hc : c ∈ cells) : (m.writeCells cells).read c.1.toNat = c.2 := by
  induction cells generalizing m with
  | nil => cases hc
  | cons c' cells ih =>
    obtain ⟨⟨hnonneg, hlt⟩, hnotMem⟩ := placed.head
    have hm' : (m.write c'.1.toNat c'.2).wf := Memory.wf_write hm (by simp only [cap] at hlt ⊢; omega) c'.2
    obtain rfl | hc := List.mem_cons.mp hc
    · rw [Memory.writeCells_cons, Memory.read_writeCells_of_notMem placed.tail (by rwa [Int.toNat_of_nonneg hnonneg]),
        Memory.read_write_self hm.1]
    · exact ih hm' placed.tail hc

end Sys2Proof.Machine
end

section
/-! The tier-completion moves (40_loads_and_moves.md R118 to R124). -/

namespace Sys2Proof.Machine

/-! ## The claims of an instruction by its own tier

Its encoding, its length and the tier of its opcode follow from its being well formed. -/

theorem RunsInSequence.plain {i : Instr} {op : Byte} {tier : Tier} {after : State → State}
    (runs : RunsInSequence i after) (henc : encode i = [op]) (htier : i.tier = tier) (hw : i.wellFormed = true) :
    RunsPlain i op tier after := by
  have hop : i.opcode = op := (List.cons.inj henc).1
  exact runs.runsPlain henc (hop ▸ (tier_eq_tierOf_opcode hw).symm.trans htier)

theorem RunsInSequence.withOperands {i : Instr} {bytes : List Byte} {tier : Tier} {after : State → State}
    (runs : RunsInSequence i after) (henc : encode i = bytes) (htier : i.tier = tier) (hw : i.wellFormed = true) :
    RunsWithOperands i bytes tier after :=
  runs.runsWithOperands henc ((tier_eq_tierOf_opcode hw).symm.trans htier) hw (opcodeSelects i)

/-! ## Register moves -/

theorem runsPlain_movRR (r1 r2 : Reg) :
    RunsPlain (.movRR r1 r2) (0x40 ||| r1.code <<< 3 ||| r2.code) .completion
      (fun s => { s.setReg r1 (s.reg r2) with pc := s.pc + 1 }) :=
  (runsInSequence_thenNext fun _ => rfl).plain rfl rfl rfl

/-- R123: the two pairs are exchanged byte by byte. -/
theorem exchange_pairs (s : State) :
    (s.setPair .hl (s.pair .de)).setPair .de s.hl = { s with d := s.h, e := s.l, h := s.d, l := s.e } := by
  simp [State.setPair, State.pair, State.hl]

theorem runsPlain_xchg :
    RunsPlain .xchg 0xEB .completion (fun s => { s with d := s.h, e := s.l, h := s.d, l := s.e, pc := s.pc + 1 }) := by
  have runs := runsInSequence_thenNext (i := .xchg) fun _ => rfl
  exact (runs.congr fun s => by rw [exchange_pairs]; rfl).plain rfl rfl rfl

theorem runsPlain_sphl : RunsPlain .sphl 0xF9 .completion (fun s => { s with sp := s.hl, pc := s.pc + 1 }) :=
  (runsInSequence_thenNext (i := .sphl) (effect := fun s => { s with sp := s.hl }) fun _ => rfl).plain rfl rfl rfl

/-- Settles O23: each is the shape of an effect on registers. -/
theorem registerMoves : Obligations.RegisterMoves :=
  ⟨runsPlain_movRR, runsPlain_xchg, runsPlain_sphl⟩

/-! ## Loads and stores at an immediate address -/

@[simp] theorem loByte_hl (s : State) : loByte s.hl = s.l := loByte_joinBytes ..

@[simp] theorem hiByte_hl (s : State) : hiByte s.hl = s.h := hiByte_joinBytes ..

theorem memReadWord_addr {s : State} {x : Word} (h : x.toNat < 65535) :
    memReadWord s (addr x) = .ok (joinBytes (s.mem.read (x.toNat + 1)) (s.mem.read x.toNat)) :=
  memReadWord_nat (Nat.succ_lt_succ h)

theorem memWriteWord_addr {s : State} {x : Word} (h : x.toNat < 65535) (v : Word) :
    memWriteWord s (addr x) v =
      .ok { s with mem := (s.mem.write x.toNat (loByte v)).write (x.toNat + 1) (hiByte v) } :=
  memWriteWord_nat (Nat.succ_lt_succ h) v

theorem addr_eq_top {x : Word} (h : x.toNat = 65535) : addr x = 65535 := by rw [addr, h]; rfl

/-- D5: the second byte of a word at the top of memory. -/
theorem memReadWord_addr_top {s : State} {x : Word} (h : x.toNat = 65535) :
    memReadWord s (addr x) = .error (.outOfRangeMemoryAccess 65536) := by
  rw [addr_eq_top h, memReadWord_top]

theorem memWriteWord_addr_top {s : State} {x : Word} (h : x.toNat = 65535) (v : Word) :
    memWriteWord s (addr x) v = .error (.outOfRangeMemoryAccess 65536) := by
  rw [addr_eq_top h, memWriteWord_top]

theorem runsInSequence_lda (a : Word) :
    RunsInSequence (.lda a) (fun s => { s with a := s.mem.read a.toNat, pc := s.pc + 3 }) := by
  refine runsInSequence_of_settle (n := 3) rfl (fun _ => rfl) (fun s h => ?done) (fun s h => ?raises)
  case done => simp [nextPC_ok h]
  case raises => simp [nextPC_error h]

theorem runsInSequence_lhld {a : Word} (ha : a.toNat < 65535) :
    RunsInSequence (.lhld a)
      (fun s => { s with l := s.mem.read a.toNat, h := s.mem.read (a.toNat + 1), pc := s.pc + 3 }) := by
  refine runsInSequence_of_settle (n := 3) rfl (fun _ => rfl) (fun s h => ?done) (fun s h => ?raises)
  case done => simp [nextPC_ok h, memReadWord_addr ha, State.setPair]
  case raises => simp [nextPC_error h]

theorem runsInSequence_shld {a : Word} (ha : a.toNat < 65535) :
    RunsInSequence (.shld a)
      (fun s => { s with mem := (s.mem.write a.toNat s.l).write (a.toNat + 1) s.h, pc := s.pc + 3 }) := by
  refine runsInSequence_of_settle (n := 3) rfl (fun _ => rfl) (fun s h => ?done) (fun s h => ?raises)
  case done => simp [nextPC_ok h, memWriteWord_addr ha]
  case raises => simp [nextPC_error h]

theorem raisesOutOfRange_lhld {s : State} (hpc : s.pc.toNat + 3 < 65536) : RaisesOutOfRange (.lhld 0xFFFF) s 65536 :=
  raisesOutOfRange_of_settle rfl (by simp only [nextPC_ok hpc, except_ok_bind, memReadWord_addr_top (x := 0xFFFF) rfl,
    except_error_bind])

theorem raisesOutOfRange_shld {s : State} (hpc : s.pc.toNat + 3 < 65536) : RaisesOutOfRange (.shld 0xFFFF) s 65536 :=
  raisesOutOfRange_of_settle rfl (by simp only [nextPC_ok hpc, except_ok_bind, memWriteWord_addr_top (x := 0xFFFF) rfl,
    except_error_bind])

/-- Settles O24: a byte is always in range, a word unless it stands at the top of memory. -/
theorem directLoadsAndStores : Obligations.DirectLoadsAndStores :=
  ⟨fun a => (runsInSequence_lda a).withOperands rfl rfl rfl,
    fun _ => (runsInSequence_storeNext fun _ => rfl).withOperands rfl rfl rfl,
    fun _ ha => (runsInSequence_lhld ha).withOperands rfl rfl rfl,
    fun _ ha => (runsInSequence_shld ha).withOperands rfl rfl rfl,
    fun _ hpc => ⟨raisesOutOfRange_lhld hpc, raisesOutOfRange_shld hpc⟩⟩

end Sys2Proof.Machine
end

section
/-! The rest of the arithmetic (41_arithmetic.md R145 to R152 and R155 to R163). -/

namespace Sys2Proof.Machine

/-! ## SUB and SBB -/

theorem subA_next (s : State) (v : Byte) (cin : Bool) (len : Word) :
    { s.subA v cin with pc := s.pc + len } = afterSub s v cin len := by
  rw [State.subA, subByte_fst, subByte_snd, Flags.setZSP_eq_flagsOf]
  rfl

/-- A subtraction whose operand and carry in are read from registers, flags or the instruction. -/
theorem runsInSequence_subA {i : Instr} {v : State → Byte} {cin : State → Bool}
    (meaning : ∀ s, exec i s = settle s (thenNext s i.length fun s => s.subA (v s) (cin s))) :
    RunsInSequence i (fun s => afterSub s (v s) (cin s) (BitVec.ofNat 16 i.length)) :=
  (runsInSequence_thenNext meaning).congr fun s => subA_next s (v s) (cin s) _

/-- A subtraction of the byte at `HL`. -/
theorem runsInSequence_subA_withM {i : Instr} {cin : State → Bool} (len : i.length = 1)
    (meaning : ∀ s, exec i s = settle s (withM s fun s v => s.subA v (cin s))) :
    RunsInSequence i (fun s => afterSub s s.byteAtHL (cin s) 1) :=
  (runsInSequence_withM len meaning).congr fun s => subA_next s s.byteAtHL (cin s) 1

theorem runsPlain_subR (r : Reg) :
    RunsPlain (.subR r) (0x90 ||| r.code) .doc (fun s => afterSub s (s.reg r) false 1) :=
  (runsInSequence_subA fun _ => rfl).plain rfl rfl rfl

theorem runsPlain_sbbR (r : Reg) :
    RunsPlain (.sbbR r) (0x98 ||| r.code) .doc (fun s => afterSub s (s.reg r) s.flags.cy 1) :=
  (runsInSequence_subA fun _ => rfl).plain rfl rfl rfl

/-- Settles O26: SUB is the difference with no carry in, SBB the one with CY. -/
theorem subtractions : Obligations.Subtractions :=
  ⟨runsPlain_subR, (runsInSequence_subA_withM rfl fun _ => rfl).plain rfl rfl rfl,
    runsPlain_sbbR, (runsInSequence_subA_withM rfl fun _ => rfl).plain rfl rfl rfl⟩

/-! ## INR and DCR -/

theorem updateReg_next (s : State) (r : Reg) (change : Byte → Byte) :
    { s.updateReg r change with pc := s.pc + 1 } = afterCount s r (change (s.reg r)) := by
  rw [State.updateReg, Flags.setZSP_eq_flagsOf]
  rfl

/-- R149, R151, over the change. -/
theorem runsInSequence_updateReg {i : Instr} {r : Reg} {change : Byte → Byte} (len : i.length = 1)
    (meaning : ∀ s, exec i s = settle s (thenNext s 1 fun s => s.updateReg r change)) :
    RunsInSequence i (fun s => afterCount s r (change (s.reg r))) :=
  (runsInSequence_thenNext (len.symm ▸ meaning)).congr fun s => by rw [len]; exact updateReg_next s r change

/-- R150, R152, over the change. -/
theorem runsInSequence_updateM {i : Instr} {change : Byte → Byte} (len : i.length = 1)
    (meaning : ∀ s, exec i s = settle s (updateM s change)) :
    RunsInSequence i (fun s => afterCountM s (change s.byteAtHL)) := by
  refine runsInSequence_of_settle len meaning (fun s h => ?done) (fun _ h => updateM_error h change)
  case done => rw [updateM_ok h, Flags.setZSP_eq_flagsOf]; rfl

theorem runsPlain_inrR (r : Reg) :
    RunsPlain (.inrR r) (0x04 ||| r.code <<< 3) .doc (fun s => afterCount s r (s.reg r + 1)) :=
  (runsInSequence_updateReg (change := fun v => v + 1) rfl fun _ => rfl).plain rfl rfl rfl

theorem runsPlain_dcrR (r : Reg) :
    RunsPlain (.dcrR r) (0x05 ||| r.code <<< 3) .doc (fun s => afterCount s r (s.reg r - 1)) :=
  (runsInSequence_updateReg (change := fun v => v - 1) rfl fun _ => rfl).plain rfl rfl rfl

/-- Settles O27: both are one lemma over the change, for a register and for the byte at `HL`. -/
theorem incrementsAndDecrements : Obligations.IncrementsAndDecrements :=
  ⟨runsPlain_inrR, (runsInSequence_updateM (change := fun v => v + 1) rfl fun _ => rfl).plain rfl rfl rfl,
    runsPlain_dcrR, (runsInSequence_updateM (change := fun v => v - 1) rfl fun _ => rfl).plain rfl rfl rfl⟩

/-! ## The immediate forms -/

/-- Settles O29: the effects of the register forms, with the immediate as operand. -/
theorem immediateArithmetic : Obligations.ImmediateArithmetic := fun _ =>
  ⟨(runsInSequence_addA fun _ => rfl).withOperands rfl rfl rfl,
    (runsInSequence_addA fun _ => rfl).withOperands rfl rfl rfl,
    (runsInSequence_subA fun _ => rfl).withOperands rfl rfl rfl,
    (runsInSequence_subA fun _ => rfl).withOperands rfl rfl rfl⟩

/-! ## INX and DCX -/

theorem runsPlain_inx (q : Pair) :
    RunsPlain (.inx q) (0x03 ||| q.code <<< 4) .completion
      (fun s => { s.setPair q (s.pair q + 1) with pc := s.pc + 1 }) :=
  (runsInSequence_thenNext fun _ => rfl).plain rfl rfl rfl

theorem runsPlain_dcx (q : Pair) :
    RunsPlain (.dcx q) (0x0B ||| q.code <<< 4) .completion
      (fun s => { s.setPair q (s.pair q - 1) with pc := s.pc + 1 }) :=
  (runsInSequence_thenNext fun _ => rfl).plain rfl rfl rfl

/-- Settles O30: each is the shape of an effect on registers, and writes no flag. -/
theorem pairIncrementsAndDecrements : Obligations.PairIncrementsAndDecrements :=
  ⟨runsPlain_inx,
    (runsInSequence_thenNext (i := .inxSp) (effect := fun s => { s with sp := s.sp + 1 }) fun _ => rfl).plain
      rfl rfl rfl,
    runsPlain_dcx,
    (runsInSequence_thenNext (i := .dcxSp) (effect := fun s => { s with sp := s.sp - 1 }) fun _ => rfl).plain
      rfl rfl rfl⟩

/-! ## DAA -/

/-- R163: the low digit of `A` is adjusted. -/
def adjustsLow (s : State) : Bool := decide (9 < s.a.toNat % 16) || s.flags.ac

/-- R163: the high digit of `A` is adjusted. -/
def adjustsHigh (s : State) : Bool :=
  decide (9 < s.a.toNat / 16) || s.flags.cy || (decide (9 ≤ s.a.toNat / 16) && decide (9 < s.a.toNat % 16))

theorem adjustsHigh_eq (s : State) :
    decide (s.a.toNat / 16 > 9 ∨ s.flags.cy = true ∨ (s.a.toNat / 16 ≥ 9 ∧ s.a.toNat % 16 > 9)) = adjustsHigh s := by
  simp [adjustsHigh, Bool.or_assoc]

theorem daaByte_fst (s : State) :
    (daaByte s.a s.flags.cy s.flags.ac).1 =
      s.a + (if adjustsLow s then 0x06 else 0) + (if adjustsHigh s then 0x60 else 0) := by
  have low : (s.a.toNat % 16 > 9 ∨ s.flags.ac = true) ↔ adjustsLow s = true := by simp [adjustsLow]
  simp only [daaByte, adjustsHigh_eq, low, BitVec.ofNat_add, BitVec.ofNat_toNat, BitVec.setWidth_eq, BitVec.add_assoc]
  congr 2 <;> split <;> rfl

theorem daaByte_snd (s : State) : (daaByte s.a s.flags.cy s.flags.ac).2 = (adjustsHigh s || s.flags.cy) := by
  simp only [daaByte, adjustsHigh_eq]

/-- Settles O31: the two digits are adjusted as the rule's pseudocode says. -/
theorem decimalAdjust : Obligations.DecimalAdjust := by
  have runs := runsInSequence_thenNext (i := .daa) fun _ => rfl
  refine (runs.congr fun s => ?_).plain rfl rfl rfl
  simp only [daaByte_fst, daaByte_snd, Flags.setZSP_eq_flagsOf]
  rfl

end Sys2Proof.Machine
end

section
/-! The immediate logic, the rotates and the carry operations (42_logical_and_compare.md R179 to R188). -/

namespace Sys2Proof.Machine

/-- Settles O34: the effect of the register forms, with the immediate as operand. -/
theorem immediateLogic : Obligations.ImmediateLogic := fun _ =>
  ⟨(runsInSequence_logicA fun _ => rfl).withOperands rfl rfl rfl,
    (runsInSequence_logicA fun _ => rfl).withOperands rfl rfl rfl,
    (runsInSequence_logicA fun _ => rfl).withOperands rfl rfl rfl⟩

/-! ## The rotates, as arithmetic and as operations on bits -/

theorem ofNat_rotateLeft : ∀ x : Byte, BitVec.ofNat 8 (x.toNat * 2 % 256 + x.toNat / 128) = x.rotateLeft 1 := by
  decide +kernel

theorem ofNat_rotateRight : ∀ x : Byte, BitVec.ofNat 8 (x.toNat / 2 + x.toNat % 2 * 128) = x.rotateRight 1 := by
  decide +kernel

theorem ofNat_rotateLeft_carry : ∀ (x : Byte) (cy : Bool),
    BitVec.ofNat 8 (x.toNat * 2 % 256 + bit cy) = x <<< 1 ||| carryByte cy := by
  decide +kernel

theorem ofNat_rotateRight_carry : ∀ (x : Byte) (cy : Bool),
    BitVec.ofNat 8 (x.toNat / 2 + bit cy * 128) = x >>> 1 ||| carryByte cy <<< 7 := by
  decide +kernel

/-- R182 to R185: a rotate whose new byte and bit are those of the rule. -/
theorem runsInSequence_rotateA {i : Instr} {r r' : State → Byte} {cy : State → Bool} (len : i.length = 1)
    (meaning : ∀ s, exec i s = settle s (thenNext s 1 fun s => s.rotateA (r s) (cy s))) (same : ∀ s, r s = r' s) :
    RunsInSequence i (fun s => { s with a := r' s, pc := s.pc + 1, flags := { s.flags with cy := cy s } }) :=
  (runsInSequence_thenNext (len.symm ▸ meaning)).congr fun s => by rw [len, same]; rfl

/-- Settles O35: each is one rotate, its new byte compared with the rule's. -/
theorem rotates : Obligations.Rotates :=
  ⟨(runsInSequence_rotateA (i := .rlc) rfl (fun _ => rfl) fun s => ofNat_rotateLeft s.a).plain rfl rfl rfl,
    (runsInSequence_rotateA (i := .rrc) rfl (fun _ => rfl) fun s => ofNat_rotateRight s.a).plain rfl rfl rfl,
    (runsInSequence_rotateA (i := .ral) rfl (fun _ => rfl) fun s => ofNat_rotateLeft_carry s.a s.flags.cy).plain
      rfl rfl rfl,
    (runsInSequence_rotateA (i := .rar) rfl (fun _ => rfl) fun s => ofNat_rotateRight_carry s.a s.flags.cy).plain
      rfl rfl rfl⟩

/-! ## CMA, STC and CMC -/

theorem runsPlain_cma : RunsPlain .cma 0x2F .completion (fun s => { s with a := 255 - s.a, pc := s.pc + 1 }) := by
  have runs := runsInSequence_thenNext (i := .cma) fun _ => rfl
  refine (runs.congr fun s => ?_).plain rfl rfl rfl
  have complement : ~~~s.a = 255 - s.a := (BitVec.allOnes_sub_eq_not s.a).symm
  rw [complement]
  rfl

/-- Settles O36: each is the shape of an effect on `A` or on the flags. -/
theorem complementAndCarryOperations : Obligations.ComplementAndCarryOperations :=
  ⟨runsPlain_cma, (runsInSequence_thenNext (i := .stc) fun _ => rfl).plain rfl rfl rfl,
    (runsInSequence_thenNext (i := .cmc) fun _ => rfl).plain rfl rfl rfl⟩

end Sys2Proof.Machine
end

section
/-! The conditional calls, RST and PCHL (43_control_transfer.md R220 to R229), and a call with the return behind it. -/

namespace Sys2Proof.Machine

theorem callIf_taken {s : State} {cond : Cond} (h : s.flags.holds cond = true) (a : Word) :
    callIf cond a s = callTo a s := by
  simp [callIf, callTo, h]

theorem callIf_untaken {s : State} {cond : Cond} (h : s.flags.holds cond = false) (a : Word) :
    callIf cond a s = thenNext s 3 id := by
  simp [callIf, thenNext, h]

theorem runsAsCall_callIf {mk : Word → Instr} {op : Byte} {tier : Tier} (cond : Cond)
    (meaning : ∀ a s, exec (mk a) s = settle s (callIf cond a s))
    (henc : ∀ a, encode (mk a) = [op, loByte a, hiByte a]) (htier : tierOf op = tier)
    (hw : ∀ a, (mk a).wellFormed = true) : RunsAsCall mk op tier (fun s => s.flags.holds cond) :=
  runsAsCall_of_settle meaning (fun a _ h => callIf_taken h a) (fun a _ h => callIf_untaken h a) henc htier hw
    fun a => opcodeSelects (mk a)

/-- Settles O40: the eight are the conditional shape, each with the test its name says. -/
theorem conditionalCalls : Obligations.ConditionalCalls :=
  ⟨runsAsCall_callIf .nz (fun _ _ => rfl) (fun _ => rfl) rfl (fun _ => rfl),
    runsAsCall_callIf .z (fun _ _ => rfl) (fun _ => rfl) rfl (fun _ => rfl),
    runsAsCall_callIf .nc (fun _ _ => rfl) (fun _ => rfl) rfl (fun _ => rfl),
    runsAsCall_callIf .c (fun _ _ => rfl) (fun _ => rfl) rfl (fun _ => rfl),
    runsAsCall_callIf .po (fun _ _ => rfl) (fun _ => rfl) rfl (fun _ => rfl),
    runsAsCall_callIf .pe (fun _ _ => rfl) (fun _ => rfl) rfl (fun _ => rfl),
    runsAsCall_callIf .p (fun _ _ => rfl) (fun _ => rfl) rfl (fun _ => rfl),
    runsAsCall_callIf .m (fun _ _ => rfl) (fun _ => rfl) rfl (fun _ => rfl)⟩

/-! ## The push shape

`NextPC(n)`, a push, and the new `PC`: RST, CALL and PUSH are this shape, each with its own word `v` and `target`, which
may be the `PC` computed. -/

/-- The shape. -/
def pushThen (s : State) (n : Nat) (v target : Word → Word) : Except Fault State := do
  let next ← nextPC s n
  let t ← push16 s (v next)
  .ok { t with pc := target next }

section
variable {s : State} {n : Nat} (v target : Word → Word)

theorem pushThen_ok (hpc : s.pc.toNat + n < 65536) (hsp : 2 ≤ s.sp.toNat) :
    pushThen s n v target =
      .ok (afterPush s (v (s.pc + BitVec.ofNat 16 n)) (target (s.pc + BitVec.ofNat 16 n))) := by
  simp [pushThen, nextPC_ok hpc, push16_ok hsp, afterPush]

theorem pushThen_push_error (hpc : s.pc.toNat + n < 65536) (hsp : s.sp.toNat < 2) :
    pushThen s n v target = .error (.outOfRangeMemoryAccess ((s.sp.toNat : Int) - 2)) := by
  simp [pushThen, nextPC_ok hpc, push16_error hsp]

theorem pushThen_error (hpc : 65536 ≤ s.pc.toNat + n) :
    pushThen s n v target = .error (.outOfRangeMemoryAccess (s.pc.toNat + n : Int)) := by
  simp [pushThen, nextPC_error hpc]

end

theorem nextPCRaises_of_pushThen {i : Instr} {v target : State → Word → Word}
    (meaning : ∀ s, exec i s = settle s (pushThen s i.length (v s) (target s))) : NextPCRaises i := fun s hpc => by
  have top : (s.pc.toNat + i.length : Int) = 65536 := by omega
  exact raisesOutOfRange_of_settle (meaning s) (top ▸ pushThen_error _ _ (Nat.le_of_eq hpc.symm))

/-! ## RST and PCHL -/

theorem exec_rst (n : BitVec 3) (s : State) :
    exec (.rst n) s = settle s (pushThen s 1 id fun _ => entryAddress n) := rfl

theorem rst_opcode : ∀ n : BitVec 3, (Instr.rst n).opcode = BitVec.ofNat 8 (0xC7 + 8 * n.toNat) ∧
    tierOf (BitVec.ofNat 8 (0xC7 + 8 * n.toNat)) = .completion := by
  decide +kernel

/-- Settles O41: RST is the push shape, PCHL sets `PC` alone. -/
theorem restartAndIndirectJump : Obligations.RestartAndIndirectJump := by
  refine ⟨fun n s hpc hsp => ?pushes, fun n s hpc hsp => ?raises, fun n => ?encoding, fun _ => rfl, rfl, rfl⟩
  case pushes => rw [exec_rst, pushThen_ok _ _ hpc hsp, settle_ok]; rfl
  case raises => exact raisesOutOfRange_of_settle (exec_rst n s) (pushThen_push_error _ _ hpc hsp)
  case encoding =>
    obtain ⟨hop, htier⟩ := rst_opcode n
    exact ⟨congrArg (· :: []) hop, htier, nextPCRaises_of_pushThen (exec_rst n)⟩

end Sys2Proof.Machine
end

section
/-! PUSH and XTHL (44_stack.md R251, R252, R256), and what a pop gives behind a push (44_stack.md section 2). -/

namespace Sys2Proof.Machine

/-! ## PUSH of a pair and of PSW -/

theorem exec_push (q : Pair) (s : State) : exec (.push q) s = settle s (pushThen s 1 (fun _ => s.pair q) id) := rfl

theorem exec_pushPsw (s : State) :
    exec .pushPsw s = settle s (pushThen s 1 (fun _ => joinBytes s.a s.flags.toByte) id) := rfl

theorem exec_push_ok (q : Pair) {s : State} (hpc : s.pc.toNat + 1 < 65536) (hsp : 2 ≤ s.sp.toNat) :
    exec (.push q) s = .next (afterPush s (s.pair q) (s.pc + 1)) := by
  rw [exec_push, pushThen_ok _ _ hpc hsp, settle_ok]
  rfl

theorem exec_pushPsw_ok {s : State} (hpc : s.pc.toNat + 1 < 65536) (hsp : 2 ≤ s.sp.toNat) :
    exec .pushPsw s = .next (afterPush s (joinBytes s.a s.flags.toByte) (s.pc + 1)) := by
  rw [exec_pushPsw, pushThen_ok _ _ hpc hsp, settle_ok]
  rfl

/-- R255, bit by bit. -/
theorem Flags.toByte_bits (f : Flags) :
    f.toByte.getLsbD 0 = f.z ∧ f.toByte.getLsbD 1 = f.s ∧ f.toByte.getLsbD 2 = f.p ∧ f.toByte.getLsbD 3 = f.cy ∧
    f.toByte.getLsbD 4 = f.ac ∧ f.toByte.getLsbD 5 = false ∧ f.toByte.getLsbD 6 = false ∧
    f.toByte.getLsbD 7 = false := by
  obtain ⟨z, s, p, cy, ac⟩ := f
  revert z s p cy ac
  decide +kernel

/-- Settles O42: both forms are the push shape, each with its own word. -/
theorem pushes : Obligations.Pushes := by
  refine ⟨fun q s => exec_push_ok q, fun s hpc hsp => ⟨_, exec_pushPsw_ok hpc hsp, s.flags.toByte_bits⟩,
    fun q s hpc hsp => ?raises, fun q => ?encodingPair, rfl, rfl, nextPCRaises_of_pushThen exec_pushPsw⟩
  case raises =>
    exact ⟨raisesOutOfRange_of_settle (exec_push q s) (pushThen_push_error _ _ hpc hsp),
      raisesOutOfRange_of_settle (exec_pushPsw s) (pushThen_push_error _ _ hpc hsp)⟩
  case encodingPair =>
    exact ⟨rfl, (tier_eq_tierOf_opcode (i := .push q) rfl).symm, nextPCRaises_of_pushThen (exec_push q)⟩

/-! ## XTHL -/

/-- Settles O44: a word read and a word write at `SP`, which fail together where `SP` is the last address. -/
theorem exchangeWithTheStack : Obligations.ExchangeWithTheStack := by
  refine ⟨fun s hpc hsp => ?exchanges, fun s hpc hsp => ?raisesStack, rfl, rfl, fun s hpc => ?raisesTop⟩
  case exchanges =>
    simp [exec, execXthl, nextPC_ok hpc, memReadWord_addr hsp, memWriteWord_addr hsp, State.setPair]
  case raisesStack =>
    exact raisesOutOfRange_of_settle rfl (by simp [nextPC_ok hpc, memReadWord_addr_top hsp])
  case raisesTop =>
    exact raisesOutOfRange_of_settle rfl (by simp [nextPC_top (n := 1) hpc])

/-! ## A pop behind a push -/

theorem afterPush_sp_toNat {s : State} (hsp : 2 ≤ s.sp.toNat) (v target : Word) :
    (afterPush s v target).sp.toNat = s.sp.toNat - 2 := by
  simp only [afterPush]
  bv_omega

section
variable {s : State} (hm : s.mem.wf) (hsp : 2 ≤ s.sp.toNat) (v target : Word)
include hm hsp

theorem read_afterPush_low :
    (afterPush s v target).mem.read (afterPush s v target).sp.toNat = loByte v := by
  have apart : s.sp.toNat - 2 ≠ s.sp.toNat - 1 := by omega
  rw [afterPush_sp_toNat hsp, afterPush, Memory.read_write_of_ne _ _ apart, Memory.read_write_self hm.1]

theorem read_afterPush_high :
    (afterPush s v target).mem.read ((afterPush s v target).sp.toNat + 1) = hiByte v := by
  have upper : s.sp.toNat - 2 + 1 = s.sp.toNat - 1 := by omega
  rw [afterPush_sp_toNat hsp, upper, afterPush, Memory.read_write_self (Memory.pairwise_write hm.1 _ _)]

/-- The word pushed is the word on top of the stack, where memory is canonical. -/
theorem stackTop_afterPush : (afterPush s v target).stackTop = v := by
  rw [State.stackTop, read_afterPush_low hm hsp, read_afterPush_high hm hsp, joinBytes_hiByte_loByte]

end

theorem afterPush_room {s : State} (hsp : 2 ≤ s.sp.toNat) (v target : Word) :
    (afterPush s v target).sp.toNat + 2 < 65536 := by
  have := s.sp.isLt
  rw [afterPush_sp_toNat hsp]
  omega

theorem Flags.ofByte_toByte (f : Flags) : Flags.ofByte f.toByte = f := by
  obtain ⟨h0, h1, h2, h3, h4, _⟩ := f.toByte_bits
  rw [Flags.ofByte, h0, h1, h2, h3, h4]

/-- Settles O45: the pop finds the pushed word, `SP` comes back and `PC` has gone on twice. -/
theorem pushThenPopRoundTrips : Obligations.PushThenPopRoundTrips := by
  intro s hm hpc hsp
  have next : (s.pc + 1).toNat + 1 < 65536 := by bv_omega
  have sp : s.sp - 2 + 2 = s.sp := BitVec.sub_add_cancel ..
  have pc : s.pc + 1 + 1 = s.pc + 2 := BitVec.add_assoc ..
  refine ⟨fun q => ⟨_, _, exec_push_ok q (by omega) hsp, exec_pop_ok q next (afterPush_room hsp _ _), ?pair⟩,
    ⟨_, _, exec_pushPsw_ok (by omega) hsp, exec_popPsw_ok next (afterPush_room hsp _ _), ?psw⟩⟩
  case pair =>
    rw [stackTop_afterPush hm hsp]
    cases q <;> simp only [State.setPair, State.pair, afterPush, hiByte_joinBytes, loByte_joinBytes, sp, pc]
  case psw =>
    rw [read_afterPush_low hm hsp, read_afterPush_high hm hsp, hiByte_joinBytes, loByte_joinBytes, Flags.ofByte_toByte]
    simp only [afterPush, sp, pc]

/-! ## A return behind a call -/

/-- Settles O46: the return pops the address the call pushed. -/
theorem callThenReturnRoundTrips : Obligations.CallThenReturnRoundTrips := by
  intro s a hm hpc hsp
  have call : exec (.call a) s = .next (afterPush s (s.pc + 3) a) := by
    rw [exec, execCall, callTo_ok hpc hsp, settle_ok]
  have ret : exec .ret (afterPush s (s.pc + 3) a) = .next (afterReturn (afterPush s (s.pc + 3) a) true) := by
    rw [exec, execRet, returnFromStack_ok (afterPush_room hsp _ _), settle_ok]
    rfl
  refine ⟨_, _, call, rfl, ret, ?resumes⟩
  have sp : s.sp - 2 + 2 = s.sp := BitVec.sub_add_cancel ..
  rw [afterReturn, if_pos rfl, stackTop_afterPush hm hsp]
  simp only [afterPush, sp]

end Sys2Proof.Machine
end

section
/-! Ports, interrupt enable and NOP (45_io_and_control.md), the absent opcodes (30_encoding.md R91), and the outputs
(60_exceptions.md R302). -/

namespace Sys2Proof.Machine

/-- Settles O47: each is the shape of an effect on `A`, on `IE` or on nothing. -/
theorem portsInterruptEnableAndNop : Obligations.PortsInterruptEnableAndNop :=
  ⟨fun port => (runsInSequence_thenNext (i := .inp port) fun _ => rfl).withOperands rfl rfl rfl,
    fun port => (runsInSequence_thenNext (i := .out port) fun _ => rfl).withOperands rfl rfl rfl,
    (runsInSequence_thenNext (i := .ei) fun _ => rfl).plain rfl rfl rfl,
    (runsInSequence_thenNext (i := .di) fun _ => rfl).plain rfl rfl rfl,
    (runsInSequence_thenNext (i := .nop) fun _ => rfl).plain rfl rfl rfl⟩

/-- Settles O48: the two absent forms raise by definition; their bytes decode by the round trip. -/
theorem absentOpcodesRaise : Obligations.AbsentOpcodesRaise := by
  refine ⟨fun _ _ => rfl, fun _ => rfl, fun b hb => ⟨?decodes, tierOf_absent (.inl hb)⟩,
    decodeEncodeRoundTrip .absentHlt [] rfl, tierOf_absent (.inr rfl)⟩
  case decodes => exact decodeEncodeRoundTrip (.absent b) [] (List.contains_iff_mem.mpr hb)

theorem exportRange_length (s : State) (base n : Nat) : (s.exportRange base n).length = n := by
  simp [State.exportRange]

theorem exportRange_getElem? (s : State) (base : Nat) {n i : Nat} (h : i < n) :
    (s.exportRange base n)[i]? = some (s.mem.read (base + i)) := by
  simp [State.exportRange, h]

/-- Settles O60: the snapshot and the fault output by definition, the memory range place by place. -/
theorem outputsShowTheState : Obligations.OutputsShowTheState := fun s =>
  ⟨rfl, rfl, fun base n _ => ⟨exportRange_length s base n, exportRange_getElem? s base⟩⟩

end Sys2Proof.Machine
end

section
/-! What an instruction can do, said once for all 98: it completes within the parts of the state its rule lets it write,
or it raises a fault of a known kind. Every frame is read off this. -/

namespace Sys2Proof.Machine

/-! ## A completed instruction -/

/-- `IE` after an instruction (10_state.md R35). -/
def ieAfter (ie : Bool) : Instr → Bool
  | .ei => true
  | .di => false
  | _ => ie

theorem ieAfter_eq_self {i : Instr} {ie : Bool} (hei : i ≠ .ei) (hdi : i ≠ .di) : ieAfter ie i = ie := by
  unfold ieAfter
  split
  · exact absurd rfl hei
  · exact absurd rfl hdi
  · rfl

/-- What a completed instruction has left of the state before it: the registers and flags its row does not list, the
control state, and memory but for its stores. -/
structure Completed (i : Instr) (s t : State) : Prop where
  regs : ∀ r : Reg, r ∉ i.writes.regs → t.reg r = s.reg r
  sp : i.writes.sp = false → t.sp = s.sp
  zsp : i.writes.zsp = false → t.flags.z = s.flags.z ∧ t.flags.s = s.flags.s ∧ t.flags.p = s.flags.p
  cy : i.writes.cy = false → t.flags.cy = s.flags.cy
  ac : i.writes.ac = false → t.flags.ac = s.flags.ac
  ie : t.ie = ieAfter s.ie i
  lastFire : t.lastFire = s.lastFire
  fault : t.fault = s.fault
  params : t.params = s.params
  env : t.env = s.env
  mem : t.mem = s.mem.writeCells (i.stores s)
  placed : CellsPlaced (i.stores s)

namespace Completed

/-! ### Where an effect starts -/

/-- Before any effect of an instruction that stores nothing. -/
theorem start {i : Instr} {s : State} {ie : Bool} (hie : ie = ieAfter s.ie i) (stores : i.stores s = []) :
    Completed i s { s with ie := ie } where
  regs _ _ := rfl
  sp _ := rfl
  zsp _ := ⟨rfl, rfl, rfl⟩
  cy _ := rfl
  ac _ := rfl
  ie := hie
  lastFire := rfl
  fault := rfl
  params := rfl
  env := rfl
  mem := by rw [stores]; rfl
  placed := stores ▸ cellsPlaced_nil

/-- After the stores of an instruction. -/
theorem stored {i : Instr} {s : State} {cells : List (Int × Byte)} {m : Memory} (hie : s.ie = ieAfter s.ie i)
    (stores : i.stores s = cells) (placed : CellsPlaced cells) (mem : m = s.mem.writeCells cells) :
    Completed i s { s with mem := m } where
  regs _ _ := rfl
  sp _ := rfl
  zsp _ := ⟨rfl, rfl, rfl⟩
  cy _ := rfl
  ac _ := rfl
  ie := hie
  lastFire := rfl
  fault := rfl
  params := rfl
  env := rfl
  mem := stores ▸ mem
  placed := stores ▸ placed

/-! ### One rule per write -/

section
variable {i : Instr} {s t : State} (h : Completed i s t)
include h

theorem setPc (v : Word) : Completed i s { t with pc := v } :=
  ⟨h.regs, h.sp, h.zsp, h.cy, h.ac, h.ie, h.lastFire, h.fault, h.params, h.env, h.mem, h.placed⟩

theorem setSp (hsp : i.writes.sp = true) (v : Word) : Completed i s { t with sp := v } :=
  ⟨h.regs, fun h' => Bool.noConfusion (hsp.symm.trans h'), h.zsp, h.cy, h.ac, h.ie, h.lastFire, h.fault, h.params,
    h.env, h.mem, h.placed⟩

theorem setReg {r : Reg} (hr : r ∈ i.writes.regs) (v : Byte) : Completed i s (t.setReg r v) where
  regs r' hr' := (t.reg_setReg_of_ne v (ne_of_mem_of_not_mem hr hr').symm).trans (h.regs r' hr')
  sp := by simpa using h.sp
  zsp := by simpa using h.zsp
  cy := by simpa using h.cy
  ac := by simpa using h.ac
  ie := by simpa using h.ie
  lastFire := by simpa using h.lastFire
  fault := by simpa using h.fault
  params := by simpa using h.params
  env := by simpa using h.env
  mem := by simpa using h.mem
  placed := h.placed

/-- A pair is its two registers. -/
theorem setPair {q : Pair} (hq : ∀ r ∈ q.regs, r ∈ i.writes.regs) (v : Word) : Completed i s (t.setPair q v) := by
  cases q with
  | bc => exact (h.setReg (hq .b (by decide)) (hiByte v)).setReg (hq .c (by decide)) (loByte v)
  | de => exact (h.setReg (hq .d (by decide)) (hiByte v)).setReg (hq .e (by decide)) (loByte v)
  | hl => exact (h.setReg (hq .h (by decide)) (hiByte v)).setReg (hq .l (by decide)) (loByte v)

theorem setFlags {f : Flags}
    (zsp : i.writes.zsp = false → f.z = t.flags.z ∧ f.s = t.flags.s ∧ f.p = t.flags.p)
    (cy : i.writes.cy = false → f.cy = t.flags.cy) (ac : i.writes.ac = false → f.ac = t.flags.ac) :
    Completed i s { t with flags := f } where
  regs := h.regs
  sp := h.sp
  zsp hw := by
    obtain ⟨hz, hs, hp⟩ := zsp hw
    obtain ⟨hz', hs', hp'⟩ := h.zsp hw
    exact ⟨hz.trans hz', hs.trans hs', hp.trans hp'⟩
  cy hw := (cy hw).trans (h.cy hw)
  ac hw := (ac hw).trans (h.ac hw)
  ie := h.ie
  lastFire := h.lastFire
  fault := h.fault
  params := h.params
  env := h.env
  mem := h.mem
  placed := h.placed

theorem setZSP (hz : i.writes.zsp = true) (v : Byte) : Completed i s { t with flags := t.flags.setZSP v } :=
  h.setFlags (fun h' => Bool.noConfusion (hz.symm.trans h')) (fun _ => rfl) (fun _ => rfl)

theorem setCY (hc : i.writes.cy = true) (x : Bool) : Completed i s { t with flags := t.flags.setCY x } :=
  h.setFlags (fun _ => ⟨rfl, rfl, rfl⟩) (fun h' => Bool.noConfusion (hc.symm.trans h')) (fun _ => rfl)

/-! ### The named effects -/

theorem setA (hr : .a ∈ i.writes.regs) (v : Byte) : Completed i s { t with a := v } := h.setReg hr v

/-- The sum, the difference and DAA: `A`, Z, S, P and CY. -/
theorem setResult (hr : .a ∈ i.writes.regs) (hz : i.writes.zsp = true) (hc : i.writes.cy = true) (v : Byte) (x : Bool) :
    Completed i s { t with a := v, flags := (t.flags.setZSP v).setCY x } :=
  ((h.setZSP hz v).setCY hc x).setA hr v

/-- `A` and all five flags. -/
theorem setPsw (hr : .a ∈ i.writes.regs) (hz : i.writes.zsp = true) (hc : i.writes.cy = true) (ha : i.writes.ac = true)
    (v : Byte) (f : Flags) : Completed i s { t with a := v, flags := f } :=
  (h.setFlags (f := f) (fun h' => Bool.noConfusion (hz.symm.trans h')) (fun h' => Bool.noConfusion (hc.symm.trans h'))
    (fun h' => Bool.noConfusion (ha.symm.trans h'))).setA hr v

theorem cmpA (hz : i.writes.zsp = true) (hc : i.writes.cy = true) (v : Byte) : Completed i s (t.cmpA v) :=
  (h.setZSP hz _).setCY hc _

theorem logicA (hr : .a ∈ i.writes.regs) (hz : i.writes.zsp = true) (hc : i.writes.cy = true) (ha : i.writes.ac = true)
    (v : Byte) : Completed i s (t.logicA v) :=
  h.setPsw hr hz hc ha v _

theorem rotateA (hr : .a ∈ i.writes.regs) (hc : i.writes.cy = true) (v : Byte) (x : Bool) :
    Completed i s (t.rotateA v x) :=
  (h.setCY hc x).setA hr v

theorem dadHL (hr : ∀ r ∈ Pair.hl.regs, r ∈ i.writes.regs) (hc : i.writes.cy = true) (v : Word) :
    Completed i s (t.dadHL v) :=
  (h.setPair (q := .hl) hr _).setCY hc _

theorem updateReg {r : Reg} (hr : r ∈ i.writes.regs) (hz : i.writes.zsp = true) (change : Byte → Byte) :
    Completed i s (t.updateReg r change) := by
  have done := (h.setReg hr (change (t.reg r))).setZSP hz (change (t.reg r))
  rwa [State.setReg_flags] at done

end

/-- A push and the new `PC`. -/
theorem afterPush {i : Instr} {s : State} {v : Word} (hie : s.ie = ieAfter s.ie i) (hw : i.writes.sp = true)
    (stores : i.stores s = s.pushCells v) (hsp : 2 ≤ s.sp.toNat) (target : Word) :
    Completed i s (afterPush s v target) := by
  have := s.sp.isLt
  have low : (addr s.sp - 2).toNat = s.sp.toNat - 2 := by simp only [addr]; omega
  have high : (addr s.sp - 1).toNat = s.sp.toNat - 1 := by simp only [addr]; omega
  have placed : CellsPlaced (s.pushCells v) :=
    cellsPlaced_word (by simp only [addr]; omega) (by simp only [addr]; omega) (by omega) _ _
  have mem : (s.mem.write (s.sp.toNat - 2) (loByte v)).write (s.sp.toNat - 1) (hiByte v) =
      s.mem.writeCells (s.pushCells v) := by simp [State.pushCells, low, high]
  exact ((stored hie stores placed mem).setSp hw _).setPc _

end Completed

/-! ## A raised fault -/

/-- The faults an instruction can raise (60_exceptions.md R281, R282): an absent byte, `NextPC`, the second byte of a
word or the new `SP` past the top of memory, a push with `SP` below 2. -/
inductive Raises (i : Instr) (s : State) : Fault → Prop where
  | absent (h : i.tier = .absent) : Raises i s (.unimplementedOpcode i.opcode)
  | nextPC (h : 65536 ≤ s.pc.toNat + i.length) : Raises i s (.outOfRangeMemoryAccess (s.pc.toNat + i.length : Int))
  | top : Raises i s (.outOfRangeMemoryAccess 65536)
  | push (h : s.sp.toNat < 2) : Raises i s (.outOfRangeMemoryAccess ((s.sp.toNat : Int) - 2))

/-- An instruction completes, or raises. -/
inductive Answers (i : Instr) (s : State) : Except Fault State → Prop where
  | ok {t : State} (h : Completed i s t) : Answers i s (.ok t)
  | error {f : Fault} (h : Raises i s f) : Answers i s (.error f)

/-! ## The shared shapes -/

section
variable {i : Instr} {s : State}

/-- Where `NextPC` is out of range nothing is left to do. -/
theorem Answers.nextPC_bind {n : Nat} {k : Word → Except Fault State} (len : i.length = n)
    (rest : s.pc.toNat + n < 65536 → Answers i s (k (s.pc + BitVec.ofNat 16 n))) :
    Answers i s (nextPC s n >>= k) := by
  subst len
  by_cases hpc : s.pc.toNat + i.length < 65536
  · rw [nextPC_ok hpc]
    exact rest hpc
  · have out : 65536 ≤ s.pc.toNat + i.length := by omega
    rw [nextPC_error out]
    exact .error (.nextPC out)

theorem answers_thenNext {n : Nat} {effect : State → State} (len : i.length = n) (done : Completed i s (effect s)) :
    Answers i s (thenNext s n effect) :=
  .nextPC_bind len fun _ => .ok (done.setPc _)

theorem Answers.memRead_bind {x : Word} {k : Byte → Except Fault State} (rest : Answers i s (k (s.mem.read x.toNat))) :
    Answers i s (memRead s (addr x) >>= k) := by
  rw [memRead_addr]
  exact rest

theorem answers_withM {effect : State → Byte → State} (len : i.length = 1)
    (done : Completed i s (effect s (s.mem.read s.hl.toNat))) : Answers i s (withM s effect) :=
  .nextPC_bind len fun _ => .memRead_bind (.ok (done.setPc _))

/-- One byte stored at a 16-bit address. -/
theorem completed_store {x : Word} {v : Byte} (hie : s.ie = ieAfter s.ie i) (stores : i.stores s = [(addr x, v)]) :
    Completed i s { s with mem := s.mem.write x.toNat v } :=
  .stored hie stores (cellsPlaced_addr x v) rfl

theorem answers_storeNext {n : Nat} {x : Word} {v : Byte} (len : i.length = n) (hie : s.ie = ieAfter s.ie i)
    (stores : i.stores s = [(addr x, v)]) : Answers i s (storeNext s n x v) := by
  refine .nextPC_bind len fun _ => ?_
  rw [memWrite_addr]
  exact .ok ((completed_store hie stores).setPc _)

theorem answers_updateM {change : Byte → Byte} (len : i.length = 1) (hie : s.ie = ieAfter s.ie i)
    (hz : i.writes.zsp = true) (stores : i.stores s = [(addr s.hl, change s.byteAtHL)]) :
    Answers i s (updateM s change) := by
  refine .nextPC_bind len fun _ => .memRead_bind ?_
  rw [memWrite_addr]
  exact .ok (((completed_store hie stores).setZSP hz _).setPc _)

/-- A word read at a 16-bit address. -/
theorem Answers.memReadWord_bind {x : Word} {k : Word → Except Fault State}
    (rest : x.toNat < 65535 → Answers i s (k (joinBytes (s.mem.read (x.toNat + 1)) (s.mem.read x.toNat)))) :
    Answers i s (memReadWord s (addr x) >>= k) := by
  by_cases hx : x.toNat < 65535
  · rw [memReadWord_addr hx]
    exact rest hx
  · rw [memReadWord_addr_top (by have := x.isLt; omega)]
    exact .error .top

/-- A word stored at a 16-bit address. -/
theorem Answers.memWriteWord_bind {x : Word} {v : Word} {k : State → Except Fault State} (hie : s.ie = ieAfter s.ie i)
    (stores : i.stores s = [(addr x, loByte v), (addr x + 1, hiByte v)])
    (rest : ∀ t, Completed i s t → Answers i s (k t)) : Answers i s (memWriteWord s (addr x) v >>= k) := by
  by_cases hx : x.toNat < 65535
  · have placed : CellsPlaced [(addr x, loByte v), (addr x + 1, hiByte v)] :=
      cellsPlaced_word (by simp [addr]) (by simp only [addr]; omega) rfl _ _
    rw [memWriteWord_addr hx]
    exact rest _ (.stored hie stores placed (by simp [addr]))
  · rw [memWriteWord_addr_top (by have := x.isLt; omega)]
    exact .error .top

theorem answers_jumpIf {cond : Cond} {a : Word} (len : i.length = 3) (start : Completed i s s) :
    Answers i s (jumpIf cond a s) := by
  unfold jumpIf
  split
  · exact .ok (start.setPc a)
  · exact answers_thenNext (effect := id) len start

theorem answers_pushThen {n : Nat} {v target : Word → Word} (len : i.length = n) (hie : s.ie = ieAfter s.ie i)
    (hw : i.writes.sp = true) (stores : i.stores s = s.pushCells (v (s.pc + BitVec.ofNat 16 n))) :
    Answers i s (pushThen s n v target) := by
  refine .nextPC_bind len fun _ => ?_
  by_cases hsp : 2 ≤ s.sp.toNat
  · rw [push16_ok hsp]
    exact .ok (.afterPush hie hw stores hsp _)
  · have below : s.sp.toNat < 2 := by omega
    rw [push16_error below]
    exact .error (.push below)

/-- A conditional call stores its return address when it is taken, and nothing else. -/
theorem answers_callIf {cond : Cond} {a : Word} (len : i.length = 3) (hie : s.ie = ieAfter s.ie i)
    (hw : i.writes.sp = true) (stores : i.stores s = s.callCellsIf cond) : Answers i s (callIf cond a s) := by
  cases hc : s.flags.holds cond with
  | true =>
    rw [callIf_taken hc]
    exact answers_pushThen (v := id) (target := fun _ => a) len hie hw (stores.trans (callCellsIf_taken hc))
  | false =>
    rw [callIf_untaken hc]
    exact answers_thenNext (effect := id) len (.start hie (stores.trans (callCellsIf_untaken hc)))

/-- The popped word is handed on with `SP` already moved. -/
theorem Answers.pop16_bind {k : Word × State → Except Fault State}
    (rest : Answers i s (k (s.stackTop, { s with sp := s.sp + 2 }))) : Answers i s (pop16 s >>= k) := by
  by_cases hsp : s.sp.toNat + 2 < 65536
  · rw [pop16_ok hsp]
    exact rest
  · rw [pop16_error (by omega)]
    exact .error .top

theorem answers_returnFromStack (start : Completed i s s) (hw : i.writes.sp = true) :
    Answers i s (returnFromStack s) :=
  .pop16_bind (.ok ((start.setSp hw _).setPc _))

theorem answers_returnIf {cond : Cond} (len : i.length = 1) (start : Completed i s s) (hw : i.writes.sp = true) :
    Answers i s (returnIf cond s) := by
  unfold returnIf
  split
  · exact answers_returnFromStack start hw
  · exact answers_thenNext (effect := id) len start

theorem answers_popNext {put : State → Word → State} (len : i.length = 1)
    (done : Completed i s (put { s with sp := s.sp + 2 } s.stackTop)) : Answers i s (popNext s put) :=
  .nextPC_bind len fun _ => .pop16_bind (.ok (done.setPc _))

end

/-! ## Every instruction -/

theorem exec_answers (i : Instr) (s : State) : ∃ r, exec i s = settle s r ∧ Answers i s r := by
  have start (hie : s.ie = ieAfter s.ie i) (stores : i.stores s = []) : Completed i s s := .start hie stores
  cases i with
  | mviR | movRR =>
    exact ⟨_, rfl, answers_thenNext rfl ((start rfl rfl).setReg (List.mem_singleton_self _) _)⟩
  | inrR | dcrR =>
    exact ⟨_, rfl, answers_thenNext rfl ((start rfl rfl).updateReg (List.mem_singleton_self _) rfl _)⟩
  | lxi | inx | dcx => exact ⟨_, rfl, answers_thenNext rfl ((start rfl rfl).setPair (fun _ h => h) _)⟩
  | dad | dadSp => exact ⟨_, rfl, answers_thenNext rfl ((start rfl rfl).dadHL (fun _ h => h) rfl _)⟩
  | lxiSp | sphl | inxSp | dcxSp => exact ⟨_, rfl, answers_thenNext rfl ((start rfl rfl).setSp rfl _)⟩
  | xchg =>
    exact ⟨_, rfl, answers_thenNext rfl
      (((start rfl rfl).setPair (q := .hl) (by decide) _).setPair (q := .de) (by decide) _)⟩
  | addR | adcR | adi | aci | subR | sbbR | sui | sbi | daa =>
    exact ⟨_, rfl, answers_thenNext rfl
      ((start rfl rfl).setResult (List.mem_singleton_self _) rfl rfl _ _)⟩
  | anaR | xraR | oraR | ani | xri | ori =>
    exact ⟨_, rfl, answers_thenNext rfl
      ((start rfl rfl).logicA (List.mem_singleton_self _) rfl rfl rfl _)⟩
  | cmpR | cpi => exact ⟨_, rfl, answers_thenNext rfl ((start rfl rfl).cmpA rfl rfl _)⟩
  | rlc | rrc | ral | rar =>
    exact ⟨_, rfl, answers_thenNext rfl ((start rfl rfl).rotateA (List.mem_singleton_self _) rfl _ _)⟩
  | cma | inp =>
    exact ⟨_, rfl, answers_thenNext rfl ((start rfl rfl).setA (List.mem_singleton_self _) _)⟩
  | stc | cmc => exact ⟨_, rfl, answers_thenNext rfl ((start rfl rfl).setCY rfl _)⟩
  | ei | di | out | nop => exact ⟨_, rfl, answers_thenNext rfl (.start rfl rfl)⟩
  | movRM =>
    exact ⟨_, rfl, answers_withM rfl ((start rfl rfl).setReg (List.mem_singleton_self _) _)⟩
  | addM | adcM | subM | sbbM =>
    exact ⟨_, rfl, answers_withM rfl ((start rfl rfl).setResult (List.mem_singleton_self _) rfl rfl _ _)⟩
  | anaM | xraM | oraM =>
    exact ⟨_, rfl, answers_withM rfl
      ((start rfl rfl).logicA (List.mem_singleton_self _) rfl rfl rfl _)⟩
  | cmpM => exact ⟨_, rfl, answers_withM rfl ((start rfl rfl).cmpA rfl rfl _)⟩
  | mviM | movMR | stax | sta => exact ⟨_, rfl, answers_storeNext rfl rfl rfl⟩
  | inrM | dcrM => exact ⟨_, rfl, answers_updateM rfl rfl rfl rfl⟩
  | ldax | lda =>
    exact ⟨_, rfl, .nextPC_bind rfl fun _ => .memRead_bind
      (.ok (((start rfl rfl).setA (List.mem_singleton_self _) _).setPc _))⟩
  | lhld =>
    exact ⟨_, rfl, .nextPC_bind rfl fun _ => .memReadWord_bind fun _ =>
      .ok (((start rfl rfl).setPair (q := .hl) (fun _ h => h) _).setPc _)⟩
  | shld =>
    exact ⟨_, rfl, .nextPC_bind rfl fun _ => .memWriteWord_bind rfl (by simp [Instr.stores]) fun _ done =>
      .ok (done.setPc _)⟩
  | jmp | pchl => exact ⟨.ok _, rfl, .ok ((start rfl rfl).setPc _)⟩
  | jnz | jz | jnc | jc | jpo | jpe | jp | jm => exact ⟨_, rfl, answers_jumpIf rfl (start rfl rfl)⟩
  | call a => exact ⟨_, rfl, answers_pushThen (v := id) (target := fun _ => a) rfl rfl rfl rfl⟩
  | cnz | cz | cnc | cc | cpo | cpe | cp | cm => exact ⟨_, rfl, answers_callIf rfl rfl rfl rfl⟩
  | ret => exact ⟨returnFromStack s, rfl, answers_returnFromStack (start rfl rfl) rfl⟩
  | rnz | rz | rnc | rc | rpo | rpe | rp | rm => exact ⟨_, rfl, answers_returnIf rfl (start rfl rfl) rfl⟩
  | rst n => exact ⟨_, exec_rst n s, answers_pushThen rfl rfl rfl rfl⟩
  | push q => exact ⟨_, exec_push q s, answers_pushThen rfl rfl rfl rfl⟩
  | pushPsw => exact ⟨_, exec_pushPsw s, answers_pushThen rfl rfl rfl rfl⟩
  | pop =>
    exact ⟨_, rfl, answers_popNext rfl (((start rfl rfl).setSp rfl _).setPair (fun _ h => h) _)⟩
  | popPsw =>
    exact ⟨_, rfl, answers_popNext rfl
      (((start rfl rfl).setSp rfl _).setPsw (List.mem_singleton_self _) rfl rfl rfl _ _)⟩
  | xthl =>
    exact ⟨_, rfl, .nextPC_bind rfl fun _ => .memReadWord_bind fun _ =>
      .memWriteWord_bind rfl (by simp [Instr.stores]) fun _ done =>
        .ok ((done.setPair (q := .hl) (fun _ h => h) _).setPc _)⟩
  | absent => exact ⟨_, rfl, .error (.absent rfl)⟩
  | absentHlt => exact ⟨_, rfl, .error (Raises.absent (i := .absentHlt) rfl)⟩

/-! ## The frames -/

/-- What a next state of an instruction is: completed, or the state before it with the fault taken. -/
theorem exec_cases {i : Instr} {s t : State} (h : exec i s = .next t) :
    Completed i s t ∨ ∃ f, Raises i s f ∧ t = s.raise f := by
  obtain ⟨r, hexec, answers⟩ := exec_answers i s
  rw [hexec] at h
  cases answers with
  | ok done => cases h; exact .inl done
  | error raises => cases h; exact .inr ⟨_, raises, rfl⟩

theorem exec_next (i : Instr) (s : State) : ∃ t, exec i s = .next t := by
  obtain ⟨r, hexec, _⟩ := exec_answers i s
  exact ⟨_, hexec⟩

/-- A poll that changes the latch has raised. -/
theorem poll_faulted {s : State} {i : PollInputs} (h : (poll s i).fault ≠ s.fault) :
    ∃ x, poll s i = s.raise (.outOfRangeMemoryAccess x) := by
  obtain ⟨_, hp⟩ | ⟨_, _, hp⟩ | ⟨_, _, hp⟩ := poll_cases s i
  · exact absurd (congrArg State.fault hp) h
  · exact absurd (congrArg State.fault hp) h
  · exact ⟨_, hp⟩

/-- Settles O14: an instruction that completes keeps the latch, and a raise writes the latch alone. -/
theorem faultsArePrecise : Obligations.FaultsArePrecise := by
  refine ⟨fun i s => ?instruction, fun s i h => ?entry⟩
  case instruction =>
    obtain ⟨t, ht⟩ := exec_next i s
    refine ⟨t, ht, fun changed => ?_⟩
    obtain done | ⟨f, _, rfl⟩ := exec_cases ht
    · exact absurd done.fault changed
    · rfl
  case entry =>
    obtain ⟨x, hx⟩ := poll_faulted h
    rw [hx]
    rfl

/-- Settles O49: a completed instruction has made its stores, a faulted one none. -/
theorem memoryFrame : Obligations.MemoryFrame := by
  intro i s t h
  obtain done | ⟨f, _, rfl⟩ := exec_cases h
  · refine ⟨fun x hx => ?others, fun none => ?storesNothing⟩
    case others => rw [done.mem, Memory.read_writeCells_of_notMem done.placed hx]
    case storesNothing => rw [done.mem, List.map_eq_nil_iff.mp none, Memory.writeCells_nil]
  · exact ⟨fun _ _ => rfl, fun _ => rfl⟩

/-- Settles O50: the registers are two fields of `Completed`. -/
theorem registerFrame : Obligations.RegisterFrame := by
  intro i s t h
  obtain done | ⟨f, _, rfl⟩ := exec_cases h
  · exact ⟨done.regs, done.sp⟩
  · exact ⟨fun r _ => s.raise_reg f r, fun _ => rfl⟩

/-- The logical instructions clear CY and AC where they complete (10_state.md R34). -/
theorem logical_clears {i : Instr} (hi : i.logical = true) {s t : State} (h : exec i s = .next t)
    (unfaulted : ∀ f, t ≠ s.raise f) : t.flags.cy = false ∧ t.flags.ac = false := by
  have completed {r : Except Fault State} (hr : settle s r = .next t) : r = .ok t :=
    (settle_cases hr).resolve_right fun ⟨f, _, ht⟩ => unfaulted f ht
  cases i with
  | anaR | xraR | oraR | ani | xri | ori =>
    obtain ⟨_, rfl⟩ := thenNext_cases (completed h)
    exact ⟨rfl, rfl⟩
  | anaM | xraM | oraM =>
    obtain ⟨_, rfl⟩ := withM_cases (completed h)
    exact ⟨rfl, rfl⟩
  | _ => cases hi

/-- Settles O51: the flags are three fields of `Completed`, and the logical instructions write what they clear. -/
theorem flagFrame : Obligations.FlagFrame := by
  intro i s t h
  have cleared (hi : i.logical = true) (_ : s.fault = none) (clear : t.fault = none) :
      t.flags.cy = false ∧ t.flags.ac = false :=
    logical_clears hi h fun f ht => by cases (congrArg State.fault ht).symm.trans clear
  obtain done | ⟨f, _, rfl⟩ := exec_cases h
  · exact ⟨done.zsp, done.cy, done.ac, cleared⟩
  · exact ⟨fun _ => ⟨rfl, rfl, rfl⟩, fun _ => rfl, fun _ => rfl, cleared⟩

/-- Settles O53: the control state is four fields of `Completed`, `IE` by what EI and DI make of it. -/
theorem controlStateFrame : Obligations.ControlStateFrame := by
  intro i s t h
  obtain done | ⟨f, _, rfl⟩ := exec_cases h
  · exact ⟨fun hei hdi => done.ie.trans (ieAfter_eq_self hei hdi), done.lastFire, done.params, done.env⟩
  · exact ⟨fun _ _ => rfl, rfl, rfl, rfl⟩

theorem Flags.eq_of_bits {f g : Flags} (hz : f.z = g.z) (hs : f.s = g.s) (hp : f.p = g.p) (hcy : f.cy = g.cy)
    (hac : f.ac = g.ac) : f = g := by
  cases f
  cases g
  cases hz; cases hs; cases hp; cases hcy; cases hac
  rfl

/-- The rows of the control transfers list neither a register nor a flag, and EI and DI are none of them. -/
theorem transfer_writes {i : Instr} (h : i.isTransfer = true) :
    i.writes = { sp := i.writes.sp } ∧ i ≠ .ei ∧ i ≠ .di := by
  cases i with
  | jmp | jnz | jz | jnc | jc | jpo | jpe | jp | jm | call | cnz | cz | cnc | cc | cpo | cpe | cp | cm | ret | rnz | rz
  | rnc | rc | rpo | rpe | rp | rm | rst | pchl => exact ⟨rfl, nofun, nofun⟩
  | _ => cases h

/-- Settles O52: the three frames above, at a row that lists nothing but `SP`. -/
theorem controlTransfersWriteNoFlag : Obligations.ControlTransfersWriteNoFlag := by
  intro i s t hi h
  obtain ⟨row, hei, hdi⟩ := transfer_writes hi
  obtain ⟨regs, sp⟩ := registerFrame i s t h
  obtain ⟨zsp, cy, ac, _⟩ := flagFrame i s t h
  obtain ⟨ie, _⟩ := controlStateFrame i s t h
  obtain ⟨hz, hs, hp⟩ := zsp (by rw [row])
  have flags : t.flags = s.flags := Flags.eq_of_bits hz hs hp (cy (by rw [row])) (ac (by rw [row]))
  exact ⟨flags, fun r => regs r (by rw [row]; exact List.not_mem_nil), ie hei hdi, sp⟩

/-! ## A store and the fetch behind it -/

/-- Settles O18: the stored byte is in memory after the instruction, and a fetch reads memory. -/
theorem storeIsSeenByTheNextFetch : Obligations.StoreIsSeenByTheNextFetch := by
  intro i s t hm _ h clear x v hstored
  obtain done | ⟨f, _, rfl⟩ := exec_cases h
  · have hx : inRange x := done.placed.1 (x, v) hstored
    have read : t.mem.read x.toNat = v := done.mem ▸ Memory.read_writeCells_of_mem hm done.placed hstored
    have operand {n : Nat} (hxn : x = addr t.pc + n) : t.mem.read (t.pc.toNat + n) = v := by
      rw [← read, hxn]
      rfl
    refine ⟨(memRead_inRange t hx).trans (congrArg _ read), fun hpc => ?opcode, fun handler => ⟨fun f form hpc => ?byte,
      fun f form room => ⟨fun hpc => ?low, fun hpc => ?high⟩⟩⟩
    case opcode => exact operand (n := 0) (hpc.trans (Int.add_zero _).symm)
    all_goals rw [fetch_handler handler, form]
    case byte =>
      have room : t.pc.toNat + 1 < 65536 := by
        have := hx.2
        simp only [hpc, addr, cap] at this
        omega
      rw [fetchOperands_imm8 room, operand (n := 1) hpc]
    case low => rw [fetchOperands_imm16 room, operand (n := 1) hpc]
    case high => rw [fetchOperands_imm16 room, operand (n := 2) hpc]
  · cases clear

end Sys2Proof.Machine
end

section
/-! The poll and the interrupt entry (60_exceptions.md R287 to R293). -/

namespace Sys2Proof.Machine

/-! ## The three cases of a poll -/

theorem fires_eq_false_iff (s : State) (now : Nat) :
    fires s now = false ↔ ¬ (s.ie = true ∧ s.params.period ≤ now - s.lastFire) := by
  rw [← fires_iff, Bool.not_eq_true]

theorem fires_of_ie_false {s : State} (h : s.ie = false) (now : Nat) : fires s now = false := by
  simp [fires, h]

theorem poll_idle {s : State} {i : PollInputs} (h : fires s i.now = false) : poll s i = s := by
  simp [poll, h]

theorem poll_enters {s : State} {i : PollInputs} (h : fires s i.now = true) (hsp : 2 ≤ s.sp.toNat) :
    poll s i = { afterPush s s.pc (entryAddress i.vector) with ie := false, lastFire := i.now } := by
  obtain ⟨hf, _⟩ | ⟨_, _, hp⟩ | ⟨_, below, _⟩ := poll_cases s i
  · cases h.symm.trans hf
  · exact hp
  · exact absurd hsp (Nat.not_le.mpr below)

theorem poll_raises {s : State} {i : PollInputs} (h : fires s i.now = true) (hsp : s.sp.toNat < 2) :
    poll s i = s.raise (.outOfRangeMemoryAccess ((s.sp.toNat : Int) - 2)) := by
  obtain ⟨hf, _⟩ | ⟨_, room, _⟩ | ⟨_, _, hp⟩ := poll_cases s i
  · cases h.symm.trans hf
  · exact absurd hsp (Nat.not_lt.mpr room)
  · exact hp

/-! ## The claims -/

/-- Settles O54: the condition decides which case of the poll it is. -/
theorem pollFiresExactlyOnItsCondition : Obligations.PollFiresExactlyOnItsCondition := by
  intro s i
  refine ⟨fun h => poll_idle ((fires_eq_false_iff s i.now).mpr h), fun h hsp => ?enters⟩
  case enters =>
    rw [poll_enters ((fires_iff s i.now).mpr h) hsp]
    exact ⟨rfl, rfl⟩

/-- Settles O55: the poll fires, and `SP` decides between the entry and the raise. -/
theorem interruptEntry : Obligations.InterruptEntry := by
  intro s i hie hperiod
  have hfires := (fires_iff s i.now).mpr ⟨hie, hperiod⟩
  exact ⟨poll_enters hfires, poll_raises hfires⟩

/-- Settles O56: a poll that changed the state and did not raise has entered, and an entry clears `IE`. -/
theorem noSecondEntryUntilEnabled : Obligations.NoSecondEntryUntilEnabled := by
  intro s i j _ clear changed
  have disabled : (poll s i).ie = false := by
    obtain ⟨_, hp⟩ | ⟨_, _, hp⟩ | ⟨_, _, hp⟩ := poll_cases s i
    · exact absurd hp changed
    · rw [hp]
    · rw [hp] at clear
      cases clear
  exact poll_idle (fires_of_ie_false disabled j.now)

end Sys2Proof.Machine
end

section
/-! One iteration and the reset input (60_exceptions.md R283, R290; 70_reset_and_hazards.md R320 to R322). -/

namespace Sys2Proof.Machine

/-! ## Reset -/

theorem resetDue_faulted {s : State} {f : Fault} (h : s.fault = some f) :
    resetDue s = scriptAfterReset s.env.script := by
  simp [resetDue, h]

/-- A core that is not FAULTED takes the reset at the head of the script. -/
theorem resetDue_clear {s : State} {rest : List Input} (h : s.fault = none) (hscript : s.env.script = .reset :: rest) :
    resetDue s = some rest := by
  simp [resetDue, h, hscript]

/-- The match takes its last case, since `running` excludes the other. -/
theorem resetDue_running {s : State} (h : s.running) : resetDue s = none := by
  obtain ⟨clear, noReset⟩ := h
  simp only [resetDue, clear]

/-- The elements of the core at their reset values, and memory the image `rom` (10_state.md R41). -/
structure AtReset (rom : List Byte) (t : State) : Prop where
  regs : ∀ r : Reg, t.reg r = 0
  sp : t.sp = 0
  pc : t.pc = 0
  flags : t.flags = { z := false, s := false, p := false, cy := false, ac := false }
  ie : t.ie = false
  lastFire : t.lastFire = 0
  fault : t.fault = none
  mem : ∀ x : Nat, t.mem.read x = rom.getD x 0

theorem atReset_of_rom (rom : List Byte) (params : Params) (env : Env) :
    AtReset rom { State.reset with mem := Memory.ofBytes 0 rom, params := params, env := env } where
  regs r := by cases r <;> rfl
  sp := rfl
  pc := rfl
  flags := rfl
  ie := rfl
  lastFire := rfl
  fault := rfl
  mem x := by simp [Memory.read_ofBytes]

theorem applyReset_atReset (s : State) (rest : List Input) : AtReset s.params.rom (s.applyReset rest) :=
  atReset_of_rom ..

/-- Settles O9: what a FAULTED core does is read off the script. -/
theorem faultedCoreWaitsForReset : Obligations.FaultedCoreWaitsForReset := by
  intro s f hf
  refine ⟨fun noReset => ?waits, fun before rest hbefore hscript => ⟨?resets, (applyReset_atReset s rest).fault⟩⟩
  case waits => exact step_faulted hf ((resetDue_faulted hf).trans (scriptAfterReset_none noReset))
  case resets =>
    exact step_reset ((resetDue_faulted hf).trans (hscript ▸ scriptAfterReset_append hbefore))

/-- Settles O10: in both cases the reset is due, and applying it gives the reset values. -/
theorem resetInputGivesTheResetState : Obligations.ResetInputGivesTheResetState := by
  intro s before rest hscript h
  have due : resetDue s = some rest := by
    obtain ⟨clear, rfl⟩ | ⟨faulted, hbefore⟩ := h
    · exact resetDue_clear clear hscript
    · obtain ⟨f, hf⟩ := Option.ne_none_iff_exists'.mp faulted
      exact (resetDue_faulted hf).trans (hscript ▸ scriptAfterReset_append hbefore)
  obtain ⟨regs, sp, pc, flags, ie, lastFire, fault, mem⟩ := applyReset_atReset s rest
  exact ⟨_, step_reset due, regs, sp, pc, flags, ie, lastFire, fault, mem, rfl, rfl⟩

theorem standard_legal : Params.standard.legal := ⟨Nat.zero_le _, Nat.succ_pos _⟩

/-- Settles O11: the parameters are legal or not, and legal ones give the reset values. -/
theorem bootGivesTheResetState : Obligations.BootGivesTheResetState := by
  refine ⟨fun p script h => ?illegal, fun p script hrom hperiod => ?legal, State.boot_legal standard_legal []⟩
  case illegal =>
    refine State.boot_illegal (fun ⟨hrom, hperiod⟩ => ?_) script
    simp only [cap] at hrom
    omega
  case legal =>
    obtain ⟨regs, sp, pc, flags, ie, lastFire, fault, mem⟩ := atReset_of_rom p.rom p { now := 0, polls := 0, script }
    exact ⟨_, State.boot_legal ⟨hrom, hperiod⟩ script, regs, sp, pc, flags, ie, lastFire, fault, mem, rfl⟩

/-! ## The fetch -/

/-- What is known of an instruction the fetch gives. -/
structure Fetched (s : State) (i : Instr) : Prop where
  wellFormed : i.wellFormed = true
  opcode : i.opcode = opcodeAt s
  present : i.tier ≠ .absent
  room : s.pc.toNat + i.length ≤ 65536

theorem fetched_of_spelled {s : State} {i : Instr} {bytes : List Byte} (handler : s.params.inTable (opcodeAt s) = true)
    (spelled : i.wellFormed = true ∧ i.opcode = opcodeAt s ∧ i.operands = bytes)
    (room : s.pc.toNat + (1 + bytes.length) ≤ 65536) : Fetched s i := by
  obtain ⟨hw, hop, operands⟩ := spelled
  exact
    { wellFormed := hw
      opcode := hop
      present := tier_eq_tierOf_opcode hw ▸ hop ▸ tierOf_ne_absent_of_inTable handler
      room := by rw [Instr.length, operands]; exact room }

theorem fetch_cases (s : State) :
    (∃ i, fetch s = .ok i ∧ Fetched s i) ∨ fetch s = .error (.outOfRangeMemoryAccess 65536) ∨
      (fetch s = .error (.unimplementedOpcode (opcodeAt s)) ∧ s.params.inTable (opcodeAt s) = false) := by
  cases handler : s.params.inTable (opcodeAt s) with
  | false => exact .inr (.inr ⟨fetch_noHandler handler, rfl⟩)
  | true =>
    have spelled := decodeOpcode_spelledBy (opcodeAt s)
    rw [fetch_handler handler]
    generalize decodeOpcode (opcodeAt s) = form at spelled
    by_cases top : 65536 < s.pc.toNat + form.length
    · exact .inr (.inl (fetchOperands_top top))
    · have room := Nat.not_lt.mp top
      left
      cases form with
      | plain i => exact ⟨_, rfl, fetched_of_spelled handler spelled room⟩
      | imm8 f => exact ⟨_, fetchOperands_imm8 room f, fetched_of_spelled handler (spelled _) room⟩
      | imm16 f => exact ⟨_, fetchOperands_imm16 room f, fetched_of_spelled handler (spelled _) room⟩

/-- Settles O8: the fetch raises, and a fetch that raises ends the iteration. -/
theorem operandPastTheTopOfMemoryRaises : Obligations.OperandPastTheTopOfMemoryRaises := by
  intro s i hrun hw hop handler htop
  rw [step_running hrun, iterate_fetch_error (operandFetchRaises_of_selects hw (opcodeSelects i) s hop handler htop),
    State.raise]

/-! ## The step runs what the decoder reads -/

theorem exportRange_succ (s : State) (base n : Nat) :
    s.exportRange base (n + 1) = s.mem.read base :: s.exportRange (base + 1) n := by
  simp [State.exportRange, List.range_succ_eq_map, Nat.add_right_comm, Nat.add_assoc]

/-- The first byte of a range and the range behind it. -/
theorem exportRange_eq_cons {s : State} {base n : Nat} {b : Byte} {bytes : List Byte}
    (h : s.exportRange base n = b :: bytes) :
    s.mem.read base = b ∧ ∃ m, n = m + 1 ∧ s.exportRange (base + 1) m = bytes := by
  cases n with
  | zero => cases h
  | succ m =>
    rw [exportRange_succ] at h
    obtain ⟨hb, hbytes⟩ := List.cons.inj h
    exact ⟨hb, m, rfl, hbytes⟩

/-- The fetch reads what the decoder reads from the bytes of memory at `PC`. -/
theorem fetch_of_decode {s : State} {i : Instr} {n : Nat} {rest : List Byte} (room : s.pc.toNat + n ≤ 65536)
    (h : decode (s.exportRange s.pc.toNat n) = .ok (i, rest)) (handler : s.params.inTable i.opcode = true) :
    fetch s = .ok i := by
  have starts : s.exportRange s.pc.toNat n = i.opcode :: (i.operands ++ rest) :=
    (decodedBytesAreTheEncoding _ _ _ h).2
  have hop : opcodeAt s = i.opcode := (exportRange_eq_cons starts).1
  rw [fetch_handler (hop ▸ handler)]
  obtain ⟨op, ⟨form, hbytes⟩ | ⟨f, v, form, rfl, hbytes⟩ | ⟨f, lo, hi, form, rfl, hbytes⟩⟩ := decode_cases h
  all_goals
    obtain ⟨rfl, m, rfl, behind⟩ := exportRange_eq_cons hbytes
    rw [opcodeAt, form]
  · rfl
  · obtain ⟨rfl, m, rfl, _⟩ := exportRange_eq_cons behind
    exact fetchOperands_imm8 (by omega) f
  · obtain ⟨rfl, m, rfl, last⟩ := exportRange_eq_cons behind
    obtain ⟨rfl, m, rfl, _⟩ := exportRange_eq_cons last
    exact fetchOperands_imm16 (by omega) f

theorem afterStep_clear {t : State} (h : t.fault = none) :
    afterStep t = poll { t with env := t.env.advance } t.env.inputs := by
  simp [afterStep, h]

theorem afterStep_eq (t : State) :
    afterStep t = if t.fault = none then poll { t with env := t.env.advance } t.env.inputs else t := by
  split
  · exact afterStep_clear ‹_›
  · obtain ⟨f, hf⟩ := Option.ne_none_iff_exists'.mp ‹_›
    simp [afterStep, hf]

/-- Settles O6: the fetch gives the decoded instruction. -/
theorem stepRunsTheDecodedInstruction : Obligations.StepRunsTheDecodedInstruction := by
  intro s t i n rest hrun room hdecode _ handler hexec
  rw [step_running hrun, iterate_exec_next (fetch_of_decode room hdecode handler) hexec, afterStep_eq]

/-! ## What a step can do -/

/-- The next state of a step: a reset, a fault the spec explains, or a completed instruction and what follows it. -/
inductive StepResult (s : State) : State → Prop where
  | reset {rest : List Input} (due : resetDue s = some rest) : StepResult s (s.applyReset rest)
  | raised {f : Fault} (explained : (s.raise f).faultExplained) : StepResult s (s.raise f)
  | ran (i : Instr) (u : State) (fetched : Fetched s i) (hexec : exec i s = .next u) (done : Completed i s u)
      (clear : u.fault = none) : StepResult s (poll { u with env := u.env.advance } u.env.inputs)

/-- An instruction that was fetched has the room for its bytes, so `NextPC` can only reach the address past memory. -/
theorem faultExplained_of_raises {s : State} {i : Instr} {f : Fault} (fetched : Fetched s i) (raises : Raises i s f) :
    (s.raise f).faultExplained := by
  cases raises with
  | absent h => exact absurd h fetched.present
  | nextPC h =>
    have room := fetched.room
    exact .inl (by omega)
  | top => exact .inl rfl
  | push h => exact .inr ⟨h, rfl⟩

theorem iterate_result {s t : State} (clear : s.fault = none) (h : iterate s = .next t) : StepResult s t := by
  obtain ⟨i, hfetch, fetched⟩ | hfetch | ⟨hfetch, noHandler⟩ := fetch_cases s
  · obtain ⟨u, hexec⟩ := exec_next i s
    rw [iterate_exec_next hfetch hexec] at h
    cases h
    obtain done | ⟨f, raises, rfl⟩ := exec_cases hexec
    · have uclear := done.fault.trans clear
      exact afterStep_clear uclear ▸ .ran i u fetched hexec done uclear
    · exact .raised (faultExplained_of_raises fetched raises)
  · rw [iterate_fetch_error hfetch] at h
    cases h
    exact .raised (.inl rfl)
  · rw [iterate_fetch_error hfetch] at h
    cases h
    exact .raised ⟨rfl, noHandler⟩

theorem step_result {s t : State} (h : step s = .next t) : StepResult s t := by
  cases due : resetDue s with
  | some rest =>
    rw [step_reset due] at h
    cases h
    exact .reset due
  | none =>
    cases hf : s.fault with
    | some f => rw [step_faulted hf due] at h; cases h
    | none =>
      rw [step, due, hf] at h
      exact iterate_result hf h

/-! ## The invariant -/

/-- Settles O12: the empty memory is canonical and nothing has fired or faulted. -/
theorem resetMeetsTheInvariant : Obligations.ResetMeetsTheInvariant :=
  ⟨reset_mem_wf, standard_legal, Nat.le_refl 0, trivial⟩

theorem Env.now_le_inputs_now (e : Env) : e.now ≤ e.inputs.now := by
  unfold Env.inputs
  split <;> exact Nat.le_add_right ..

theorem wf_afterPush {s : State} (hm : s.mem.wf) (v target : Word) : (afterPush s v target).mem.wf := by
  have := s.sp.isLt
  exact Memory.wf_write (Memory.wf_write hm (by simp only [cap]; omega) _) (by simp only [cap]; omega) _

theorem faultExplained_of_clear {s : State} (h : s.fault = none) : s.faultExplained := by
  simp [State.faultExplained, h]

theorem poll_keeps_params (s : State) (i : PollInputs) : (poll s i).params = s.params := by
  obtain ⟨_, h⟩ | ⟨_, _, h⟩ | ⟨_, _, h⟩ := poll_cases s i <;> rw [h] <;> rfl

/-- A poll at the present time keeps the invariant. -/
theorem poll_keeps_inv {s : State} (inv : s.Inv) (clear : s.fault = none) {i : PollInputs} (now : i.now = s.env.now) :
    (poll s i).Inv := by
  obtain ⟨_, h⟩ | ⟨_, _, h⟩ | ⟨_, below, h⟩ := poll_cases s i <;> rw [h]
  · exact inv
  · exact ⟨wf_afterPush inv.memCanonical s.pc (entryAddress i.vector), inv.paramsLegal, Nat.le_of_eq now,
      faultExplained_of_clear clear⟩
  · exact ⟨inv.memCanonical, inv.paramsLegal, inv.lastFireNotLater, .inr ⟨below, rfl⟩⟩

theorem applyReset_inv {s : State} (legal : s.params.legal) (rest : List Input) : (s.applyReset rest).Inv where
  memCanonical := Memory.wf_ofBytes (by simpa using legal.1)
  paramsLegal := legal
  lastFireNotLater := Nat.zero_le _
  faultExplained := trivial

/-- A completed instruction keeps the invariant, and so does the time that passes to its poll. -/
theorem Completed.inv_advance {i : Instr} {s u : State} (done : Completed i s u) (clear : u.fault = none)
    (inv : s.Inv) : ({ u with env := u.env.advance } : State).Inv where
  memCanonical := done.mem ▸ Memory.wf_writeCells inv.memCanonical done.placed
  paramsLegal := done.params ▸ inv.paramsLegal
  lastFireNotLater := by
    have passed := u.env.now_le_inputs_now
    rw [done.env] at passed ⊢
    exact done.lastFire ▸ Nat.le_trans inv.lastFireNotLater passed
  faultExplained := faultExplained_of_clear clear

/-- Settles O13: each result of a step meets the invariant. -/
theorem stepKeepsTheInvariant : Obligations.StepKeepsTheInvariant := by
  intro s t inv hstep
  cases step_result hstep with
  | reset due => exact ⟨applyReset_inv inv.paramsLegal _, rfl⟩
  | raised explained => exact ⟨⟨inv.memCanonical, inv.paramsLegal, inv.lastFireNotLater, explained⟩, rfl⟩
  | ran i u fetched hexec done clear =>
    exact ⟨poll_keeps_inv (done.inv_advance clear inv) clear rfl, (poll_keeps_params _ _).trans done.params⟩

/-! ## Entries and the flags over a step -/

/-- Settles O57: only an entry changes `last_fire`, and it waits for `PERIOD`, which is positive. -/
theorem entriesAreAPeriodApart : Obligations.EntriesAreAPeriodApart := by
  intro s t inv hrun hstep changed
  cases step_result hstep with
  | reset due => cases (resetDue_running hrun).symm.trans due
  | raised => exact absurd rfl changed
  | ran i u _ _ done _ =>
    obtain ⟨_, h⟩ | ⟨hfires, _, h⟩ | ⟨_, _, h⟩ := poll_cases { u with env := u.env.advance } u.env.inputs
    · exact absurd ((congrArg State.lastFire h).trans done.lastFire) changed
    · rw [h]
      obtain ⟨_, elapsed⟩ := (fires_iff _ _).mp hfires
      have elapsed : s.params.period ≤ u.env.inputs.now - s.lastFire := done.params ▸ done.lastFire ▸ elapsed
      have positive := inv.paramsLegal.2
      exact ⟨show s.lastFire + s.params.period ≤ u.env.inputs.now by omega, rfl, _, rfl⟩
    · exact absurd ((congrArg State.lastFire h).trans done.lastFire) changed

theorem ieAfter_false {i : Instr} (hei : i ≠ .ei) : ieAfter false i = false := by
  unfold ieAfter
  split
  · exact absurd rfl hei
  · rfl
  · rfl

/-- Settles O58: an instruction other than EI leaves `IE` at 0, and the poll behind it then does nothing. -/
theorem interruptsStayOffUntilEI : Obligations.InterruptsStayOffUntilEI := by
  intro s t hrun disabled hop hstep
  cases step_result hstep with
  | reset due => cases (resetDue_running hrun).symm.trans due
  | raised => exact ⟨disabled, rfl⟩
  | ran i u fetched _ done _ =>
    have hei : i ≠ .ei := fun h => hop (h ▸ fetched.opcode).symm
    have stays : u.ie = false := done.ie.trans (disabled ▸ ieAfter_false hei)
    rw [poll_idle (s := { u with env := u.env.advance }) (fires_of_ie_false stays _)]
    exact ⟨stays, done.lastFire⟩

theorem poll_keeps_flags (s : State) (i : PollInputs) : (poll s i).flags = s.flags := by
  obtain ⟨_, h⟩ | ⟨_, _, h⟩ | ⟨_, _, h⟩ := poll_cases s i <;> rw [h] <;> rfl

/-- The rows that list AC (10_state.md R34). -/
theorem writes_ac {i : Instr} (h : i.writes.ac = true) : i.logical = true ∨ i = .popPsw := by
  cases i with
  | anaR | anaM | xraR | xraM | oraR | oraM | ani | xri | ori => exact .inl rfl
  | popPsw => exact .inr rfl
  | _ => cases h

/-- An instruction other than POP PSW leaves AC alone or clears it. -/
theorem Completed.ac_false {i : Instr} {s u : State} (done : Completed i s u) (hexec : exec i s = .next u)
    (clear : u.fault = none) (hpop : i ≠ .popPsw) (zero : s.flags.ac = false) : u.flags.ac = false := by
  cases hac : i.writes.ac with
  | false => exact (done.ac hac).trans zero
  | true =>
    have logical := (writes_ac hac).resolve_right hpop
    exact (logical_clears logical hexec fun f h => by cases (congrArg State.fault h).symm.trans clear).2

/-- Settles O59: no result of a step sets AC. -/
theorem auxiliaryCarryStaysZeroWithoutPopPsw : Obligations.AuxiliaryCarryStaysZeroWithoutPopPsw := by
  intro s t zero hop hstep
  cases step_result hstep with
  | reset => rfl
  | raised => exact zero
  | ran i u fetched hexec done clear =>
    have hpop : i ≠ .popPsw := fun h => hop (h ▸ fetched.opcode).symm
    rw [poll_keeps_flags]
    exact done.ac_false hexec clear hpop zero

end Sys2Proof.Machine
end
